-- ==== Sys2Proof/Word.lean ====
section
/-! DEFINITION. The word types of HFC, by the names of 00_scope.md R6. All are unsigned (R9, D27): bit 0 is the
least significant bit. -/

namespace Sys2Proof

/-- A byte value (SYM_W = 8): a symbol, a header text byte, a stream byte, an OP, a STATUS or AUX field. -/
abbrev Byte := BitVec 8

/-- One count (COUNT_W = 32). -/
abbrev CountWord := BitVec 32

/-- A sum of counts (SUM_W = 40), and the VALUE field of a response. -/
abbrev SumWord := BitVec 40

/-- A node index (IDX_W = 9): 512 slots. -/
abbrev NodeIdx := BitVec 9

/-- A command word (CMD_W = 48, R70). -/
abbrev CmdWord := BitVec 48

/-- A response word (RSP_W = 64, R73). -/
abbrev RspWord := BitVec 64

end Sys2Proof
end

