-- ==== Sys2Proof/Config.lean ====
section
/-! DEFINITION. What an implementation of HFC fixes: the parameters of 00_scope.md R6 at the values the spec gives
(assumption log entry 13) and the header's character codes (30_encoding.md R81). The widths themselves are the types of
Word.lean. HFC leaves no value open, so there is no free value here (10_state.md R47, 93_implementation_defined.md I19). -/

namespace Sys2Proof.Config

/-- N_DUMMY (R6, R26): the index of the dummy node. -/
abbrev dummyIdx : NodeIdx := 511

/-- N_INT_BASE (R6, R24): the index of the first internal node. -/
abbrev intBase : Nat := 256

/-- NSYM_MAX (R6): the number of byte values. -/
abbrev symbols : Nat := 256

/-- LINE_TERM (R6, R81, D20): the header's line terminator. -/
abbrev lineTerm : Byte := 0x0A

/-- The header's `:` (R81, G1). -/
abbrev colon : Byte := 0x3A

/-- The header's `,` (R81, G1). -/
abbrev comma : Byte := 0x2C

/-- The header's digit `0` (R81, G1); the digit d is `digitZero + d`. -/
abbrev digitZero : Byte := 0x30

/-- The largest count, 2^32 - 1 (R6, R13, R158). -/
abbrev countMax : Nat := 0xFFFFFFFF

/-- The largest byte value (R13, R158). -/
abbrev byteMax : Nat := 255

end Sys2Proof.Config
end

