-- ==== Sys2Proof/Syntax.lean ====
section
/-! DEFINITION. The 29 commands of 30_encoding.md R76, one constructor per row of spec/opcode_table.json, with the
operands of R71. An operand has exactly the width of its field (20_memory.md R50). -/

namespace Sys2Proof

/-- One HFC command. -/
inductive Instr where
  /-- NOP, 0x00, R170. -/
  | nop
  /-- RESET, 0x01, R171. -/
  | reset
  /-- STATUS, 0x02, R172. -/
  | status
  /-- RDFAULT, 0x03, R173. -/
  | rdfault
  /-- CNT b, 0x10, R92. -/
  | cnt (b : Byte)
  /-- LOADF b, n, 0x11, R93. -/
  | loadf (b : Byte) (n : CountWord)
  /-- RDF b, 0x12, R94. -/
  | rdf (b : Byte)
  /-- RDNSYM, 0x13, R95. -/
  | rdnsym
  /-- RDTOT, 0x14, R96. -/
  | rdtot
  /-- HDRB c, 0x18, R158. -/
  | hdrb (c : Byte)
  /-- HDRSER, 0x19, R161. -/
  | hdrser
  /-- BUILD, 0x20, R103. -/
  | build
  /-- RDNODE i, 0x21, R108. -/
  | rdnode (i : NodeIdx)
  /-- RDNFRQ i, 0x22, R109. -/
  | rdnfrq (i : NodeIdx)
  /-- RDROOT, 0x23, R110. -/
  | rdroot
  /-- GENCODE, 0x30, R116. -/
  | gencode
  /-- RDCLEN b, 0x31, R118. -/
  | rdclen (b : Byte)
  /-- RDCBIT b, k, 0x32, R119. -/
  | rdcbit (b k : Byte)
  /-- WBIT v, 0x40, R128. -/
  | wbit (v : Bool)
  /-- WFLUSH, 0x41, R129. -/
  | wflush
  /-- ENC b, 0x42, R156. -/
  | enc (b : Byte)
  /-- SNKFAIL, 0x43, R130. -/
  | snkfail
  /-- PUSH b, 0x50, R137. -/
  | push (b : Byte)
  /-- PUSHERR, 0x51, R138. -/
  | pusherr
  /-- EOD, 0x52, R140. -/
  | eod
  /-- RBIT, 0x53, R139. -/
  | rbit
  /-- DSTART, 0x60, R146. -/
  | dstart
  /-- DSTEP, 0x61, R147. -/
  | dstep
  /-- DEC, 0x62, R150. -/
  | dec
  deriving DecidableEq, Repr

/-- The six operand shapes of R71. -/
inductive Shape where
  /-- No operand. -/
  | none
  /-- A byte in B. -/
  | byte
  /-- A byte in B, a count in N. -/
  | byteCount
  /-- A bit in B[0]. -/
  | bit
  /-- A node index in N[8:0]. -/
  | nodeIndex
  /-- A byte in B, a position in N[7:0]. -/
  | bytePos
  deriving DecidableEq, Repr

/-- The three fields of a command word as the host presents them, not yet checked (R70). -/
structure RawCommand where
  /-- OP, bits 47:40. -/
  op : Byte
  /-- B, bits 39:32. -/
  b : Byte
  /-- N, bits 31:0. -/
  n : CountWord
  deriving DecidableEq, Repr

end Sys2Proof
end

