-- ==== Sys2Proof/WellFormed.lean ====
section
/-! DEFINITION. Which command words are legal (30_encoding.md R71, R72, R77): the OP is one of the 29, and every
reserved bit is 0. A term of Instr cannot be ill-formed, since its operands have the width of their fields; what can be
ill-formed is the raw command the host presents. -/

namespace Sys2Proof

/-- The shape of each of the 29 opcodes (R71, R76); `none` for the 227 reserved OP values. -/
def opShape (op : Byte) : Option Shape :=
  if op ∈ [0x00#8, 0x01#8, 0x02#8, 0x03#8, 0x13#8, 0x14#8, 0x19#8, 0x20#8, 0x23#8, 0x30#8, 0x41#8, 0x43#8,
      0x51#8, 0x52#8, 0x53#8, 0x60#8, 0x61#8, 0x62#8] then some .none
  else if op ∈ [0x10#8, 0x12#8, 0x18#8, 0x31#8, 0x42#8, 0x50#8] then some .byte
  else if op = 0x11#8 then some .byteCount
  else if op = 0x40#8 then some .bit
  else if op ∈ [0x21#8, 0x22#8] then some .nodeIndex
  else if op = 0x32#8 then some .bytePos
  else none

/-- The reserved bits of a shape are 0 (R71, R72). -/
def Shape.reservedZero : Shape → Byte → CountWord → Bool
  | .none, b, n => b == 0 && n == 0
  | .byte, _, n => n == 0
  | .byteCount, _, _ => true
  | .bit, b, n => decide (b.toNat < 2) && n == 0
  | .nodeIndex, b, n => b == 0 && decide (n.toNat < 512)
  | .bytePos, _, n => decide (n.toNat < 256)

/-- The command is legal (R77). -/
def RawCommand.legal (c : RawCommand) : Bool :=
  match opShape c.op with
  | some sh => sh.reservedZero c.b c.n
  | none => false

end Sys2Proof
end

