-- ==== Sys2Proof/Decode.lean ====
section
/-! DEFINITION. Command words to commands and back (30_encoding.md R70 to R72, R76 to R78, R85). `decode` is total and
rejects by name; `encode` is written from the same tables. `opcodeTable` is spec/opcode_table.json's mask and match
columns. -/

namespace Sys2Proof

/-- Why a command word is illegal (R77). -/
inductive Reject where
  /-- The OP is not one of the 29 values of R76. -/
  | undefinedOp
  /-- A reserved bit of R71 is nonzero. -/
  | reservedBits
  deriving DecidableEq, Repr

/-- OP, bits 47:40 (R70). -/
def fieldOp (w : CmdWord) : Byte := w.extractLsb' 40 8

/-- B, bits 39:32 (R70). -/
def fieldB (w : CmdWord) : Byte := w.extractLsb' 32 8

/-- N, bits 31:0 (R70). -/
def fieldN (w : CmdWord) : CountWord := w.extractLsb' 0 32

/-- The raw command a word carries. -/
def rawOf (w : CmdWord) : RawCommand := ⟨fieldOp w, fieldB w, fieldN w⟩

/-- Accept a command when its reserved bits are 0 (R72). -/
def whenZero (ok : Bool) (i : Instr) : Except Reject Instr :=
  if ok then .ok i else .error .reservedBits

/-- Shape none (R71): B and N must be 0. -/
def noOperand (b : Byte) (n : CountWord) (i : Instr) : Except Reject Instr :=
  whenZero (b == 0 && n == 0) i

/-- Shape byte (R71): B is the operand, N must be 0. -/
def byteOperand (b : Byte) (n : CountWord) (mk : Byte → Instr) : Except Reject Instr :=
  whenZero (n == 0) (mk b)

/-- Shape bit (R71): B[0] is the operand, B[7:1] and N must be 0. -/
def bitOperand (b : Byte) (n : CountWord) (mk : Bool → Instr) : Except Reject Instr :=
  whenZero (b.extractLsb' 1 7 == 0 && n == 0) (mk (b.getLsbD 0))

/-- Shape node index (R71): N[8:0] is the operand, B and N[31:9] must be 0. -/
def nodeOperand (b : Byte) (n : CountWord) (mk : NodeIdx → Instr) : Except Reject Instr :=
  whenZero (b == 0 && n.extractLsb' 9 23 == 0) (mk (n.extractLsb' 0 9))

/-- Shape byte and position (R71): B and N[7:0] are the operands, N[31:8] must be 0. -/
def bytePosOperand (b : Byte) (n : CountWord) (mk : Byte → Byte → Instr) : Except Reject Instr :=
  whenZero (n.extractLsb' 8 24 == 0) (mk b (n.extractLsb' 0 8))

/-- The command the three fields stand for, or the reason they are illegal (R71, R76, R77). -/
def decodeFields (op b : Byte) (n : CountWord) : Except Reject Instr :=
  match op.toNat with
  | 0x00 => noOperand b n .nop
  | 0x01 => noOperand b n .reset
  | 0x02 => noOperand b n .status
  | 0x03 => noOperand b n .rdfault
  | 0x10 => byteOperand b n .cnt
  | 0x11 => .ok (.loadf b n)
  | 0x12 => byteOperand b n .rdf
  | 0x13 => noOperand b n .rdnsym
  | 0x14 => noOperand b n .rdtot
  | 0x18 => byteOperand b n .hdrb
  | 0x19 => noOperand b n .hdrser
  | 0x20 => noOperand b n .build
  | 0x21 => nodeOperand b n .rdnode
  | 0x22 => nodeOperand b n .rdnfrq
  | 0x23 => noOperand b n .rdroot
  | 0x30 => noOperand b n .gencode
  | 0x31 => byteOperand b n .rdclen
  | 0x32 => bytePosOperand b n .rdcbit
  | 0x40 => bitOperand b n .wbit
  | 0x41 => noOperand b n .wflush
  | 0x42 => byteOperand b n .enc
  | 0x43 => noOperand b n .snkfail
  | 0x50 => byteOperand b n .push
  | 0x51 => noOperand b n .pusherr
  | 0x52 => noOperand b n .eod
  | 0x53 => noOperand b n .rbit
  | 0x60 => noOperand b n .dstart
  | 0x61 => noOperand b n .dstep
  | 0x62 => noOperand b n .dec
  | _ => .error .undefinedOp

/-- The command a word stands for, or the reason it is illegal (R70, R77, R85). -/
def decode (w : CmdWord) : Except Reject Instr := decodeFields (fieldOp w) (fieldB w) (fieldN w)

/-- The OP value of each command (R76). -/
def Instr.opcode : Instr → Byte
  | .nop => 0x00
  | .reset => 0x01
  | .status => 0x02
  | .rdfault => 0x03
  | .cnt _ => 0x10
  | .loadf _ _ => 0x11
  | .rdf _ => 0x12
  | .rdnsym => 0x13
  | .rdtot => 0x14
  | .hdrb _ => 0x18
  | .hdrser => 0x19
  | .build => 0x20
  | .rdnode _ => 0x21
  | .rdnfrq _ => 0x22
  | .rdroot => 0x23
  | .gencode => 0x30
  | .rdclen _ => 0x31
  | .rdcbit _ _ => 0x32
  | .wbit _ => 0x40
  | .wflush => 0x41
  | .enc _ => 0x42
  | .snkfail => 0x43
  | .push _ => 0x50
  | .pusherr => 0x51
  | .eod => 0x52
  | .rbit => 0x53
  | .dstart => 0x60
  | .dstep => 0x61
  | .dec => 0x62

/-- The B field of each command's word (R71). -/
def Instr.operandB : Instr → Byte
  | .cnt b | .loadf b _ | .rdf b | .hdrb b | .rdclen b | .rdcbit b _ | .enc b | .push b => b
  | .wbit v => if v then 1 else 0
  | .nop | .reset | .status | .rdfault | .rdnsym | .rdtot | .hdrser | .build | .rdnode _ | .rdnfrq _ | .rdroot
  | .gencode | .wflush | .snkfail | .pusherr | .eod | .rbit | .dstart | .dstep | .dec => 0

/-- The N field of each command's word (R71). -/
def Instr.operandN : Instr → CountWord
  | .loadf _ n => n
  | .rdnode i | .rdnfrq i => i.setWidth 32
  | .rdcbit _ k => k.setWidth 32
  | .nop | .reset | .status | .rdfault | .cnt _ | .rdf _ | .rdnsym | .rdtot | .hdrb _ | .hdrser | .build | .rdroot
  | .gencode | .rdclen _ | .wbit _ | .wflush | .enc _ | .snkfail | .push _ | .pusherr | .eod | .rbit | .dstart
  | .dstep | .dec => 0

/-- The command word of a command (R70): OP, B, N from the most significant end. -/
def encode (i : Instr) : CmdWord := i.opcode ++ i.operandB ++ i.operandN

/-- One row of spec/opcode_table.json: a word w selects the row when `w &&& mask = value` (R76). -/
structure OpRow where
  /-- The row's mnemonic. -/
  mnemonic : String
  /-- The row's match column. -/
  value : CmdWord
  /-- The row's mask column. -/
  mask : CmdWord
  deriving DecidableEq, Repr

/-- The rows of the control, frequency and header commands. -/
def opcodeTableLow : List OpRow :=
  [⟨"NOP", 0x000000000000, 0xFFFFFFFFFFFF⟩, ⟨"RESET", 0x010000000000, 0xFFFFFFFFFFFF⟩,
   ⟨"STATUS", 0x020000000000, 0xFFFFFFFFFFFF⟩, ⟨"RDFAULT", 0x030000000000, 0xFFFFFFFFFFFF⟩,
   ⟨"CNT", 0x100000000000, 0xFF00FFFFFFFF⟩, ⟨"LOADF", 0x110000000000, 0xFF0000000000⟩,
   ⟨"RDF", 0x120000000000, 0xFF00FFFFFFFF⟩, ⟨"RDNSYM", 0x130000000000, 0xFFFFFFFFFFFF⟩,
   ⟨"RDTOT", 0x140000000000, 0xFFFFFFFFFFFF⟩, ⟨"HDRB", 0x180000000000, 0xFF00FFFFFFFF⟩,
   ⟨"HDRSER", 0x190000000000, 0xFFFFFFFFFFFF⟩]

/-- The rows of the builder and code table commands. -/
def opcodeTableMid : List OpRow :=
  [⟨"BUILD", 0x200000000000, 0xFFFFFFFFFFFF⟩, ⟨"RDNODE", 0x210000000000, 0xFFFFFFFFFE00⟩,
   ⟨"RDNFRQ", 0x220000000000, 0xFFFFFFFFFE00⟩, ⟨"RDROOT", 0x230000000000, 0xFFFFFFFFFFFF⟩,
   ⟨"GENCODE", 0x300000000000, 0xFFFFFFFFFFFF⟩, ⟨"RDCLEN", 0x310000000000, 0xFF00FFFFFFFF⟩,
   ⟨"RDCBIT", 0x320000000000, 0xFF00FFFFFF00⟩]

/-- The rows of the writer, reader and walker commands. -/
def opcodeTableHigh : List OpRow :=
  [⟨"WBIT", 0x400000000000, 0xFFFEFFFFFFFF⟩, ⟨"WFLUSH", 0x410000000000, 0xFFFFFFFFFFFF⟩,
   ⟨"ENC", 0x420000000000, 0xFF00FFFFFFFF⟩, ⟨"SNKFAIL", 0x430000000000, 0xFFFFFFFFFFFF⟩,
   ⟨"PUSH", 0x500000000000, 0xFF00FFFFFFFF⟩, ⟨"PUSHERR", 0x510000000000, 0xFFFFFFFFFFFF⟩,
   ⟨"EOD", 0x520000000000, 0xFFFFFFFFFFFF⟩, ⟨"RBIT", 0x530000000000, 0xFFFFFFFFFFFF⟩,
   ⟨"DSTART", 0x600000000000, 0xFFFFFFFFFFFF⟩, ⟨"DSTEP", 0x610000000000, 0xFFFFFFFFFFFF⟩,
   ⟨"DEC", 0x620000000000, 0xFFFFFFFFFFFF⟩]

/-- The 29 rows of spec/opcode_table.json, in its order. -/
def opcodeTable : List OpRow := opcodeTableLow ++ opcodeTableMid ++ opcodeTableHigh

/-- The word selects the row. -/
def OpRow.selects (r : OpRow) (w : CmdWord) : Bool := w &&& r.mask == r.value

/-- The command word whose bits are `w`, bit 0 the least significant, the bits from `nbits` up being 0. HFC's one word
is the whole command, so no byte order enters (20_memory.md R53; assumption log entry 5). -/
def tableWord (nbits w : Nat) : CmdWord := BitVec.ofNat 48 (w % 2 ^ nbits)

/-- The command the decoder reads from a table-numbered word; `none` where it rejects the word. -/
def decodeTableWord (nbits w : Nat) : Option Instr :=
  match decode (tableWord nbits w) with
  | .ok i => some i
  | .error _ => none

end Sys2Proof
end

