-- ==== Sys2Proof/Machine/State.lean ====
section
/-! DEFINITION. The state of HFC: `Block` has exactly the components of 10_state.md R15, grouped by the unit that owns them
(00_scope.md R2). `State` is the block with the two ends of its command port, which are the host's and no state of the
block (R49). Reset is R47. -/

namespace Sys2Proof.Machine

/-- HSTATE (R22): the header parser's state. Values 6 and 7 never occur, so the type has none. -/
inductive HState where
  /-- H_LINE0 (0): no header byte consumed yet. -/
  | line0
  /-- H_BDIG (1): one or more digits of a byte value consumed. -/
  | bdig
  /-- H_CSTART (2): the `:` consumed, no count digit yet. -/
  | cstart
  /-- H_CDIG (3): one or more digits of a count consumed. -/
  | cdig
  /-- H_PAIR (4): a `,` consumed; a byte-value digit must follow. -/
  | pair
  /-- H_DONE (5): the line terminator consumed. -/
  | done
  deriving DecidableEq, Repr

/-- N_KIND (R24). -/
inductive NodeKind where
  /-- EMPTY (0): no node. -/
  | empty
  /-- LEAF (1): one byte value and its frequency. -/
  | leaf
  /-- INTERNAL (2): two children and their combined frequency. -/
  | internal
  /-- DUMMY (3): only slot 511 (R26). -/
  | dummy
  deriving DecidableEq, Repr

/-- WSTATE (R38): the walker's state. Value 3 never occurs, so the type has none. -/
inductive WState where
  /-- W_IDLE (0): no walk started in this call. -/
  | idle
  /-- W_WALK (1): a walk is in progress. -/
  | walk
  /-- W_DONE (2): the walk has ended. -/
  | done
  deriving DecidableEq, Repr

/-- One token of SRC (R35). -/
inductive Token where
  /-- `Byte(v)`: the source delivered the byte. -/
  | byte (v : Byte)
  /-- `Err`: the source reported a read failure here. -/
  | err
  deriving DecidableEq, Repr

/-- One entry of the frequency table: PRES[b] (R18) and FREQ[b] (R19). -/
structure FreqEntry where
  /-- PRES[b]. -/
  pres : Bool
  /-- FREQ[b]. -/
  freq : CountWord
  deriving DecidableEq, Repr

/-- Unit FC: the frequency table (R18 to R21). -/
structure FC where
  /-- PRES[b] and FREQ[b] for b in 0..255. -/
  table : Vector FreqEntry 256
  /-- NSYM, the number of keys (R20). -/
  nsym : BitVec 9
  /-- TOTAL, the sum of the counts (R21). -/
  total : SumWord
  deriving DecidableEq, Repr

/-- Unit HC: the header parser (R22, R23). -/
structure HC where
  /-- HSTATE. -/
  hstate : HState
  /-- HB, the byte value being parsed. -/
  hb : Byte
  /-- HN, the count being parsed. -/
  hn : CountWord
  deriving DecidableEq, Repr

/-- One slot of the node arena (R24, R25) with its queue membership (R27). -/
structure Node where
  /-- N_KIND[i]. -/
  kind : NodeKind
  /-- N_SYM[i]. -/
  sym : Byte
  /-- N_FREQ[i]. -/
  freq : SumWord
  /-- N_LEFT[i]. -/
  left : NodeIdx
  /-- N_RIGHT[i]. -/
  right : NodeIdx
  /-- ACTIVE[i]. -/
  active : Bool
  deriving DecidableEq, Repr

/-- Unit TB: the node arena, the queue and the tree registers (R24 to R28). Slot 511 is hardwired (R26) and is not
stored: `TB.node` of Machine/Ops.lean answers it. -/
structure TB where
  /-- Slots 0..510. -/
  nodes : Vector Node 511
  /-- ROOT. -/
  root : NodeIdx
  /-- NINT. -/
  nint : Byte
  /-- TREE_VALID. -/
  treeValid : Bool
  deriving DecidableEq, Repr

/-- One entry of the code table (R29). -/
structure CodeEntry where
  /-- C_VALID[b]. -/
  valid : Bool
  /-- C_LEN[b]. -/
  len : Byte
  /-- C_BITS[b]: bit k is the k-th branch of the path from the root. -/
  bits : BitVec 255
  deriving DecidableEq, Repr

/-- Unit CT: the code table (R29, R30). -/
structure CT where
  /-- C_VALID[b], C_LEN[b], C_BITS[b] for b in 0..255. -/
  table : Vector CodeEntry 256
  /-- CODE_VALID. -/
  codeValid : Bool
  deriving DecidableEq, Repr

/-- Unit BW: the bit-stream writer (R31 to R34). -/
structure BW where
  /-- SINK. -/
  sink : List Byte
  /-- WBUF. -/
  wbuf : Byte
  /-- WCNT. -/
  wcnt : BitVec 3
  /-- W_CLOSED. -/
  wClosed : Bool
  /-- SNK_FAIL. -/
  snkFail : Bool
  deriving DecidableEq, Repr

/-- Unit BR: the bit-stream reader (R35 to R37). -/
structure BR where
  /-- SRC, the next token first. -/
  src : List Token
  /-- SRC_EOD. -/
  srcEod : Bool
  /-- RBUF. -/
  rbuf : Byte
  /-- RCNT, 0..8 (R37; the values 9..15 of its four bits never occur). -/
  rcnt : Fin 9
  deriving DecidableEq, Repr

/-- Unit TW: the tree walker (R38 to R42). -/
structure TW where
  /-- WSTATE. -/
  wstate : WState
  /-- CUR. -/
  cur : NodeIdx
  /-- EMITTED. -/
  emitted : SumWord
  /-- EXPECTED. -/
  expected : SumWord
  /-- SHORT. -/
  short : Bool
  /-- MIDSYM. -/
  midsym : Bool
  /-- DOUT. -/
  dout : List Byte
  deriving DecidableEq, Repr

/-- The fault registers (R43). -/
structure FaultRegs where
  /-- F_CODE, 0 when no fault is recorded. -/
  code : Byte
  /-- F_CMD. -/
  cmd : Byte
  /-- F_INFO. -/
  info : CountWord
  deriving DecidableEq, Repr

/-- The whole state of the block: R15's components by unit, and nothing else. -/
structure Block where
  /-- The frequency counter. -/
  fc : FC
  /-- The header parser. -/
  hc : HC
  /-- The tree builder. -/
  tb : TB
  /-- The code table. -/
  ct : CT
  /-- The bit-stream writer. -/
  bw : BW
  /-- The bit-stream reader. -/
  br : BR
  /-- The tree walker. -/
  tw : TW
  /-- The fault registers. -/
  flt : FaultRegs
  deriving DecidableEq, Repr

/-- What the host's interface steps: the block and its command port. The port's two ends are the model's own fields, since
that interface gives a step no input but a state (assumption log entries 1 and 2). -/
structure State extends Block where
  /-- The model's own: the command words the host has presented and the block has not taken yet, the next one first. -/
  cmds : List CmdWord
  /-- The model's own: the response words the block has returned, the oldest first. -/
  rsps : List RspWord
  deriving DecidableEq, Repr

/-- Why the model stops. HFC's own eight faults (60_exceptions.md R180) are not among these: the block records them and
goes on, so they are next states. -/
inductive Fault where
  /-- Raised by `step` when the host has presented no command: "No step happens without a command" (R7). SAFE: the model
  makes no step where the block makes none (assumption log entry 3). DEDUCED. -/
  | noCommand
  deriving DecidableEq, Repr

/-- Why a command has no meaning. -/
inductive Refusal where
  /-- Raised by an arm of `exec` whose command has no meaning in the model yet. SAFE. No arm raises it. -/
  | notModelled (mnemonic : String)
  deriving DecidableEq, Repr

/-- A frequency entry at reset (R18, R19, R47). -/
def FreqEntry.reset : FreqEntry := ⟨false, 0⟩

/-- A node slot at reset (R24, R25, R27, R47). -/
def Node.reset : Node := ⟨.empty, 0, 0, 0, 0, false⟩

/-- A code entry at reset (R29, R47). -/
def CodeEntry.reset : CodeEntry := ⟨false, 0, 0⟩

/-- The frequency counter at reset (R47). -/
def FC.reset : FC := ⟨Vector.replicate 256 .reset, 0, 0⟩

/-- The header parser at reset (R47). -/
def HC.reset : HC := ⟨.line0, 0, 0⟩

/-- The tree builder at reset (R47). -/
def TB.reset : TB := ⟨Vector.replicate 511 .reset, 0, 0, false⟩

/-- The code table at reset (R47). -/
def CT.reset : CT := ⟨Vector.replicate 256 .reset, false⟩

/-- The writer at reset (R47). -/
def BW.reset : BW := ⟨[], 0, 0, false, false⟩

/-- The reader at reset (R47). -/
def BR.reset : BR := ⟨[], false, 0, 0⟩

/-- The walker at reset (R47). -/
def TW.reset : TW := ⟨.idle, 0, 0, 0, false, false, []⟩

/-- The fault registers at reset (R47). -/
def FaultRegs.reset : FaultRegs := ⟨0, 0, 0⟩

/-- The block right after reset (R47, R205, R206). -/
def Block.reset : Block := ⟨.reset, .reset, .reset, .reset, .reset, .reset, .reset, .reset⟩

/-- The machine right after reset (R47, R205, R206), with an idle command port (entries 1 and 2). -/
def State.reset : State := ⟨.reset, [], []⟩

end Sys2Proof.Machine
end

