-- ==== Sys2Proof/Machine/Flags.lean ====
section
/-! DEFINITION. The codes of the control registers, the STATUS view, the FAULTED predicate and the control-state
preconditions (10_state.md R22, R24, R38, R43 to R45; 60_exceptions.md R180, R188, R190). HFC has no arithmetic
condition codes (R45). -/

namespace Sys2Proof.Machine

/-- One bit as a field. -/
def bit1 (v : Bool) : BitVec 1 := BitVec.ofBool v

/-- The value of HSTATE (R22). -/
def HState.code : HState → BitVec 3
  | .line0 => 0
  | .bdig => 1
  | .cstart => 2
  | .cdig => 3
  | .pair => 4
  | .done => 5

/-- The value of N_KIND (R24). -/
def NodeKind.code : NodeKind → BitVec 2
  | .empty => 0
  | .leaf => 1
  | .internal => 2
  | .dummy => 3

/-- The value of WSTATE (R38). -/
def WState.code : WState → BitVec 2
  | .idle => 0
  | .walk => 1
  | .done => 2

/-- The eight fault kinds of R180. -/
inductive FaultKind where
  /-- EmptyInputError (R181). -/
  | emptyInput
  /-- MalformedHeaderError (R182). -/
  | malformedHeader
  /-- IOError (R183). -/
  | io
  /-- EncodingError (R184). -/
  | encoding
  /-- CountOverflow (R185). -/
  | countOverflow
  /-- IllegalCommand (R187). -/
  | illegalCommand
  /-- ProtocolError (R188). -/
  | protocol
  /-- BadPath (R189). -/
  | badPath
  deriving DecidableEq, Repr

/-- The code of a fault (R180). -/
def FaultKind.code : FaultKind → Byte
  | .emptyInput => 1
  | .malformedHeader => 2
  | .io => 3
  | .encoding => 4
  | .countOverflow => 5
  | .illegalCommand => 6
  | .protocol => 7
  | .badPath => 8

/-- FAULTED (R43): F_CODE != 0. -/
def Block.faulted (s : Block) : Bool := s.flt.code != 0

/-- The 40-bit STATUS view (R44, R172). -/
def Block.statusView (s : Block) : SumWord :=
  0#20 ++ BitVec.ofNat 4 s.br.rcnt.val ++ s.bw.wcnt ++ s.hc.hstate.code ++ s.tw.wstate.code
    ++ bit1 s.faulted ++ bit1 s.tw.midsym ++ bit1 s.tw.short ++ bit1 s.bw.snkFail
    ++ bit1 s.br.srcEod ++ bit1 s.bw.wClosed ++ bit1 s.ct.codeValid ++ bit1 s.tb.treeValid

/-- The twelve commands a faulted block still executes (R85, R174, R190). -/
def whenFaulted : Instr → Bool
  | .nop | .reset | .status | .rdfault | .rdf _ | .rdnsym | .rdtot | .rdnode _ | .rdnfrq _ | .rdroot | .rdclen _
  | .rdcbit _ _ => true
  | .cnt _ | .loadf _ _ | .hdrb _ | .hdrser | .build | .gencode | .wbit _ | .wflush | .enc _ | .snkfail | .push _
  | .pusherr | .eod | .rbit | .dstart | .dstep | .dec => false

/-- The control state each command requires (R188); a command not listed there requires none. -/
def precondition (s : Block) : Instr → Bool
  | .cnt _ | .loadf _ _ => !s.tb.treeValid
  | .hdrb _ => !s.tb.treeValid && s.hc.hstate != .done
  | .hdrser => !s.bw.wClosed && s.bw.wcnt == 0 && s.bw.sink.isEmpty
  | .build => !s.tb.treeValid && (s.hc.hstate == .line0 || s.hc.hstate == .done)
  | .gencode => s.tb.treeValid && !s.ct.codeValid
  | .wbit _ | .wflush => !s.bw.wClosed
  | .enc _ => s.ct.codeValid && !s.bw.wClosed
  | .push _ | .pusherr | .eod => !s.br.srcEod
  | .dstart => s.tb.treeValid && s.tw.wstate == .idle
  | .dstep | .dec => s.tw.wstate != .idle
  | .nop | .reset | .status | .rdfault | .rdf _ | .rdnsym | .rdtot | .rdnode _ | .rdnfrq _ | .rdroot | .rdclen _
  | .rdcbit _ _ | .snkfail | .rbit => true

end Sys2Proof.Machine
end

