-- ==== Sys2Proof/Machine/Operands.lean ====
section
/-! DEFINITION. How operands and results are widened and laid into the response word (30_encoding.md R71, R73 to R75).
Nothing is signed, so every widening is with zeros (00_scope.md R9). -/

namespace Sys2Proof.Machine

/-- `zext_40`. -/
def zext40 {w : Nat} (v : BitVec w) : SumWord := v.setWidth 40

/-- `zext_32`. -/
def zext32 {w : Nat} (v : BitVec w) : CountWord := v.setWidth 32

/-- `zext_8` of a bit, or a bit as AUX. -/
def zext8 (v : Bool) : Byte := (BitVec.ofBool v).setWidth 8

/-- The three parts of a response (R73). -/
structure Reply where
  /-- STATUS, bits 63:56. -/
  status : Byte
  /-- AUX, bits 55:48. -/
  aux : Byte
  /-- VALUE, bits 39:0. -/
  value : SumWord
  deriving DecidableEq, Repr

/-- The response word; bits 47:40 are 0 (R73). -/
def Reply.word (r : Reply) : RspWord := r.status ++ r.aux ++ 0#8 ++ r.value

/-- STATUS OK (R74). -/
def okReply (aux : Byte) (value : SumWord) : Reply := ⟨0x00, aux, value⟩

/-- STATUS EOS (R74). -/
def eosReply (value : SumWord) : Reply := ⟨0x01, 0, value⟩

/-- STATUS BLOCKED (R74). -/
def blockedReply (value : SumWord) : Reply := ⟨0x02, 0, value⟩

/-- STATUS DONE (R74). -/
def doneReply (value : SumWord) : Reply := ⟨0x03, 0, value⟩

/-- STATUS FAULT with code c and F_INFO (R74, R186). -/
def faultReply (code : Byte) (info : CountWord) : Reply := ⟨0x80 + code, 0, zext40 info⟩

/-- STATUS REFUSED (R74, R190). -/
def refusedReply (code : Byte) : Reply := ⟨0xFF, code, 0⟩

/-- `{zext_16(NINT), 0b0000000, ROOT}`: VALUE of BUILD and RDROOT (R75, R103, R110). -/
def rootValue (nint : Byte) (root : NodeIdx) : SumWord := zext40 (nint ++ 0#7 ++ root)

/-- `{ACTIVE, N_KIND, N_LEFT, N_RIGHT}`: VALUE of RDNODE (R75, R108). -/
def nodeValue (n : Node) : SumWord := zext40 (bit1 n.active ++ n.kind.code ++ n.left ++ n.right)

/-- `{CUR, emitted}`: VALUE of DSTEP and DEC (R75, R147). -/
def walkValue (cur : NodeIdx) (emitted : Bool) : SumWord := zext40 (cur ++ bit1 emitted)

/-- `{F_CMD, F_INFO}`: VALUE of RDFAULT (R75, R173). -/
def faultValue (f : FaultRegs) : SumWord := f.cmd ++ f.info

end Sys2Proof.Machine
end

