-- ==== Sys2Proof/Machine/Ops.lean ====
section
/-! DEFINITION. The shared operations: table accesses, `respond`, `raise` and the order of checks every command goes
through (00_scope.md R12; 20_memory.md R50; 30_encoding.md R85; 60_exceptions.md R186, R190, R191). A rule works on a
`Block`, so none can read or write the port (10_state.md R49). There is no return from a fault but RESET (R194). -/

namespace Sys2Proof.Machine

/-- PRES[b] and FREQ[b] (R50). -/
def FC.entry (f : FC) (b : Byte) : FreqEntry := f.table[b.toNat]'b.isLt

/-- Write of frequency entry b (R50). -/
def FC.setEntry (f : FC) (b : Byte) (e : FreqEntry) : FC :=
  { f with table := f.table.set b.toNat e b.isLt }

/-- The hardwired slot 511 (R26). -/
def dummyNode : Node := ⟨.dummy, 0, 0, Config.dummyIdx, Config.dummyIdx, false⟩

/-- Node slot i; slot 511 answers its hardwired values (R26, R50). -/
def TB.node (t : TB) (i : NodeIdx) : Node :=
  if h : i.toNat < 511 then t.nodes[i.toNat] else dummyNode

/-- Write of node slot i; slot 511 is never written (R26). -/
def TB.setNode (t : TB) (i : NodeIdx) (n : Node) : TB :=
  if h : i.toNat < 511 then { t with nodes := t.nodes.set i.toNat n h } else t

/-- C_VALID[b], C_LEN[b], C_BITS[b] (R50). -/
def CT.entry (c : CT) (b : Byte) : CodeEntry := c.table[b.toNat]'b.isLt

/-- Write of code entry b (R50). -/
def CT.setEntry (c : CT) (b : Byte) (e : CodeEntry) : CT :=
  { c with table := c.table.set b.toNat e b.isLt }

/-- What a command comes to: the block after it, and its one response (R7, R12, R73). -/
abbrev Answer := Block × Reply

/-- The answer of a faulted block to a command it does not accept: REFUSED, nothing changes (R74, R190). -/
def Block.refuse (s : Block) : Answer := (s, refusedReply s.flt.code)

/-- A fault a command meets: its kind and F_INFO (R180). -/
structure Raised where
  /-- The fault kind. -/
  kind : FaultKind
  /-- F_INFO. -/
  info : CountWord
  deriving DecidableEq, Repr

/-- `raise <Fault>(info)` by the command with opcode `op` (R186), from the block the command found: the fault registers
are written and nothing else changes. -/
def Block.raise (s : Block) (op : Byte) (f : Raised) : Answer :=
  ({ s with flt := ⟨f.kind.code, op, f.info⟩ }, faultReply f.kind.code f.info)

/-- What a command's own rule comes to: its changes and `respond(STATUS, AUX, VALUE)`, or the fault it raises (R12). -/
abbrev Effect := Except Raised Answer

/-- The end of a command whose rule ran from `s`: respond, or raise and discard its changes (R12, R186, R192). -/
def Block.finish (s : Block) (op : Byte) (e : Effect) : Answer :=
  match e with
  | .ok a => a
  | .error f => s.raise op f

/-- The order of checks for a legal command (R85, R191): the faulted block, the control state, then the command's own
rule. -/
def Block.check (s : Block) (i : Instr) (run : Block → Answer) : Answer :=
  if s.faulted && !whenFaulted i then s.refuse
  else if !precondition s i then s.raise i.opcode ⟨.protocol, 0⟩
  else run s

/-- An illegal command word (R77, R85, R187): IllegalCommand with F_CMD the word's OP and F_INFO its B, or REFUSED. -/
def Block.illegal (s : Block) (w : CmdWord) : Answer :=
  if s.faulted then s.refuse else s.raise (fieldOp w) ⟨.illegalCommand, zext32 (fieldB w)⟩

/-- The block's answer, its response word returned at the port (R73). -/
def State.respond (s : State) (a : Answer) : State := { s with toBlock := a.1, rsps := s.rsps ++ [a.2.word] }

/-- A legal command: the block's answer after the checks. -/
def command (i : Instr) (s : State) (run : Block → Answer) : Host.Outcome State Fault Refusal :=
  .next (s.respond (s.toBlock.check i run))

/-- A command whose rule is all or nothing (R192): every command but DEC. -/
def wholeCommand (i : Instr) (s : State) (rule : Block → Effect) : Host.Outcome State Fault Refusal :=
  command i s fun s => s.finish i.opcode (rule s)

end Sys2Proof.Machine
end

