-- ==== Sys2Proof/Machine/BitReader.lean ====
section
/-! DEFINITION. PUSH, PUSHERR, EOD, RBIT and the primitive NextBit (44_bitstream_reader.md). -/

namespace Sys2Proof.Machine

/-- IOError with info 1: the source (R126, R136). -/
def sourceError : Raised := ⟨.io, 1⟩

/-- The four results of `NextBit()` (R136); only `bit` carries a changed reader. -/
inductive BitRead where
  /-- `Bit(v)`, and the reader after it. -/
  | bit (v : Bool) (r : BR)
  /-- `EOS`. -/
  | eos
  /-- `BLOCKED`. -/
  | blocked
  /-- `IOERR`. -/
  | ioerr
  deriving DecidableEq, Repr

/-- The last two lines of `NextBit()` (R136): yield RBUF[RCNT - 1] and count down. Called with RCNT in 1..8. -/
def yieldBit (r : BR) : BitRead :=
  .bit (r.rbuf.getLsbD (r.rcnt.val - 1)) { r with rcnt := ⟨r.rcnt.val - 1, by omega⟩ }

/-- `NextBit()` (R136): fetch a byte when the current one is exhausted, then yield a bit. -/
def nextBit (r : BR) : BitRead :=
  if r.rcnt = 0 then
    match r.src with
    | [] => if r.srcEod then .eos else .blocked
    | .err :: _ => .ioerr
    | .byte w :: rest => yieldBit { r with src := rest, rbuf := w, rcnt := 8 }
  else yieldBit r

/-- PUSH b (R137). -/
def execPush (b : Byte) (s : State) : Host.Outcome State Fault Refusal :=
  wholeCommand (.push b) s fun s => .ok ({ s with br := { s.br with src := s.br.src ++ [.byte b] } }, okReply 0 0)

/-- PUSHERR (R138). -/
def execPusherr (s : State) : Host.Outcome State Fault Refusal :=
  wholeCommand .pusherr s fun s => .ok ({ s with br := { s.br with src := s.br.src ++ [.err] } }, okReply 0 0)

/-- EOD (R140). -/
def execEod (s : State) : Host.Outcome State Fault Refusal :=
  wholeCommand .eod s fun s => .ok ({ s with br := { s.br with srcEod := true } }, okReply 0 0)

/-- RBIT (R139). -/
def rbitRule (s : Block) : Effect :=
  match nextBit s.br with
  | .bit v r => .ok ({ s with br := r }, okReply (zext8 v) 0)
  | .eos => .ok (s, eosReply 0)
  | .blocked => .ok (s, blockedReply 0)
  | .ioerr => .error sourceError

/-- RBIT (R139). -/
def execRbit (s : State) : Host.Outcome State Fault Refusal :=
  wholeCommand .rbit s rbitRule

end Sys2Proof.Machine
end

