-- ==== Sys2Proof/Machine/BitWriter.lean ====
section
/-! DEFINITION. WBIT, WFLUSH, SNKFAIL and the primitives SinkPut and WriteBit (43_bitstream_writer.md). -/

namespace Sys2Proof.Machine

/-- IOError with info 0: the sink (R126). -/
def sinkError : Raised := ⟨.io, 0⟩

/-- `SinkPut(v)` (R126). -/
def sinkPut (w : BW) (v : Byte) : Except Raised BW :=
  if w.snkFail then .error sinkError else .ok { w with sink := w.sink ++ [v] }

/-- The buffer with the new bit below the bits already held (R127). -/
def addBit (w : BW) (v : Bool) : Byte := w.wbuf ||| (zext8 v <<< (7 - w.wcnt.toNat))

/-- `WriteBit(v)` (R127). -/
def writeBit (w : BW) (v : Bool) : Except Raised BW :=
  if w.wcnt = 7 then
    match sinkPut w (addBit w v) with
    | .ok w' => .ok { w' with wbuf := 0, wcnt := 0 }
    | .error e => .error e
  else .ok { w with wbuf := addBit w v, wcnt := w.wcnt + 1 }

/-- WBIT v (R128). -/
def wbitRule (v : Bool) (s : Block) : Effect :=
  match writeBit s.bw v with
  | .error e => .error e
  | .ok w =>
    .ok ({ s with bw := w },
      if w.sink.length > s.bw.sink.length then okReply 1 (zext40 (w.sink.getLastD 0)) else okReply 0 0)

/-- WBIT v (R128). -/
def execWbit (v : Bool) (s : State) : Host.Outcome State Fault Refusal :=
  wholeCommand (.wbit v) s (wbitRule v)

/-- WFLUSH (R129). -/
def wflushRule (s : Block) : Effect :=
  if s.bw.snkFail then .error sinkError
  else if s.bw.wcnt = 0 then .ok ({ s with bw := { s.bw with wClosed := true } }, okReply 0 0)
  else
    .ok ({ s with bw := { s.bw with sink := s.bw.sink ++ [s.bw.wbuf], wbuf := 0, wcnt := 0, wClosed := true } },
      okReply 1 (zext40 s.bw.wbuf))

/-- WFLUSH (R129). -/
def execWflush (s : State) : Host.Outcome State Fault Refusal :=
  wholeCommand .wflush s wflushRule

/-- SNKFAIL (R130). -/
def execSnkfail (s : State) : Host.Outcome State Fault Refusal :=
  wholeCommand .snkfail s fun s => .ok ({ s with bw := { s.bw with snkFail := true } }, okReply 0 0)

end Sys2Proof.Machine
end

