-- ==== Sys2Proof/Machine/CodeTable.lean ====
section
/-! DEFINITION. GENCODE, RDCLEN, RDCBIT (42_code_table.md). -/

namespace Sys2Proof.Machine

/-- A path as C_BITS: the k-th branch of the path is bit k (R29). -/
def packPath : List Bool → BitVec 255
  | [] => 0
  | v :: p => (packPath p <<< 1) ||| (BitVec.ofBool v).setWidth 255

/-- The code entry of a leaf with path p (R116): bits at and above |p| are 0 (assumption log entry 11). -/
def codeEntry (p : List Bool) : CodeEntry := ⟨true, BitVec.ofNat 8 p.length, packPath p⟩

/-- What GENCODE works on: PATH (a temporary, not state), the code table and the count (R116). -/
structure CodeGen where
  /-- PATH, newest assignment first. -/
  paths : List (NodeIdx × List Bool)
  /-- The code table. -/
  ct : CT
  /-- The number of codes assigned. -/
  count : Nat
  deriving DecidableEq, Repr

/-- PATH[i] (R116). -/
def CodeGen.path (g : CodeGen) (i : NodeIdx) : List Bool := (g.paths.lookup i).getD []

/-- `Assign(j, p)` (R116). -/
def assignCode (t : TB) (g : CodeGen) (j : NodeIdx) (p : List Bool) : CodeGen :=
  match (t.node j).kind with
  | .leaf => { g with ct := g.ct.setEntry (t.node j).sym (codeEntry p), count := g.count + 1 }
  | .internal => { g with paths := (j, p) :: g.paths }
  | .dummy | .empty => g

/-- GENCODE's visit of node i (R116): both children are handled, left with branch 0, right with branch 1. -/
def visitNode (t : TB) (g : CodeGen) (i : NodeIdx) : CodeGen :=
  let p := g.path i
  assignCode t (assignCode t g (t.node i).left (p ++ [false])) (t.node i).right (p ++ [true])

/-- GENCODE's loop `for i from 255 + n down to 256` (R116). -/
def genLoop (t : TB) : Nat → CodeGen → CodeGen
  | 0, g => g
  | n + 1, g => genLoop t n (visitNode t g (BitVec.ofNat 9 (256 + n)))

/-- The code table GENCODE leaves and the count of codes (R116), CODE_VALID not yet set. -/
def genCodes (t : TB) (c : CT) : CodeGen := genLoop t (t.root.toNat - 255) ⟨[(t.root, [])], c, 0⟩

/-- GENCODE (R116). -/
def gencodeRule (s : Block) : Effect :=
  let g := genCodes s.tb s.ct
  .ok ({ s with ct := { g.ct with codeValid := true } }, okReply 0 (BitVec.ofNat 40 g.count))

/-- GENCODE (R116). -/
def execGencode (s : State) : Host.Outcome State Fault Refusal :=
  wholeCommand .gencode s gencodeRule

/-- RDCLEN b (R118). -/
def execRdclen (b : Byte) (s : State) : Host.Outcome State Fault Refusal :=
  wholeCommand (.rdclen b) s fun s => .ok (s, okReply (zext8 (s.ct.entry b).valid) (zext40 (s.ct.entry b).len))

/-- RDCBIT b, k (R119). -/
def rdcbitReply (e : CodeEntry) (k : Byte) : Reply :=
  okReply (zext8 (decide (k < e.len) && e.bits.getLsbD k.toNat)) (zext40 (bit1 (e.valid && decide (k < e.len))))

/-- RDCBIT b, k (R119). -/
def execRdcbit (b k : Byte) (s : State) : Host.Outcome State Fault Refusal :=
  wholeCommand (.rdcbit b k) s fun s => .ok (s, rdcbitReply (s.ct.entry b) k)

/-- `CodeOf(b)` (R120): the first C_LEN bits of C_BITS, root branch first. -/
def CodeEntry.code (e : CodeEntry) : List Bool := (List.range e.len.toNat).map fun k => e.bits.getLsbD k

end Sys2Proof.Machine
end

