-- ==== Sys2Proof/Machine/Control.lean ====
section
/-! DEFINITION. NOP, RESET, STATUS, RDFAULT (47_control.md). -/

namespace Sys2Proof.Machine

/-- NOP (R170). -/
def execNop (s : State) : Host.Outcome State Fault Refusal :=
  wholeCommand .nop s fun s => .ok (s, okReply 0 0)

/-- RESET (R171): every component of R15 to its reset value. -/
def resetRule : Effect := .ok (.reset, okReply 0 0)

/-- RESET (R171). -/
def execReset (s : State) : Host.Outcome State Fault Refusal :=
  wholeCommand .reset s fun _ => resetRule

/-- STATUS (R172). -/
def execStatus (s : State) : Host.Outcome State Fault Refusal :=
  wholeCommand .status s fun s => .ok (s, okReply s.flt.code s.statusView)

/-- RDFAULT (R173). -/
def execRdfault (s : State) : Host.Outcome State Fault Refusal :=
  wholeCommand .rdfault s fun s => .ok (s, okReply s.flt.code (faultValue s.flt))

end Sys2Proof.Machine
end

