-- ==== Sys2Proof/Machine/FrequencyCounter.lean ====
section
/-! DEFINITION. CNT, LOADF, RDF, RDNSYM, RDTOT and the primitive Commit (40_frequency_counter.md). -/

namespace Sys2Proof.Machine

/-- The table with the pair (b, n) entered (R91). -/
def enterPair (f : FC) (b : Byte) (n : CountWord) : FC :=
  { f.setEntry b ⟨true, n⟩ with nsym := f.nsym + 1, total := f.total + zext40 n }

/-- `Commit(b, n)` (R91): enter one header pair; a byte value that is already a key is a malformed header. -/
def commit (f : FC) (b : Byte) (n : CountWord) : Except Raised FC :=
  if (f.entry b).pres then .error ⟨.malformedHeader, zext32 b⟩ else .ok (enterPair f b n)

/-- CNT b on the frequency counter (R92), the count not yet at its top. -/
def countByte (f : FC) (b : Byte) : FC :=
  let e := f.entry b
  { f.setEntry b ⟨true, e.freq + 1⟩ with
    nsym := if e.pres then f.nsym else f.nsym + 1
    total := f.total + 1 }

/-- CNT b (R92). -/
def cntRule (b : Byte) (s : Block) : Effect :=
  if (s.fc.entry b).freq = BitVec.ofNat 32 Config.countMax then .error ⟨.countOverflow, zext32 b⟩
  else .ok ({ s with fc := countByte s.fc b }, okReply 0 (zext40 ((countByte s.fc b).entry b).freq))

/-- CNT b (R92). -/
def execCnt (b : Byte) (s : State) : Host.Outcome State Fault Refusal :=
  wholeCommand (.cnt b) s (cntRule b)

/-- LOADF b, n (R93). -/
def loadfRule (b : Byte) (n : CountWord) (s : Block) : Effect :=
  match commit s.fc b n with
  | .ok f => .ok ({ s with fc := f }, okReply 0 0)
  | .error e => .error e

/-- LOADF b, n (R93). -/
def execLoadf (b : Byte) (n : CountWord) (s : State) : Host.Outcome State Fault Refusal :=
  wholeCommand (.loadf b n) s (loadfRule b n)

/-- RDF b (R94). -/
def execRdf (b : Byte) (s : State) : Host.Outcome State Fault Refusal :=
  wholeCommand (.rdf b) s fun s => .ok (s, okReply (zext8 (s.fc.entry b).pres) (zext40 (s.fc.entry b).freq))

/-- RDNSYM (R95). -/
def execRdnsym (s : State) : Host.Outcome State Fault Refusal :=
  wholeCommand .rdnsym s fun s => .ok (s, okReply 0 (zext40 s.fc.nsym))

/-- RDTOT (R96). -/
def execRdtot (s : State) : Host.Outcome State Fault Refusal :=
  wholeCommand .rdtot s fun s => .ok (s, okReply 0 s.fc.total)

end Sys2Proof.Machine
end

