-- ==== Sys2Proof/Machine/FileCodec.lean ====
section
/-! DEFINITION. ENC, HDRB, HDRSER and the text primitive Dec (46_filecodec.md). -/

namespace Sys2Proof.Machine

/-- `WriteBit` for each bit of a code, root branch first (R156). -/
def writeBits (w : BW) : List Bool → Except Raised BW
  | [] => .ok w
  | v :: vs =>
    match writeBit w v with
    | .ok w' => writeBits w' vs
    | .error e => .error e

/-- `(WCNT + L) div 8` (R156): the bytes ENC will hand to the sink. -/
def putCount (w : BW) (len : Byte) : Nat := (w.wcnt.toNat + len.toNat) / 8

/-- ENC b (R156): EncodingError before IOError, and both before any bit is written. -/
def encRule (b : Byte) (s : Block) : Effect :=
  let e := s.ct.entry b
  if !e.valid then .error ⟨.encoding, zext32 b⟩
  else if putCount s.bw e.len ≠ 0 ∧ s.bw.snkFail then .error sinkError
  else
    match writeBits s.bw e.code with
    | .ok w => .ok ({ s with bw := w }, okReply e.len (BitVec.ofNat 40 (putCount s.bw e.len)))
    | .error f => .error f

/-- ENC b (R156). -/
def execEnc (b : Byte) (s : State) : Host.Outcome State Fault Refusal :=
  wholeCommand (.enc b) s (encRule b)

/-- The text byte is a digit (R81, R158). -/
def isDigit (c : Byte) : Bool := decide (0x30#8 ≤ c) && decide (c ≤ 0x39#8)

/-- The value of a digit (R158). -/
def digitVal (c : Byte) : Nat := c.toNat - 0x30

/-- The parser's answer to a text byte the grammar does not allow (R158). -/
def badText (c : Byte) : Raised := ⟨.malformedHeader, zext32 c⟩

/-- A completed pair (R158): Commit, then the parser's next state. -/
def commitPair (f : FC) (h : HC) (next : HState) : Except Raised (FC × HC) :=
  match commit f h.hb h.hn with
  | .ok f' => .ok (f', { h with hstate := next })
  | .error e => .error e

/-- The header parser on one text byte (R158, R159). The products are exact (R13). In H_DONE the command's precondition
has already raised ProtocolError. -/
def parseByte (c : Byte) (f : FC) (h : HC) : Except Raised (FC × HC) :=
  match h.hstate with
  | .line0 =>
    if isDigit c then .ok (f, { h with hb := BitVec.ofNat 8 (digitVal c), hstate := .bdig })
    else if c = Config.lineTerm then .ok (f, { h with hstate := .done })
    else .error (badText c)
  | .pair =>
    if isDigit c then .ok (f, { h with hb := BitVec.ofNat 8 (digitVal c), hstate := .bdig })
    else .error (badText c)
  | .bdig =>
    if isDigit c then
      if h.hb.toNat * 10 + digitVal c ≤ Config.byteMax then
        .ok (f, { h with hb := BitVec.ofNat 8 (h.hb.toNat * 10 + digitVal c) })
      else .error (badText c)
    else if c = Config.colon then .ok (f, { h with hn := 0, hstate := .cstart })
    else .error (badText c)
  | .cstart =>
    if isDigit c then .ok (f, { h with hn := BitVec.ofNat 32 (digitVal c), hstate := .cdig })
    else .error (badText c)
  | .cdig =>
    if isDigit c then
      if h.hn.toNat * 10 + digitVal c ≤ Config.countMax then
        .ok (f, { h with hn := BitVec.ofNat 32 (h.hn.toNat * 10 + digitVal c) })
      else .error (badText c)
    else if c = Config.comma then commitPair f h .pair
    else if c = Config.lineTerm then commitPair f h .done
    else .error (badText c)
  | .done => .error (badText c)

/-- HDRB c (R158). -/
def hdrbRule (c : Byte) (s : Block) : Effect :=
  match parseByte c s.fc s.hc with
  | .ok (f, h) => .ok ({ s with fc := f, hc := h }, okReply (zext8 (h.hstate == .done)) 0)
  | .error e => .error e

/-- HDRB c (R158). -/
def execHdrb (c : Byte) (s : State) : Host.Outcome State Fault Refusal :=
  wholeCommand (.hdrb c) s (hdrbRule c)

/-- The text byte of a digit (R160). -/
def digitChar (d : Nat) : Byte := Config.digitZero + BitVec.ofNat 8 d

/-- Decimal text of at most `fuel` digits (R160). -/
def decDigits : Nat → Nat → List Byte
  | 0, _ => []
  | fuel + 1, v => if v < 10 then [digitChar v] else decDigits fuel (v / 10) ++ [digitChar (v % 10)]

/-- `Dec(v)` (R160): most significant digit first, no leading zeros. Ten digits hold every count. -/
def decText (v : Nat) : List Byte := decDigits 10 v

/-- The text of one pair, `byte:count` (R161). -/
def pairText (b : Nat) (n : CountWord) : List Byte := decText b ++ Config.colon :: decText n.toNat

/-- The pairs from byte value `b` on, a comma before each but the first (R161). -/
def pairsText : List FreqEntry → Nat → Bool → List Byte
  | [], _, _ => []
  | e :: es, b, first =>
    if e.pres then
      (if first then [] else [Config.comma]) ++ pairText b e.freq ++ pairsText es (b + 1) false
    else pairsText es (b + 1) first

/-- The header line of a frequency table (R81, R161). -/
def headerText (f : FC) : List Byte := pairsText f.table.toList 0 true ++ [Config.lineTerm]

/-- HDRSER (R161). -/
def hdrserRule (s : Block) : Effect :=
  if s.bw.snkFail then .error sinkError
  else
    let out := headerText s.fc
    .ok ({ s with bw := { s.bw with sink := s.bw.sink ++ out } }, okReply 0 (BitVec.ofNat 40 out.length))

/-- HDRSER (R161). -/
def execHdrser (s : State) : Host.Outcome State Fault Refusal :=
  wholeCommand .hdrser s hdrserRule

end Sys2Proof.Machine
end

