-- ==== Sys2Proof/Machine/TreeBuilder.lean ====
section
/-! DEFINITION. BUILD with the priority queue, RDNODE, RDNFRQ, RDROOT (41_tree_builder.md). The loops are structural
recursions whose fuel is the size of the queue, which every pass makes smaller (assumption log entry 10). -/

namespace Sys2Proof.Machine

/-- `Size()` (R102): the number of active slots. -/
def TB.size (t : TB) : Nat := t.nodes.toList.countP Node.active

/-- The scan of R102 over the slots from index `i` on: an active slot replaces the best so far when its frequency is
strictly smaller, so the first of equal frequencies stays, which is the order of R101. -/
def minScan : List Node → Nat → Option (Nat × SumWord) → Option (Nat × SumWord)
  | [], _, best => best
  | n :: ns, i, best =>
    let better := match best with
      | none => true
      | some (_, f) => decide (n.freq < f)
    minScan ns (i + 1) (if n.active && better then some (i, n.freq) else best)

/-- The node with the least key (R101, R102); `none` when the queue is empty. -/
def TB.minActive (t : TB) : Option NodeIdx :=
  (minScan t.nodes.toList 0 none).map fun p => BitVec.ofNat 9 p.1

/-- ACTIVE[i] <- v (R102). -/
def TB.setActive (t : TB) (i : NodeIdx) (v : Bool) : TB := t.setNode i { t.node i with active := v }

/-- `ExtractMin()` (R102): the node of least key, and the queue without it; `none` when the queue is empty. -/
def TB.extractMin (t : TB) : Option (NodeIdx × TB) :=
  match t.minActive with
  | none => none
  | some x => some (x, t.setActive x false)

/-- The leaf of byte value b, inserted in the queue (R103). -/
def leafNode (b : Byte) (freq : CountWord) : Node :=
  ⟨.leaf, b, zext40 freq, Config.dummyIdx, Config.dummyIdx, true⟩

/-- The internal node over x and y, inserted in the queue (R103): the first extracted is the left child. -/
def internalNode (t : TB) (x y : NodeIdx) : Node :=
  ⟨.internal, 0, (t.node x).freq + (t.node y).freq, x, y, true⟩

/-- The first loop of BUILD (R103): one leaf per key, for the byte values from `b` on. -/
def insertLeaves : List FreqEntry → Nat → TB → TB
  | [], _, t => t
  | e :: es, b, t =>
    insertLeaves es (b + 1)
      (if e.pres then t.setNode (BitVec.ofNat 9 b) (leafNode (BitVec.ofNat 8 b) e.freq) else t)

/-- One pass of BUILD's merge loop (R103): the two least nodes go under node 256 + k. -/
def mergeOnce (k : Nat) (t : TB) : TB :=
  match t.extractMin with
  | none => t
  | some (x, t1) =>
    match t1.extractMin with
    | none => t1
    | some (y, t2) => t2.setNode (BitVec.ofNat 9 (Config.intBase + k)) (internalNode t2 x y)

/-- BUILD's merge loop (R103): `while Size() > 1`, at most `fuel` passes. Answers k and the arena. -/
def mergeLoop : Nat → Nat → TB → Nat × TB
  | 0, k, t => (k, t)
  | fuel + 1, k, t => if t.size > 1 then mergeLoop fuel (k + 1) (mergeOnce k t) else (k, t)

/-- The one-symbol tree (R103, R105): the only leaf goes under node 256, with the dummy node on the right. -/
def mergeSingle (t : TB) : Nat × TB :=
  match t.extractMin with
  | none => (0, t)
  | some (x, t1) => (1, t1.setNode (BitVec.ofNat 9 Config.intBase) (internalNode t1 x Config.dummyIdx))

/-- The arena after both loops of BUILD, and k (R103). -/
def grow (f : FC) (t : TB) : Nat × TB :=
  let t1 := insertLeaves f.table.toList 0 t
  if f.nsym = 1 then mergeSingle t1 else mergeLoop t1.size 0 t1

/-- ROOT, NINT and TREE_VALID at the end of BUILD (R103). -/
def buildTree (f : FC) (t : TB) : TB :=
  let p := grow f t
  { p.2 with root := BitVec.ofNat 9 (255 + p.1), nint := BitVec.ofNat 8 p.1, treeValid := true }

/-- BUILD (R103, R105, R106). -/
def buildRule (s : Block) : Effect :=
  if s.fc.nsym = 0 then .error ⟨.emptyInput, 0⟩
  else
    let t := buildTree s.fc s.tb
    .ok ({ s with tb := t }, okReply 0 (rootValue t.nint t.root))

/-- BUILD (R103). -/
def execBuild (s : State) : Host.Outcome State Fault Refusal :=
  wholeCommand .build s buildRule

/-- RDNODE i (R108). -/
def execRdnode (i : NodeIdx) (s : State) : Host.Outcome State Fault Refusal :=
  wholeCommand (.rdnode i) s fun s => .ok (s, okReply (s.tb.node i).sym (nodeValue (s.tb.node i)))

/-- RDNFRQ i (R109). -/
def execRdnfrq (i : NodeIdx) (s : State) : Host.Outcome State Fault Refusal :=
  wholeCommand (.rdnfrq i) s fun s => .ok (s, okReply 0 (s.tb.node i).freq)

/-- RDROOT (R110). -/
def execRdroot (s : State) : Host.Outcome State Fault Refusal :=
  wholeCommand .rdroot s fun s => .ok (s, okReply (zext8 s.tb.treeValid) (rootValue s.tb.nint s.tb.root))

end Sys2Proof.Machine
end

