-- ==== Sys2Proof/Machine/TreeWalker.lean ====
section
/-! DEFINITION. DSTART, DSTEP, DEC (45_tree_walker.md). -/

namespace Sys2Proof.Machine

/-- The walker DSTART leaves (R146). -/
def startWalk (s : Block) : TW :=
  { s.tw with
    cur := s.tb.root, emitted := 0, expected := s.fc.total, short := false, midsym := false
    wstate := if s.fc.total = 0 then .done else .walk }

/-- DSTART (R146). -/
def dstartRule (s : Block) : Effect :=
  .ok ({ s with tw := startWalk s }, okReply 0 (startWalk s).expected)

/-- DSTART (R146). -/
def execDstart (s : State) : Host.Outcome State Fault Refusal :=
  wholeCommand .dstart s dstartRule

/-- The child the bit leads to: left for 0, right for 1 (R147). -/
def childOf (t : TB) (i : NodeIdx) (v : Bool) : NodeIdx := if v then (t.node i).right else (t.node i).left

/-- The walker after a leaf with byte value b is reached (R147, R148). -/
def emitByte (w : TW) (root : NodeIdx) (b : Byte) : TW :=
  { w with
    dout := w.dout ++ [b], emitted := w.emitted + 1, cur := root
    wstate := if w.emitted + 1 = w.expected then .done else w.wstate }

/-- The walker after the reader signals end of stream (R151). -/
def endShort (w : TW) (root : NodeIdx) : TW :=
  { w with short := true, midsym := w.cur != root, wstate := .done }

/-- A walker step on the bit v, with r the reader after it (R147, R149). -/
def takeBranch (s : Block) (v : Bool) (r : BR) : Effect :=
  let nxt := childOf s.tb s.tw.cur v
  match (s.tb.node nxt).kind with
  | .dummy => .error ⟨.badPath, zext32 s.tw.cur⟩
  | .leaf =>
    let b := (s.tb.node nxt).sym
    .ok ({ s with br := r, tw := emitByte s.tw s.tb.root b }, okReply b (walkValue s.tb.root true))
  | .internal | .empty =>
    .ok ({ s with br := r, tw := { s.tw with cur := nxt } }, okReply 0 (walkValue nxt false))

/-- DSTEP (R147, R148, R151). -/
def dstepRule (s : Block) : Effect :=
  if s.tw.wstate = .done then .ok (s, doneReply (walkValue s.tw.cur false))
  else
    match nextBit s.br with
    | .blocked => .ok (s, blockedReply (walkValue s.tw.cur false))
    | .ioerr => .error sourceError
    | .eos => .ok ({ s with tw := endShort s.tw s.tb.root }, eosReply (walkValue s.tw.cur false))
    | .bit v r => takeBranch s v r

/-- DSTEP (R147). -/
def execDstep (s : State) : Host.Outcome State Fault Refusal :=
  wholeCommand .dstep s dstepRule

/-- The bits the reader can still be asked for without a new PUSH, at most: the bound of DEC's loop, every pass of which
consumes one (R150; assumption log entry 10). -/
def bitsLeft (r : BR) : Nat := 8 * r.src.length + r.rcnt.val

/-- A silent descent: the response DEC goes on after (R150). -/
def Reply.silent (r : Reply) : Bool := r.status == 0x00 && !r.value.getLsbD 0

/-- The state before DEC's last pass: DSTEP's silent descents, at most `fuel` of them (R150). -/
def descend : Nat → Block → Block
  | 0, s => s
  | fuel + 1, s =>
    match dstepRule s with
    | .ok (t, r) => if r.silent then descend fuel t else s
    | .error _ => s

/-- DEC from a state its checks have passed (R150, R192): the silent descents are kept; the last pass is DSTEP's, with
F_CMD the OP of DEC. -/
def decRun (s : Block) : Answer :=
  let p := descend (bitsLeft s.br) s
  p.finish (Instr.opcode .dec) (dstepRule p)

/-- DEC (R150). -/
def execDec (s : State) : Host.Outcome State Fault Refusal :=
  command .dec s decRun

end Sys2Proof.Machine
end

