-- ==== Sys2Proof/Machine/Dispatch.lean ====
section
/-! DEFINITION. One arm per command of 30_encoding.md R76. -/

namespace Sys2Proof.Machine

/-- The meaning of a legal command word in a state, its checks included (R85). -/
def exec (i : Instr) (s : State) : Host.Outcome State Fault Refusal :=
  match i with
  | .nop => Sys2Proof.Machine.execNop s
  | .reset => Sys2Proof.Machine.execReset s
  | .status => Sys2Proof.Machine.execStatus s
  | .rdfault => Sys2Proof.Machine.execRdfault s
  | .cnt b => Sys2Proof.Machine.execCnt b s
  | .loadf b n => Sys2Proof.Machine.execLoadf b n s
  | .rdf b => Sys2Proof.Machine.execRdf b s
  | .rdnsym => Sys2Proof.Machine.execRdnsym s
  | .rdtot => Sys2Proof.Machine.execRdtot s
  | .hdrb c => Sys2Proof.Machine.execHdrb c s
  | .hdrser => Sys2Proof.Machine.execHdrser s
  | .build => Sys2Proof.Machine.execBuild s
  | .rdnode j => Sys2Proof.Machine.execRdnode j s
  | .rdnfrq j => Sys2Proof.Machine.execRdnfrq j s
  | .rdroot => Sys2Proof.Machine.execRdroot s
  | .gencode => Sys2Proof.Machine.execGencode s
  | .rdclen b => Sys2Proof.Machine.execRdclen b s
  | .rdcbit b k => Sys2Proof.Machine.execRdcbit b k s
  | .wbit v => Sys2Proof.Machine.execWbit v s
  | .wflush => Sys2Proof.Machine.execWflush s
  | .enc b => Sys2Proof.Machine.execEnc b s
  | .snkfail => Sys2Proof.Machine.execSnkfail s
  | .push b => Sys2Proof.Machine.execPush b s
  | .pusherr => Sys2Proof.Machine.execPusherr s
  | .eod => Sys2Proof.Machine.execEod s
  | .rbit => Sys2Proof.Machine.execRbit s
  | .dstart => Sys2Proof.Machine.execDstart s
  | .dstep => Sys2Proof.Machine.execDstep s
  | .dec => Sys2Proof.Machine.execDec s

end Sys2Proof.Machine
end

