-- ==== Sys2Proof/Machine/Step.lean ====
section
/-! DEFINITION. One step of HFC (00_scope.md R7; 30_encoding.md R85). `Block.step` is the block's own step: the command word
is its input and the response its output, neither is state (10_state.md R49). `step` feeds it from the port: HFC has no
program counter and fetches nothing (R16), so the port takes the place of the fetch (assumption log entries 1, 3, 4). -/

namespace Sys2Proof.Machine

/-- The command word taken from the port, executed (R85). -/
def runWord (w : CmdWord) (s : State) : Host.Outcome State Fault Refusal :=
  match decode w with
  | .ok i => exec i s
  | .error _ => .next (s.respond (s.toBlock.illegal w))

/-- The block's step on a command word, with the response words it returns (R7, R49, R73): the word executed with an idle
port. -/
def Block.step (w : CmdWord) (b : Block) : Host.Outcome (Block × List RspWord) Fault Refusal :=
  match runWord w ⟨b, [], []⟩ with
  | .next t => .next (t.toBlock, t.rsps)
  | .fault r => .fault r
  | .refused r => .refused r

/-- One step: the block's on the next word of the port; "No step happens without a command" (R7). -/
def step (s : State) : Host.Outcome State Fault Refusal :=
  match s.cmds with
  | [] => .fault .noCommand
  | w :: rest =>
    match Block.step w s.toBlock with
    | .next (b, rs) => .next ⟨b, rest, s.rsps ++ rs⟩
    | .fault r => .fault r
    | .refused r => .refused r

/-- The host presents a command word, the next to be taken (assumption log entries 4 and 5). -/
def State.withFetchWord (s : State) (nbits w : Nat) : State := { s with cmds := tableWord nbits w :: s.cmds }

end Sys2Proof.Machine
end

