-- ==== Sys2Proof/Safety.lean ====
section
/-! DEFINITION. The terms the claims are stated in: the invariants of 10_state.md R48, the bit strings the writer has
accepted and the reader has ahead, a path in the tree, the key order of the queue, and the host's two procedures
(46_filecodec.md R164, R165). Nothing here is read by the machine. -/

namespace Sys2Proof.Machine

/-- The number of b with PRES[b] == 1 (R20). -/
def FC.keyCount (f : FC) : Nat := f.table.toList.countP FreqEntry.pres

/-- The exact sum of all FREQ[b] (R90). -/
def FC.freqSum (f : FC) : Nat := (f.table.toList.map fun e => e.freq.toNat).sum

/-- R48.1, R90: NSYM counts the keys, TOTAL sums the counts, an absent key has count 0. -/
structure FC.Ok (f : FC) : Prop where
  /-- NSYM is the number of keys. -/
  nsym : f.nsym.toNat = f.keyCount
  /-- TOTAL is the sum of the counts. -/
  total : f.total.toNat = f.freqSum
  /-- PRES[b] == 0 implies FREQ[b] == 0. -/
  absent : ∀ b, (f.entry b).pres = false → (f.entry b).freq = 0

/-- The node index of the leaf of byte value b (R24). -/
def leafIdx (b : Byte) : NodeIdx := b.setWidth 9

/-- The node index of the (k+1)-th internal node (R24). -/
def intIdx (k : Nat) : NodeIdx := BitVec.ofNat 9 (Config.intBase + k)

/-- Node i is in the tree as an internal node. -/
def TB.internal (t : TB) (i : NodeIdx) : Prop := (t.node i).kind = .internal

/-- `key(i) < key(j)` (R101). -/
def TB.keyLt (t : TB) (i j : NodeIdx) : Prop :=
  (t.node i).freq < (t.node j).freq ∨ ((t.node i).freq = (t.node j).freq ∧ i < j)

/-- Node j waits for BUILD's merge k, the one that makes node 256 + k: it is in the tree by then, and no earlier merge took
it (R101, R103). -/
def TB.Waits (t : TB) (k : Nat) (j : NodeIdx) : Prop :=
  (t.node j).kind ≠ .empty ∧ j < intIdx k ∧ ∀ m v, m < k → childOf t (intIdx m) v ≠ j

/-- Merge k took the two waiting nodes of least key, the least as the left child (R103). -/
structure TB.MergedLeast (t : TB) (k : Nat) : Prop where
  /-- The left child was waiting. -/
  left : t.Waits k (t.node (intIdx k)).left
  /-- The right child was waiting. -/
  right : t.Waits k (t.node (intIdx k)).right
  /-- The left child's key is the less of the two. -/
  order : t.keyLt (t.node (intIdx k)).left (t.node (intIdx k)).right
  /-- Any other waiting node's key is greater than both. -/
  least : ∀ j, t.Waits k j → j ≠ (t.node (intIdx k)).left → j ≠ (t.node (intIdx k)).right →
    t.keyLt (t.node (intIdx k)).right j

/-- The tree BUILD leaves (R103, R104, R48.3), for the frequency table f. -/
structure TB.Built (f : FC) (t : TB) : Prop where
  /-- There is a key, so there is a tree (R106). -/
  someKey : f.nsym ≠ 0
  /-- NINT == max(NSYM - 1, 1) (R28). -/
  nint : t.nint.toNat = max (f.nsym.toNat - 1) 1
  /-- ROOT == 255 + NINT (R28). -/
  root : t.root.toNat = 255 + t.nint.toNat
  /-- Slot b is the leaf of b for a key b, and is as at reset for any other b (R24, R25). -/
  leaves : ∀ b, t.node (leafIdx b) =
    if (f.entry b).pres then ⟨.leaf, b, (f.entry b).freq.setWidth 40, 511, 511, false⟩ else .reset
  /-- Slot 256 + k is an internal node exactly for k < NINT, and as at reset for the others (R24). -/
  internals : ∀ k, k < 255 →
    if k < t.nint.toNat then (t.node (intIdx k)).kind = .internal ∧ (t.node (intIdx k)).sym = 0
    else t.node (intIdx k) = .reset
  /-- Both children of an internal node have a smaller index, or are 511, and are in the tree (R104 b). -/
  children : ∀ i v, t.internal i →
    (childOf t i v = 511 ∨ childOf t i v < i) ∧ (t.node (childOf t i v)).kind ≠ .empty
  /-- Every node in the tree but ROOT and 511 is the child of exactly one internal node, on one side (R104 c). -/
  parent : ∀ i, (t.node i).kind ≠ .empty → i ≠ t.root → i ≠ 511 →
    ∃! p : NodeIdx × Bool, t.internal p.1 ∧ childOf t p.1 p.2 = i
  /-- The root is no node's child. -/
  rootTop : ∀ i v, t.internal i → childOf t i v ≠ t.root
  /-- The dummy is a child in the one-symbol tree only (R25, R105). -/
  dummy : ∀ i v, t.internal i → childOf t i v = 511 → f.nsym = 1
  /-- The frequency of an internal node is the sum of its children's (R25), exactly. -/
  sums : ∀ i, t.internal i →
    (t.node i).freq.toNat = (t.node (t.node i).left).freq.toNat + (t.node (t.node i).right).freq.toNat
  /-- N_FREQ[ROOT] == TOTAL (R104 d). -/
  rootFreq : (t.node t.root).freq = f.total
  /-- Only ROOT is in the queue (R27). -/
  active : ∀ i, (t.node i).active = true ↔ i = t.root
  /-- With two keys or more, each internal node joins the two least nodes (R101, R103). -/
  merges : f.nsym ≠ 1 → ∀ k, k < t.nint.toNat → t.MergedLeast k

/-- R48.2, R48.3: before BUILD the builder is as at reset, after it the tree is built. -/
def TB.Ok (f : FC) (t : TB) : Prop := if t.treeValid then t.Built f else t = .reset

/-- Where the branches p lead from node i (R79); `none` when a branch leaves the internal nodes. -/
def TB.follow (t : TB) : NodeIdx → List Bool → Option NodeIdx
  | i, [] => some i
  | i, v :: p => if (t.node i).kind = .internal then t.follow (childOf t i v) p else none

/-- R48.4, R117: with a code table, each key has a code of 1 to 255 bits that is its path, and no other byte value has
one; before GENCODE the table is as at reset. -/
structure CT.Coded (f : FC) (t : TB) (c : CT) : Prop where
  /-- The tree is there. -/
  tree : t.treeValid = true
  /-- A key's entry holds its path. -/
  keys : ∀ b, (f.entry b).pres = true →
    (c.entry b).valid = true ∧ (c.entry b).len ≠ 0 ∧ t.follow t.root (c.entry b).code = some (leafIdx b)
  /-- Any other entry is as at reset. -/
  others : ∀ b, (f.entry b).pres = false → c.entry b = .reset
  /-- Bits at and above the length are 0 (R29). -/
  above : ∀ b k, (c.entry b).len.toNat ≤ k → (c.entry b).bits.getLsbD k = false

/-- R48.4 with R29's reset values. -/
def CT.Ok (f : FC) (t : TB) (c : CT) : Prop := if c.codeValid then c.Coded f t else c = .reset

/-- No code of the table is a prefix of another (R117 c). -/
def CT.NoCodeBeginsAnother (c : CT) : Prop :=
  ∀ b d, (c.entry b).valid = true → (c.entry d).valid = true → (c.entry b).code <+: (c.entry d).code → b = d

/-- R48.5, R32: WBUF[7-WCNT:0] == 0. -/
def BW.Ok (w : BW) : Prop := ∀ k, k < 8 - w.wcnt.toNat → w.wbuf.getLsbD k = false

/-- R48.7, R40, R146: the walker's counts and its control state. -/
structure TW.Ok (f : FC) (t : TB) (w : TW) : Prop where
  /-- EMITTED == |DOUT|. -/
  count : w.emitted.toNat = w.dout.length
  /-- EMITTED <= EXPECTED. -/
  bound : w.emitted ≤ w.expected
  /-- No walk has been started: the walker is as at reset. -/
  idle : w.wstate = .idle → w = .reset
  /-- A walk has been started: there is a tree and EXPECTED is TOTAL. -/
  started : w.wstate ≠ .idle → t.treeValid = true ∧ w.expected = f.total
  /-- A walk is in progress: the count is not reached and CUR is an internal node. -/
  walking : w.wstate = .walk → w.emitted < w.expected ∧ (t.node w.cur).kind = .internal

/-- The invariants of R48 that every step keeps. -/
structure Block.Inv (s : Block) : Prop where
  /-- R48.1. -/
  fc : s.fc.Ok
  /-- R48.2, R48.3. -/
  tb : s.tb.Ok s.fc
  /-- R48.4. -/
  ct : s.ct.Ok s.fc s.tb
  /-- R48.5. -/
  bw : s.bw.Ok
  /-- R48.7. -/
  tw : s.tw.Ok s.fc s.tb
  /-- F_CODE is 0 to 8 (R180). -/
  flt : s.flt.code ≤ 8

/-- The bits of a byte in stream order: bit 7 first (R10, R52). -/
def byteBits (b : Byte) : List Bool := (List.range 8).map fun k => b.getLsbD (7 - k)

/-- The bits the writer has accepted, in order: the bytes of SINK, then the WCNT bits it holds (R131). -/
def BW.bits (w : BW) : List Bool := w.sink.flatMap byteBits ++ (byteBits w.wbuf).take w.wcnt.toNat

/-- The bits of the tokens the reader can fetch: those before the first `Err` (R136, R138). -/
def tokenBits : List Token → List Bool
  | [] => []
  | .byte w :: ts => byteBits w ++ tokenBits ts
  | .err :: _ => []

/-- The bits the reader yields next, in order: the RCNT unread bits of RBUF, then the tokens' (R141). -/
def BR.ahead (r : BR) : List Bool := (byteBits r.rbuf).drop (8 - r.rcnt.val) ++ tokenBits r.src

/-- `NextBit()` takes the reader from r to r' and returns `Bit(v)`: the whole of its effect (R136). -/
structure BR.Yields (r : BR) (v : Bool) (r' : BR) : Prop where
  /-- The bit is the next one ahead. -/
  bits : r.ahead = v :: r'.ahead
  /-- SRC_EOD is not touched. -/
  eod : r'.srcEod = r.srcEod
  /-- An unread bit of RBUF is taken where there is one: no byte is fetched early. -/
  held : r.rcnt ≠ 0 → r'.src = r.src ∧ r'.rbuf = r.rbuf ∧ r'.rcnt.val + 1 = r.rcnt.val
  /-- Else one byte is fetched, and seven of its bits are left. -/
  fetched : r.rcnt = 0 → r'.rcnt.val = 7 ∧ r.src = .byte r'.rbuf :: r'.src

/-- Reading the bits p, one after another, takes the reader from r to r'. -/
def BR.YieldsAll : BR → List Bool → BR → Prop
  | r, [], r' => r' = r
  | r, v :: p, r' => ∃ m, r.Yields v m ∧ m.YieldsAll p r'

/-- The host issues the commands, one after another, and the block answers each (R7, R60). -/
def issue (is : List Instr) (s : State) : Host.Outcome State Fault Refusal :=
  Host.Core.run core is.length { s with cmds := is.map encode }

/-- The encode procedure (R164). -/
def encodeProcedure (input : List Byte) : List Instr :=
  [.reset] ++ input.map .cnt ++ [.build, .gencode, .hdrser] ++ input.map .enc ++ [.wflush]

/-- The decode procedure (R165) on a file split into header and body, with n DEC commands. -/
def decodeProcedure (header body : List Byte) (n : Nat) : List Instr :=
  [.reset] ++ header.map .hdrb ++ [.build, .dstart] ++ body.map .push ++ [.eod] ++ List.replicate n .dec

/-- The header of an encoded file: up to and including the first line terminator (R64, R215). -/
def headerPart (file : List Byte) : List Byte := file.takeWhile (· != Config.lineTerm) ++ [Config.lineTerm]

/-- The body of an encoded file: what follows the first line terminator (R64, R215). -/
def bodyPart (file : List Byte) : List Byte := (file.dropWhile (· != Config.lineTerm)).drop 1

/-- A complete encode output (R196, R212). -/
def Block.encodeComplete (s : Block) : Prop := s.bw.wClosed = true ∧ s.faulted = false

/-- A complete decode output (R196, R212). -/
def Block.decodeComplete (s : Block) : Prop :=
  s.tw.wstate = .done ∧ s.tw.short = false ∧ s.faulted = false

end Sys2Proof.Machine
end

