-- ==== Sys2Proof/Certificates/Slice0/Obligations.lean ====
section
/-! DEFINITION. The statements for the provers, each from a numbered rule of spec/ or derived from several. An effect is
stated as the record update that makes it, so every unit not named in the update is unchanged: that is the frame.
`cmds` and `rsps` are the model's own record of the command words not yet taken and of the response words returned
(assumption log entries 1 and 2): "responds with word w" reads `rsps := s.rsps ++ [w]`. -/

open Sys2Proof Sys2Proof.Machine

/-! ## Encoding -/

/-- R70, R71, R76: no operand bit is lost in the word of any command. -/
def Obligations.DecodeInvertsEncode : Prop :=
  ∀ i : Instr, decode (encode i) = .ok i

/-- R76, R78: each legal word is the word of one command only. -/
def Obligations.EncodeInvertsDecode : Prop :=
  ∀ (w : CmdWord) (i : Instr), decode w = .ok i → encode i = w

/-- R77: a word is decoded exactly when its OP is one of the 29 and its reserved bits are 0. -/
def Obligations.DecodeAcceptsExactlyTheLegalWords : Prop :=
  ∀ w : CmdWord, (∃ i, decode w = .ok i) ↔ (rawOf w).legal = true

/-- R76: a word is decoded exactly when it selects a row of opcode_table.json, and no word selects two rows. -/
def Obligations.OpcodeTableDecidesLegality : Prop :=
  (∀ w : CmdWord, (∃ i, decode w = .ok i) ↔ ∃ r ∈ opcodeTable, r.selects w = true) ∧
  (∀ (w : CmdWord) (r r' : OpRow), r ∈ opcodeTable → r' ∈ opcodeTable →
    r.selects w = true → r'.selects w = true → r = r')

/-- Words written out from R70, R71, R76 and the examples of the command rules, one or more of each family. -/
def Obligations.SpecWordsDecode : Prop :=
  decode 0x000000000000 = .ok .nop ∧ decode 0x020000000000 = .ok .status ∧
  decode 0x106100000000 = .ok (.cnt 0x61) ∧ decode 0x116100000005 = .ok (.loadf 0x61 5) ∧
  decode 0x186100000000 = .ok (.hdrb 0x61) ∧ decode 0x190000000000 = .ok .hdrser ∧
  decode 0x200000000000 = .ok .build ∧ decode 0x210000000103 = .ok (.rdnode 259) ∧
  decode 0x300000000000 = .ok .gencode ∧ decode 0x326200000002 = .ok (.rdcbit 0x62 2) ∧
  decode 0x400100000000 = .ok (.wbit true) ∧ decode 0x426100000000 = .ok (.enc 0x61) ∧
  decode 0x506E00000000 = .ok (.push 0x6E) ∧ decode 0x620000000000 = .ok .dec ∧
  decode 0x040000000000 = .error .undefinedOp ∧ decode 0x400200000000 = .error .reservedBits

/-! ## The step, the response, the faults -/

/-- R85 with the model's command port (assumption log entries 1 and 4): a step takes the next word, and when it decodes
to a command it is that command's meaning. -/
def Obligations.StepRunsTheDecodedCommand : Prop :=
  ∀ (s : State) (w : CmdWord) (rest : List CmdWord) (i : Instr),
    s.cmds = w :: rest → decode w = .ok i → step s = exec i { s with cmds := rest }

/-- R7, R15, R49, R73: the block's step is a function of the command word, an input, and of R15's components; it answers a
block and one response word, and the port's two ends (assumption log entries 1 and 2) enter it nowhere. -/
def Obligations.StepIsTheBlockStep : Prop :=
  ∀ (w : CmdWord) (b : Block), ∃ (b' : Block) (r : RspWord), Block.step w b = .next (b', [r]) ∧
    ∀ (s : State) (rest : List CmdWord), s.toBlock = b → s.cmds = w :: rest →
      step s = .next ⟨b', rest, s.rsps ++ [r]⟩

/-- R7 with the model's command port (assumption log entries 1 and 3): the model stops exactly where no command stands
at the port, and never otherwise. -/
def Obligations.StepStopsOnlyWithoutACommand : Prop :=
  ∀ s : State, (s.cmds = [] → step s = .fault .noCommand) ∧ (s.cmds ≠ [] → ∃ t, step s = .next t)

/-- R77, R85, R187: an illegal word raises IllegalCommand with F_CMD its OP and F_INFO its B, and is REFUSED when the
block is already faulted; nothing else changes. -/
def Obligations.IllegalWordRaisesIllegalCommand : Prop :=
  ∀ (s : State) (w : CmdWord) (rest : List CmdWord), s.cmds = w :: rest → (rawOf w).legal = false →
    (s.faulted = false → step s = .next { s with
      cmds := rest
      flt := ⟨6, w.extractLsb' 40 8, (w.extractLsb' 32 8).setWidth 32⟩
      rsps := s.rsps ++ [(Reply.mk 0x86 0 ((w.extractLsb' 32 8).setWidth 40)).word] }) ∧
    (s.faulted = true → step s = .next { s with
      cmds := rest
      rsps := s.rsps ++ [(Reply.mk 0xFF s.flt.code 0).word] })

/-- R73: where the parts of a response stand in its word. -/
def Obligations.ResponseWordLayout : Prop :=
  ∀ r : Reply, r.word.extractLsb' 56 8 = r.status ∧ r.word.extractLsb' 48 8 = r.aux ∧
    r.word.extractLsb' 40 8 = 0 ∧ r.word.extractLsb' 0 40 = r.value

/-- R12, R73, R74: every command answers exactly one response word, with a STATUS of R74's table and 0 in bits 47:40, and
takes no further command. -/
def Obligations.EveryCommandRespondsExactlyOnce : Prop :=
  ∀ (i : Instr) (s t : State), exec i s = .next t →
    t.cmds = s.cmds ∧ ∃ r : RspWord, t.rsps = s.rsps ++ [r] ∧ r.extractLsb' 40 8 = 0 ∧
      r.extractLsb' 56 8 ∈ [0x00#8, 0x01#8, 0x02#8, 0x03#8, 0x81#8, 0x82#8, 0x83#8, 0x84#8, 0x85#8, 0x86#8, 0x87#8,
        0x88#8, 0xFF#8]

/-- R190: a faulted block answers REFUSED, AUX the fault code and VALUE 0, to every word, legal or not, but those of the
twelve commands of R174, and changes nothing; a legal word of the twelve it executes. -/
def Obligations.FaultedBlockRefuses : Prop :=
  ∀ (s : State) (w : CmdWord) (rest : List CmdWord), s.flt.code ≠ 0 → s.cmds = w :: rest →
    let twelve : List Byte := [0x00, 0x01, 0x02, 0x03, 0x12, 0x13, 0x14, 0x21, 0x22, 0x23, 0x31, 0x32]
    let accepted := w.extractLsb' 40 8 ∈ twelve ∧ (rawOf w).legal = true
    (¬ accepted → step s = .next { s with
      cmds := rest, rsps := s.rsps ++ [(Reply.mk 0xFF s.flt.code 0).word] }) ∧
    (accepted → ∃ (i : Instr) (t : State) (r : Reply), decode w = .ok i ∧ step s = .next t ∧
      t.rsps.getLast? = some r.word ∧ r.status = 0x00)

/-- R190, R194, R48.8: once the block is faulted, no step but RESET changes any component of R15. -/
def Obligations.FaultHoldsUntilReset : Prop :=
  ∀ s t : State, s.flt.code ≠ 0 → s.cmds.head? ≠ some (encode .reset) → step s = .next t →
    t = { s with cmds := t.cmds, rsps := t.rsps }

/-- R188: a legal command raises ProtocolError, F_INFO 0, exactly in the control states its row of the table forbids; a
command with no row never does. -/
def Obligations.ProtocolErrorTable : Prop :=
  ∀ (i : Instr) (s : State), s.flt.code = 0 →
    let forbidden : Prop := match i with
      | .cnt _ | .loadf _ _ => s.tb.treeValid = true
      | .hdrb _ => s.tb.treeValid = true ∨ s.hc.hstate = .done
      | .hdrser => s.bw.wClosed = true ∨ s.bw.wcnt ≠ 0 ∨ s.bw.sink ≠ []
      | .build => s.tb.treeValid = true ∨ (s.hc.hstate ≠ .line0 ∧ s.hc.hstate ≠ .done)
      | .gencode => s.tb.treeValid = false ∨ s.ct.codeValid = true
      | .wbit _ | .wflush => s.bw.wClosed = true
      | .enc _ => s.ct.codeValid = false ∨ s.bw.wClosed = true
      | .push _ | .pusherr | .eod => s.br.srcEod = true
      | .dstart => s.tb.treeValid = false ∨ s.tw.wstate ≠ .idle
      | .dstep | .dec => s.tw.wstate = .idle
      | _ => False
    (forbidden → exec i s = .next { s with
      flt := ⟨7, i.opcode, 0⟩, rsps := s.rsps ++ [0x8700000000000000] }) ∧
    (¬ forbidden → ∃ t, exec i s = .next t ∧ t.flt.code ≠ 7)

/-- R186, R192: a command other than DEC that leaves an unfaulted block faulted has changed the fault registers only;
they name the command. -/
def Obligations.FaultsArePrecise : Prop :=
  ∀ (i : Instr) (s t : State), i ≠ .dec → s.flt.code = 0 → exec i s = .next t → t.flt.code ≠ 0 →
    t = { s with
      flt := ⟨t.flt.code, i.opcode, t.flt.info⟩
      rsps := s.rsps ++ [(Reply.mk (0x80 + t.flt.code) 0 (t.flt.info.setWidth 40)).word] }

/-! ## Rules about the whole machine -/

/-- R50, R45: which commands can change which unit. -/
def Obligations.UnitsChangeOnlyByTheirCommands : Prop :=
  ∀ (i : Instr) (s t : State), exec i s = .next t → i ≠ .reset →
    (t.fc ≠ s.fc → (∃ b, i = .cnt b) ∨ (∃ b n, i = .loadf b n) ∨ (∃ c, i = .hdrb c)) ∧
    (t.hc ≠ s.hc → ∃ c, i = .hdrb c) ∧
    (t.tb ≠ s.tb → i = .build) ∧
    (t.ct ≠ s.ct → i = .gencode) ∧
    (t.bw ≠ s.bw → (∃ v, i = .wbit v) ∨ i = .wflush ∨ (∃ b, i = .enc b) ∨ i = .snkfail ∨ i = .hdrser) ∧
    (t.br ≠ s.br → (∃ b, i = .push b) ∨ i = .pusherr ∨ i = .eod ∨ i = .rbit ∨ i = .dstep ∨ i = .dec) ∧
    (t.tw ≠ s.tw → i = .dstart ∨ i = .dstep ∨ i = .dec)

/-- R45: each one-bit control register is set by its one command only and is sticky until RESET. -/
def Obligations.FlagsAreOneWay : Prop :=
  ∀ (i : Instr) (s t : State), exec i s = .next t → i ≠ .reset →
    (t.tb.treeValid = s.tb.treeValid ∨ (i = .build ∧ t.tb.treeValid = true)) ∧
    (t.ct.codeValid = s.ct.codeValid ∨ (i = .gencode ∧ t.ct.codeValid = true)) ∧
    (t.bw.wClosed = s.bw.wClosed ∨ (i = .wflush ∧ t.bw.wClosed = true)) ∧
    (t.bw.snkFail = s.bw.snkFail ∨ (i = .snkfail ∧ t.bw.snkFail = true)) ∧
    (t.br.srcEod = s.br.srcEod ∨ (i = .eod ∧ t.br.srcEod = true)) ∧
    (s.flt.code ≠ 0 → t.flt = s.flt)

/-- R31, R42: SINK and DOUT are append-only between resets. -/
def Obligations.SinkAndDoutAreAppendOnly : Prop :=
  ∀ (i : Instr) (s t : State), exec i s = .next t → i ≠ .reset →
    (∃ out, t.bw.sink = s.bw.sink ++ out) ∧ (∃ out, t.tw.dout = s.tw.dout ++ out)

/-- R90, R217: the frequency table changes only while TREE_VALID == 0. -/
def Obligations.TableIsFrozenByBuild : Prop :=
  ∀ (i : Instr) (s t : State), exec i s = .next t → s.tb.treeValid = true → i ≠ .reset → t.fc = s.fc

/-! ## Control and read-back -/

/-- R170, R173: NOP and RDFAULT answer in every state and change nothing. -/
def Obligations.ControlReadsAnswer : Prop :=
  encode .nop = 0x000000000000 ∧ encode .rdfault = 0x030000000000 ∧ ∀ s : State,
    exec .nop s = .next { s with rsps := s.rsps ++ [0x0000000000000000] } ∧
    exec .rdfault s = .next { s with rsps := s.rsps ++ [(Reply.mk 0x00 s.flt.code (s.flt.cmd ++ s.flt.info)).word] }

/-- R172, R44: STATUS answers the control registers, field by field, in every state and changes nothing. -/
def Obligations.StatusViewFields : Prop :=
  encode .status = 0x020000000000 ∧ ∀ s : State, ∃ v : SumWord,
    exec .status s = .next { s with rsps := s.rsps ++ [(Reply.mk 0x00 s.flt.code v).word] } ∧
    v.getLsbD 0 = s.tb.treeValid ∧ v.getLsbD 1 = s.ct.codeValid ∧
    v.getLsbD 2 = s.bw.wClosed ∧ v.getLsbD 3 = s.br.srcEod ∧
    v.getLsbD 4 = s.bw.snkFail ∧ v.getLsbD 5 = s.tw.short ∧
    v.getLsbD 6 = s.tw.midsym ∧ v.getLsbD 7 = decide (s.flt.code ≠ 0) ∧
    v.extractLsb' 8 2 = (match s.tw.wstate with | .idle => 0 | .walk => 1 | .done => 2) ∧
    v.extractLsb' 10 3 = (match s.hc.hstate with
      | .line0 => 0 | .bdig => 1 | .cstart => 2 | .cdig => 3 | .pair => 4 | .done => 5) ∧
    v.extractLsb' 13 3 = s.bw.wcnt ∧ (v.extractLsb' 16 4).toNat = s.br.rcnt.val ∧
    v.extractLsb' 20 20 = 0

/-- R171: RESET is accepted in every state and leaves every component at its reset value. The command port is not a
component of R15 and is kept (entries 1 and 2). -/
def Obligations.ResetRestoresTheResetState : Prop :=
  encode .reset = 0x010000000000 ∧ ∀ s : State,
    exec .reset s = .next { s with toBlock := .reset, rsps := s.rsps ++ [0x0000000000000000] }

/-- R47, R26: the reset value of every component. -/
def Obligations.ResetStateValues : Prop :=
  let s := State.reset
  (∀ b, (s.fc.entry b).pres = false ∧ (s.fc.entry b).freq = 0) ∧ s.fc.nsym = 0 ∧ s.fc.total = 0 ∧
  s.hc.hstate = .line0 ∧ s.hc.hb = 0 ∧ s.hc.hn = 0 ∧
  (∀ i : NodeIdx, i ≠ 511 → s.tb.node i = ⟨.empty, 0, 0, 0, 0, false⟩) ∧
  s.tb.node 511 = ⟨.dummy, 0, 0, 511, 511, false⟩ ∧
  s.tb.root = 0 ∧ s.tb.nint = 0 ∧ s.tb.treeValid = false ∧
  (∀ b, s.ct.entry b = ⟨false, 0, 0⟩) ∧ s.ct.codeValid = false ∧
  s.bw = ⟨[], 0, 0, false, false⟩ ∧ s.br = ⟨[], false, 0, 0⟩ ∧ s.tw = ⟨.idle, 0, 0, 0, false, false, []⟩ ∧
  s.flt = ⟨0, 0, 0⟩

/-- R94, R95, R96: the frequency read-backs answer in every state and change nothing. -/
def Obligations.FrequencyReadsAnswer : Prop :=
  (∀ b, encode (.rdf b) = 0x12#8 ++ b ++ 0#32) ∧ encode .rdnsym = 0x130000000000 ∧ encode .rdtot = 0x140000000000 ∧
  ∀ s : State,
    (∀ b, exec (.rdf b) s = .next { s with rsps := s.rsps ++
      [(Reply.mk 0x00 (if (s.fc.entry b).pres then 1 else 0) ((s.fc.entry b).freq.setWidth 40)).word] }) ∧
    exec .rdnsym s = .next { s with rsps := s.rsps ++ [(Reply.mk 0x00 0 (s.fc.nsym.setWidth 40)).word] } ∧
    exec .rdtot s = .next { s with rsps := s.rsps ++ [(Reply.mk 0x00 0 s.fc.total).word] }

/-- R108, R109, R110, R26: the node read-backs answer in every state and change nothing; slot 511 reads as hardwired. -/
def Obligations.NodeReadsAnswer : Prop :=
  (∀ i, encode (.rdnode i) = 0x21#8 ++ 0#31 ++ i ∧ encode (.rdnfrq i) = 0x22#8 ++ 0#31 ++ i) ∧
  encode .rdroot = 0x230000000000 ∧ ∀ s : State,
    (∀ i, ∃ v : SumWord, exec (.rdnode i) s = .next { s with
        rsps := s.rsps ++ [(Reply.mk 0x00 (s.tb.node i).sym v).word] } ∧
      v.extractLsb' 0 9 = (s.tb.node i).right ∧ v.extractLsb' 9 9 = (s.tb.node i).left ∧
      v.extractLsb' 18 2 = (match (s.tb.node i).kind with | .empty => 0 | .leaf => 1 | .internal => 2 | .dummy => 3) ∧
      v.getLsbD 20 = (s.tb.node i).active ∧ v.extractLsb' 21 19 = 0) ∧
    (∀ i, exec (.rdnfrq i) s = .next { s with rsps := s.rsps ++ [(Reply.mk 0x00 0 (s.tb.node i).freq).word] }) ∧
    (∃ v : SumWord, exec .rdroot s = .next { s with
        rsps := s.rsps ++ [(Reply.mk 0x00 (if s.tb.treeValid then 1 else 0) v).word] } ∧
      v.extractLsb' 0 9 = s.tb.root ∧ v.extractLsb' 16 8 = s.tb.nint ∧ v.extractLsb' 9 7 = 0 ∧
      v.extractLsb' 24 16 = 0) ∧
    exec (.rdnode 511) s = .next { s with rsps := s.rsps ++ [0x00000000000FFFFF] } ∧
    exec (.rdnfrq 511) s = .next { s with rsps := s.rsps ++ [0x0000000000000000] }

/-- R118, R119: the code read-backs answer in every state and change nothing; a position outside the code reads as
bit 0. -/
def Obligations.CodeReadsAnswer : Prop :=
  (∀ b, encode (.rdclen b) = 0x31#8 ++ b ++ 0#32) ∧ (∀ b k, encode (.rdcbit b k) = 0x32#8 ++ b ++ 0#24 ++ k) ∧
  ∀ (s : State) (b : Byte),
    exec (.rdclen b) s = .next { s with rsps := s.rsps ++
      [(Reply.mk 0x00 (if (s.ct.entry b).valid then 1 else 0) ((s.ct.entry b).len.setWidth 40)).word] } ∧
    ∀ k : Byte, exec (.rdcbit b k) s = .next { s with rsps := s.rsps ++
      [(Reply.mk 0x00 (if k.toNat < (s.ct.entry b).len.toNat ∧ (s.ct.entry b).bits.getLsbD k.toNat = true then 1 else 0)
        (if (s.ct.entry b).valid = true ∧ k.toNat < (s.ct.entry b).len.toNat then 1 else 0)).word] }

/-! ## Frequency counter -/

/-- R92: CNT b adds one to entry b, makes b a key, and answers the new count; at 2^32 - 1 it raises CountOverflow, after
BUILD ProtocolError, and changes nothing else. -/
def Obligations.CntCountsOneByte : Prop :=
  ∀ b : Byte, encode (.cnt b) = 0x10#8 ++ b ++ 0#32 ∧ ∀ s : State, s.flt.code = 0 →
    (s.tb.treeValid = false → (s.fc.entry b).freq ≠ 0xFFFFFFFF → ∃ f : FC, exec (.cnt b) s = .next { s with
        fc := f, rsps := s.rsps ++ [(Reply.mk 0x00 0 (((s.fc.entry b).freq + 1).setWidth 40)).word] } ∧
      f.entry b = ⟨true, (s.fc.entry b).freq + 1⟩ ∧ (∀ c, c ≠ b → f.entry c = s.fc.entry c) ∧
      f.nsym = (if (s.fc.entry b).pres then s.fc.nsym else s.fc.nsym + 1) ∧ f.total = s.fc.total + 1) ∧
    (s.tb.treeValid = false → (s.fc.entry b).freq = 0xFFFFFFFF → exec (.cnt b) s = .next { s with
        flt := ⟨5, 0x10, b.setWidth 32⟩, rsps := s.rsps ++ [(Reply.mk 0x85 0 (b.setWidth 40)).word] }) ∧
    (s.tb.treeValid = true → exec (.cnt b) s = .next { s with
        flt := ⟨7, 0x10, 0⟩, rsps := s.rsps ++ [0x8700000000000000] })

/-- R91, R93: LOADF b, n enters the pair; a byte value that is already a key raises MalformedHeaderError(b), a tree
ProtocolError, and changes nothing else. -/
def Obligations.LoadfEntersOnePair : Prop :=
  ∀ (b : Byte) (n : CountWord), encode (.loadf b n) = 0x11#8 ++ b ++ n ∧ ∀ s : State, s.flt.code = 0 →
    (s.tb.treeValid = false → (s.fc.entry b).pres = false → ∃ f : FC, exec (.loadf b n) s = .next { s with
        fc := f, rsps := s.rsps ++ [0x0000000000000000] } ∧
      f.entry b = ⟨true, n⟩ ∧ (∀ c, c ≠ b → f.entry c = s.fc.entry c) ∧
      f.nsym = s.fc.nsym + 1 ∧ f.total = s.fc.total + n.setWidth 40) ∧
    (s.tb.treeValid = false → (s.fc.entry b).pres = true → exec (.loadf b n) s = .next { s with
        flt := ⟨2, 0x11, b.setWidth 32⟩, rsps := s.rsps ++ [(Reply.mk 0x82 0 (b.setWidth 40)).word] }) ∧
    (s.tb.treeValid = true → exec (.loadf b n) s = .next { s with
        flt := ⟨7, 0x11, 0⟩, rsps := s.rsps ++ [0x8700000000000000] })

/-- R97: after CNT of each byte of an input, from reset, the table is the input's histogram. -/
def Obligations.CountingGivesTheHistogram : Prop :=
  ∀ input : List Byte, (∀ b, input.count b < 2 ^ 32) →
    ∃ t, issue (input.map .cnt) State.reset = .next t ∧ t.flt.code = 0 ∧
      (∀ b, (t.fc.entry b).freq.toNat = input.count b ∧ ((t.fc.entry b).pres = true ↔ b ∈ input)) ∧
      t.fc.nsym.toNat = input.dedup.length ∧ t.fc.total.toNat = input.length

/-- R90, R14: the sums of the frequency table hold after every command. -/
def Obligations.StepKeepsTheFrequencySums : Prop :=
  ∀ s t : State, s.fc.Ok → step s = .next t → t.fc.Ok

/-! ## Header -/

/-- R158, R159: the header parser's accepting transitions. -/
def Obligations.HeaderParserAccepts : Prop :=
  ∀ (s : State) (c : Byte), s.flt.code = 0 → s.tb.treeValid = false →
    let d := c.toNat - 0x30
    let digit := 0x30 ≤ c.toNat ∧ c.toNat ≤ 0x39
    let goesTo (f : FC) (h : HC) (aux : Byte) : Prop := exec (.hdrb c) s = .next { s with
      fc := f, hc := h, rsps := s.rsps ++ [(Reply.mk 0x00 aux 0).word] }
    (s.hc.hstate = .line0 ∨ s.hc.hstate = .pair → digit →
      goesTo s.fc { s.hc with hb := BitVec.ofNat 8 d, hstate := .bdig } 0) ∧
    (s.hc.hstate = .line0 → c = 0x0A → goesTo s.fc { s.hc with hstate := .done } 1) ∧
    (s.hc.hstate = .bdig → digit → s.hc.hb.toNat * 10 + d ≤ 255 →
      goesTo s.fc { s.hc with hb := BitVec.ofNat 8 (s.hc.hb.toNat * 10 + d) } 0) ∧
    (s.hc.hstate = .bdig → c = 0x3A → goesTo s.fc { s.hc with hn := 0, hstate := .cstart } 0) ∧
    (s.hc.hstate = .cstart → digit → goesTo s.fc { s.hc with hn := BitVec.ofNat 32 d, hstate := .cdig } 0) ∧
    (s.hc.hstate = .cdig → digit → s.hc.hn.toNat * 10 + d ≤ 4294967295 →
      goesTo s.fc { s.hc with hn := BitVec.ofNat 32 (s.hc.hn.toNat * 10 + d) } 0) ∧
    (s.hc.hstate = .cdig → c = 0x2C ∨ c = 0x0A → (s.fc.entry s.hc.hb).pres = false →
      ∃ f : FC, goesTo f { s.hc with hstate := if c = 0x2C then .pair else .done } (if c = 0x2C then 0 else 1) ∧
        f.entry s.hc.hb = ⟨true, s.hc.hn⟩ ∧ (∀ b, b ≠ s.hc.hb → f.entry b = s.fc.entry b) ∧
        f.nsym = s.fc.nsym + 1 ∧ f.total = s.fc.total + s.hc.hn.setWidth 40)

/-- R158, R159: the header parser's rejections: MalformedHeaderError with F_INFO the text byte, or the byte value of a
repeated key; nothing else changes. -/
def Obligations.HeaderParserRejects : Prop :=
  ∀ (s : State) (c : Byte), s.flt.code = 0 → s.tb.treeValid = false →
    let d := c.toNat - 0x30
    let digit := 0x30 ≤ c.toNat ∧ c.toNat ≤ 0x39
    let malformed (info : Byte) : Prop := exec (.hdrb c) s = .next { s with
      flt := ⟨2, 0x18, info.setWidth 32⟩, rsps := s.rsps ++ [(Reply.mk 0x82 0 (info.setWidth 40)).word] }
    (s.hc.hstate = .line0 → ¬ digit → c ≠ 0x0A → malformed c) ∧
    (s.hc.hstate = .pair ∨ s.hc.hstate = .cstart → ¬ digit → malformed c) ∧
    (s.hc.hstate = .bdig → ¬ digit → c ≠ 0x3A → malformed c) ∧
    (s.hc.hstate = .bdig → digit → 255 < s.hc.hb.toNat * 10 + d → malformed c) ∧
    (s.hc.hstate = .cdig → ¬ digit → c ≠ 0x2C → c ≠ 0x0A → malformed c) ∧
    (s.hc.hstate = .cdig → digit → 4294967295 < s.hc.hn.toNat * 10 + d → malformed c) ∧
    (s.hc.hstate = .cdig → c = 0x2C ∨ c = 0x0A → (s.fc.entry s.hc.hb).pres = true → malformed s.hc.hb)

/-- R160, R161: HDRSER writes `byte:count` for each key in ascending byte value, commas between, the terminator last, and
answers the number of bytes; on a failing sink it raises IOError(0), after anything was written ProtocolError, and
changes nothing else. -/
def Obligations.HdrserWritesTheHeaderLine : Prop :=
  encode .hdrser = 0x190000000000 ∧ ∀ s : State, s.flt.code = 0 →
    let dec (n : Nat) : List Byte := (Nat.toDigits 10 n).map fun ch => BitVec.ofNat 8 ch.toNat
    let keys := (List.range 256).filter fun b => (s.fc.entry (BitVec.ofNat 8 b)).pres
    let text := List.intercalate [0x2C] (keys.map fun b =>
      dec b ++ [0x3A] ++ dec (s.fc.entry (BitVec.ofNat 8 b)).freq.toNat) ++ [0x0A]
    let fresh := s.bw.wClosed = false ∧ s.bw.wcnt = 0 ∧ s.bw.sink = []
    (fresh → s.bw.snkFail = false → exec .hdrser s = .next { s with
      bw := { s.bw with sink := text }
      rsps := s.rsps ++ [(Reply.mk 0x00 0 (BitVec.ofNat 40 text.length)).word] }) ∧
    (fresh → s.bw.snkFail = true → exec .hdrser s = .next { s with
      flt := ⟨3, 0x19, 0⟩, rsps := s.rsps ++ [0x8300000000000000] }) ∧
    (¬ fresh → exec .hdrser s = .next { s with
      flt := ⟨7, 0x19, 0⟩, rsps := s.rsps ++ [0x8700000000000000] })

/-- R162: the header HDRSER writes, fed to a block fresh from reset, gives the same table. -/
def Obligations.HeaderRoundTrip : Prop :=
  ∀ a t : State, a.fc.Ok → a.flt.code = 0 → a.bw.snkFail = false → exec .hdrser a = .next t → t.flt.code = 0 →
    ∃ u, issue (t.bw.sink.map .hdrb) State.reset = .next u ∧
      u.hc.hstate = .done ∧ u.flt.code = 0 ∧ (∀ b, u.fc.entry b = a.fc.entry b) ∧
      u.fc.nsym = a.fc.nsym ∧ u.fc.total = a.fc.total

/-! ## Bit-stream writer and encoder -/

/-- R127, R128: WBIT v adds the bit to the stream; the eighth bit puts a byte, or raises IOError(0) on a failing sink,
changing nothing else; after WFLUSH it raises ProtocolError. The premise BW.Ok is the invariant
StepKeepsTheWriterPadding. -/
def Obligations.WbitWritesOneBit : Prop :=
  encode (.wbit false) = 0x400000000000 ∧ encode (.wbit true) = 0x400100000000 ∧
  ∀ (v : Bool) (s : State), s.bw.Ok → s.flt.code = 0 →
    (s.bw.wClosed = false → s.bw.wcnt ≠ 7 → ∃ buf : Byte, exec (.wbit v) s = .next { s with
        bw := { s.bw with wbuf := buf, wcnt := s.bw.wcnt + 1 }, rsps := s.rsps ++ [0x0000000000000000] } ∧
      byteBits buf = (byteBits s.bw.wbuf).take s.bw.wcnt.toNat ++ v :: List.replicate (7 - s.bw.wcnt.toNat) false) ∧
    (s.bw.wClosed = false → s.bw.wcnt = 7 → s.bw.snkFail = false → ∃ out : Byte, exec (.wbit v) s = .next { s with
        bw := { s.bw with sink := s.bw.sink ++ [out], wbuf := 0, wcnt := 0 }
        rsps := s.rsps ++ [(Reply.mk 0x00 1 (out.setWidth 40)).word] } ∧
      byteBits out = (byteBits s.bw.wbuf).take 7 ++ [v]) ∧
    (s.bw.wClosed = false → s.bw.wcnt = 7 → s.bw.snkFail = true → exec (.wbit v) s = .next { s with
        flt := ⟨3, 0x40, 0⟩, rsps := s.rsps ++ [0x8300000000000000] }) ∧
    (s.bw.wClosed = true → exec (.wbit v) s = .next { s with
        flt := ⟨7, 0x40, 0⟩, rsps := s.rsps ++ [0x8700000000000000] })

/-- R129: WFLUSH puts the partial byte, padded with zeros, and closes the writer; on a byte boundary it puts nothing; on
a failing sink it raises IOError(0), a second time ProtocolError. -/
def Obligations.WflushPadsAndCloses : Prop :=
  encode .wflush = 0x410000000000 ∧ ∀ s : State, s.flt.code = 0 →
    (s.bw.wClosed = false → s.bw.snkFail = false → s.bw.wcnt ≠ 0 → exec .wflush s = .next { s with
      bw := { s.bw with sink := s.bw.sink ++ [s.bw.wbuf], wbuf := 0, wcnt := 0, wClosed := true }
      rsps := s.rsps ++ [(Reply.mk 0x00 1 (s.bw.wbuf.setWidth 40)).word] }) ∧
    (s.bw.wClosed = false → s.bw.snkFail = false → s.bw.wcnt = 0 → exec .wflush s = .next { s with
      bw := { s.bw with wClosed := true }, rsps := s.rsps ++ [0x0000000000000000] }) ∧
    (s.bw.wClosed = false → s.bw.snkFail = true → exec .wflush s = .next { s with
      flt := ⟨3, 0x41, 0⟩, rsps := s.rsps ++ [0x8300000000000000] }) ∧
    (s.bw.wClosed = true → exec .wflush s = .next { s with
      flt := ⟨7, 0x41, 0⟩, rsps := s.rsps ++ [0x8700000000000000] })

/-- R130, R137, R138, R140: the environment's four commands; after EOD the source's three raise ProtocolError. -/
def Obligations.EnvironmentCommands : Prop :=
  encode .snkfail = 0x430000000000 ∧ (∀ b, encode (.push b) = 0x50#8 ++ b ++ 0#32) ∧
  encode .pusherr = 0x510000000000 ∧ encode .eod = 0x520000000000 ∧
  ∀ s : State, s.flt.code = 0 →
    exec .snkfail s = .next { s with
      bw := { s.bw with snkFail := true }, rsps := s.rsps ++ [0x0000000000000000] } ∧
    (s.br.srcEod = false →
      (∀ b, exec (.push b) s = .next { s with
        br := { s.br with src := s.br.src ++ [.byte b] }, rsps := s.rsps ++ [0x0000000000000000] }) ∧
      exec .pusherr s = .next { s with
        br := { s.br with src := s.br.src ++ [.err] }, rsps := s.rsps ++ [0x0000000000000000] } ∧
      exec .eod s = .next { s with
        br := { s.br with srcEod := true }, rsps := s.rsps ++ [0x0000000000000000] }) ∧
    (s.br.srcEod = true → ∀ i, ((∃ b, i = .push b) ∨ i = .pusherr ∨ i = .eod) → exec i s = .next { s with
        flt := ⟨7, i.opcode, 0⟩, rsps := s.rsps ++ [0x8700000000000000] })

/-- R32, R48.5: the writer's buffer is zero below the bits it holds, after every command. -/
def Obligations.StepKeepsTheWriterPadding : Prop :=
  ∀ s t : State, s.bw.Ok → step s = .next t → t.bw.Ok

/-- R156: ENC b adds the code of b to the stream, root branch first, and answers its length and the bytes put. -/
def Obligations.EncWritesTheCode : Prop :=
  ∀ (b : Byte) (s : State), s.bw.Ok → s.flt.code = 0 → s.ct.codeValid = true → s.bw.wClosed = false →
    (s.ct.entry b).valid = true →
    let len := (s.ct.entry b).len.toNat
    let put := (s.bw.wcnt.toNat + len) / 8
    (put = 0 ∨ s.bw.snkFail = false) →
    ∃ w : BW, exec (.enc b) s = .next { s with
        bw := w, rsps := s.rsps ++ [(Reply.mk 0x00 (s.ct.entry b).len (BitVec.ofNat 40 put)).word] } ∧
      w.Ok ∧ w.bits = s.bw.bits ++ (List.range len).map (fun k => (s.ct.entry b).bits.getLsbD k) ∧
      w.sink.length = s.bw.sink.length + put ∧ w.wcnt.toNat = (s.bw.wcnt.toNat + len) % 8 ∧
      w.wClosed = s.bw.wClosed ∧ w.snkFail = s.bw.snkFail

/-- R156, R191: ENC's faults: EncodingError(b) first, then IOError(0) when a byte would be put; nothing else changes. -/
def Obligations.EncFaults : Prop :=
  ∀ (b : Byte) (s : State), s.flt.code = 0 → s.ct.codeValid = true → s.bw.wClosed = false →
    ((s.ct.entry b).valid = false → exec (.enc b) s = .next { s with
      flt := ⟨4, 0x42, b.setWidth 32⟩, rsps := s.rsps ++ [(Reply.mk 0x84 0 (b.setWidth 40)).word] }) ∧
    ((s.ct.entry b).valid = true → (s.bw.wcnt.toNat + (s.ct.entry b).len.toNat) / 8 ≠ 0 → s.bw.snkFail = true →
      exec (.enc b) s = .next { s with
        flt := ⟨3, 0x42, 0⟩, rsps := s.rsps ++ [0x8300000000000000] })

/-! ## Bit-stream reader -/

/-- R136, R139: RBIT yields the next unread bit, fetching a byte only when the current one is exhausted; with nothing to
yield it answers EOS or BLOCKED and changes nothing, or raises IOError(1). -/
def Obligations.RbitReadsOneBit : Prop :=
  encode .rbit = 0x530000000000 ∧ ∀ s : State, s.flt.code = 0 →
    (∀ v vs, s.br.ahead = v :: vs → ∃ r : BR, s.br.Yields v r ∧ exec .rbit s = .next { s with
      br := r, rsps := s.rsps ++ [(Reply.mk 0x00 (if v then 1 else 0) 0).word] }) ∧
    (s.br.rcnt = 0 → s.br.src = [] → s.br.srcEod = true → exec .rbit s = .next { s with
      rsps := s.rsps ++ [0x0100000000000000] }) ∧
    (s.br.rcnt = 0 → s.br.src = [] → s.br.srcEod = false → exec .rbit s = .next { s with
      rsps := s.rsps ++ [0x0200000000000000] }) ∧
    (s.br.rcnt = 0 → s.br.src.head? = some .err → exec .rbit s = .next { s with
      flt := ⟨3, 0x53, 1⟩, rsps := s.rsps ++ [0x8300000000000001] })

/-- R141: pushed bytes come back bit by bit, most significant first, and then end of stream. -/
def Obligations.PushedBytesReadBackInOrder : Prop :=
  ∀ bytes : List Byte, ∃ t,
    issue (bytes.map .push ++ [.eod] ++ List.replicate (8 * bytes.length + 1) .rbit) State.reset = .next t ∧
      t.rsps = List.replicate (bytes.length + 1) 0x0000000000000000 ++
        (bytes.flatMap byteBits).map (fun v => if v then 0x0001000000000000 else 0x0000000000000000) ++
        [0x0100000000000000]

/-! ## Tree builder -/

/-- R101, R102: ExtractMin takes the active node of least key, frequency first and then index, and clears its ACTIVE bit
only; on an empty queue there is none. -/
def Obligations.ExtractMinTakesTheLeastKey : Prop :=
  ∀ t : TB,
    ((∀ i, (t.node i).active = false) → t.extractMin = none) ∧
    ((∃ i, (t.node i).active = true) → ∃ x u, t.extractMin = some (x, u) ∧ (t.node x).active = true ∧
      (∀ j, (t.node j).active = true → j ≠ x → t.keyLt x j) ∧
      u.node x = { t.node x with active := false } ∧ (∀ j, j ≠ x → u.node j = t.node j))

/-- R101, R103, R104, R48.3: on a builder as at reset and a table whose sums hold (the invariants StepKeepsTheInvariants
and StepKeepsTheFrequencySums), BUILD leaves the tree of the table, and answers ROOT and NINT. Which nodes are merged is
`TB.Built.merges`: node 256 + k joins the two nodes of least key among those of lower index that no earlier internal node
has as a child, the least on the left. -/
def Obligations.BuildMakesTheTree : Prop :=
  ∀ s : State, s.flt.code = 0 → s.fc.Ok → s.tb = .reset → (s.hc.hstate = .line0 ∨ s.hc.hstate = .done) →
    s.fc.nsym ≠ 0 → ∃ (u : TB) (v : SumWord), exec .build s = .next { s with
        tb := u, rsps := s.rsps ++ [(Reply.mk 0x00 0 v).word] } ∧
      u.treeValid = true ∧ u.Built s.fc ∧ v.extractLsb' 0 9 = u.root ∧ v.extractLsb' 16 8 = u.nint ∧
      v.extractLsb' 9 7 = 0 ∧ v.extractLsb' 24 16 = 0

/-- R103: each merge of BUILD takes the two nodes of least key: the first extracted is the left child, the second the
right, and the new node carries the sum. -/
def Obligations.MergeJoinsTheTwoLeastNodes : Prop :=
  ∀ (k : Nat) (t : TB), k < 255 → (∀ i, (t.node i).active = true → i < intIdx k) → 2 ≤ t.size →
    ∃ x y : NodeIdx, x ≠ y ∧ (t.node x).active = true ∧ (t.node y).active = true ∧ t.keyLt x y ∧
      (∀ j, (t.node j).active = true → j ≠ x → j ≠ y → t.keyLt y j) ∧
      (mergeOnce k t).node (intIdx k) = ⟨.internal, 0, (t.node x).freq + (t.node y).freq, x, y, true⟩ ∧
      (mergeOnce k t).node x = { t.node x with active := false } ∧
      (mergeOnce k t).node y = { t.node y with active := false } ∧
      (∀ j, j ≠ x → j ≠ y → j ≠ intIdx k → (mergeOnce k t).node j = t.node j)

/-- R105: the one-symbol alphabet: root 256, the leaf on the left, the dummy on the right. The premise FC.Ok is the
invariant StepKeepsTheFrequencySums. -/
def Obligations.BuildOneSymbolTree : Prop :=
  ∀ (s : State) (b : Byte), s.flt.code = 0 → s.fc.Ok → s.tb = .reset → (s.hc.hstate = .line0 ∨ s.hc.hstate = .done) →
    s.fc.nsym = 1 → (s.fc.entry b).pres = true → ∃ u : TB, exec .build s = .next { s with
        tb := u, rsps := s.rsps ++ [0x0000000000010100] } ∧
      u.root = 256 ∧ u.nint = 1 ∧ u.treeValid = true ∧
      u.node 256 = ⟨.internal, 0, (s.fc.entry b).freq.setWidth 40, leafIdx b, 511, true⟩ ∧
      u.node (leafIdx b) = ⟨.leaf, b, (s.fc.entry b).freq.setWidth 40, 511, 511, false⟩

/-- R106, R181: BUILD on the empty table raises EmptyInputError and changes nothing else. -/
def Obligations.BuildOnTheEmptyTableFaults : Prop :=
  ∀ s : State, s.flt.code = 0 → s.tb.treeValid = false → (s.hc.hstate = .line0 ∨ s.hc.hstate = .done) →
    s.fc.nsym = 0 → exec .build s = .next { s with
      flt := ⟨1, 0x20, 0⟩, rsps := s.rsps ++ [0x8100000000000000] }

/-- R107: BUILD is a function of the frequency table alone. -/
def Obligations.BuildDependsOnTheTableOnly : Prop :=
  ∀ s s' t t' : State, s.Inv → s'.Inv → (∀ b, s.fc.entry b = s'.fc.entry b) →
    s.tb.treeValid = false → s'.tb.treeValid = false → exec .build s = .next t → exec .build s' = .next t' →
    t.flt.code = 0 → t'.flt.code = 0 → t.tb = t'.tb

/-! ## Code table -/

/-- R115, R116, R117: GENCODE gives each key the path from ROOT to its leaf, of 1 to 255 bits, gives no other byte value
a code, leaves a prefix-free code set, and answers NSYM. -/
def Obligations.GencodeAssignsTheRootPaths : Prop :=
  ∀ s : State, s.flt.code = 0 → s.tb.treeValid = true → s.tb.Built s.fc → s.fc.Ok → s.ct = .reset →
    ∃ c : CT, exec .gencode s = .next { s with
        ct := c, rsps := s.rsps ++ [(Reply.mk 0x00 0 (s.fc.nsym.setWidth 40)).word] } ∧
      c.codeValid = true ∧ c.Coded s.fc s.tb ∧ c.NoCodeBeginsAnother

/-! ## Tree walker -/

/-- R146: DSTART puts the walker at the root, expecting TOTAL bytes; without a tree or with a walk started it raises
ProtocolError. -/
def Obligations.DstartStartsTheWalk : Prop :=
  encode .dstart = 0x600000000000 ∧ ∀ s : State, s.flt.code = 0 →
    (s.tb.treeValid = true → s.tw.wstate = .idle → exec .dstart s = .next { s with
      tw := { s.tw with
        cur := s.tb.root, emitted := 0, expected := s.fc.total, short := false, midsym := false
        wstate := if s.fc.total = 0 then .done else .walk }
      rsps := s.rsps ++ [(Reply.mk 0x00 0 s.fc.total).word] }) ∧
    (s.tb.treeValid = false ∨ s.tw.wstate ≠ .idle → exec .dstart s = .next { s with
      flt := ⟨7, 0x60, 0⟩, rsps := s.rsps ++ [0x8700000000000000] })

/-- R136, R147, R148: DSTEP takes one bit, left for 0 and right for 1; on an internal node it moves there, on a leaf it
emits the byte, goes back to the root, and is done exactly when the count is reached. The reader after it is NextBit's
(`BR.Yields`): a byte is fetched only when RBUF has no unread bit. -/
def Obligations.DstepTakesOneBranch : Prop :=
  ∀ (s : State) (v : Bool) (vs : List Bool), s.flt.code = 0 → s.tw.wstate = .walk → s.br.ahead = v :: vs →
    let nxt := if v then (s.tb.node s.tw.cur).right else (s.tb.node s.tw.cur).left
    ((s.tb.node nxt).kind = .internal → ∃ r : BR, s.br.Yields v r ∧ exec .dstep s = .next { s with
      br := r, tw := { s.tw with cur := nxt }
      rsps := s.rsps ++ [(Reply.mk 0x00 0 ((nxt ++ 0#1).setWidth 40)).word] }) ∧
    ((s.tb.node nxt).kind = .leaf → ∃ r : BR, s.br.Yields v r ∧ exec .dstep s = .next { s with
      br := r
      tw := { s.tw with
        dout := s.tw.dout ++ [(s.tb.node nxt).sym], emitted := s.tw.emitted + 1, cur := s.tb.root
        wstate := if s.tw.emitted + 1 = s.tw.expected then .done else .walk }
      rsps := s.rsps ++ [(Reply.mk 0x00 (s.tb.node nxt).sym ((s.tb.root ++ 1#1).setWidth 40)).word] })

/-- R147, R149, R151, R152: the steps of the walker that take no branch: the dummy raises BadPath(CUR) and the bit is not
consumed; an ended walk answers DONE; an empty source answers BLOCKED, or ends the walk short; an Err raises
IOError(1). -/
def Obligations.DstepWithoutABranch : Prop :=
  ∀ s : State, s.flt.code = 0 →
    (s.tw.wstate = .done → exec .dstep s = .next { s with
      rsps := s.rsps ++ [(Reply.mk 0x03 0 ((s.tw.cur ++ 0#1).setWidth 40)).word] }) ∧
    (s.tw.wstate = .walk → ∀ v vs, s.br.ahead = v :: vs →
      (s.tb.node (if v then (s.tb.node s.tw.cur).right else (s.tb.node s.tw.cur).left)).kind = .dummy →
      exec .dstep s = .next { s with
        flt := ⟨8, 0x61, s.tw.cur.setWidth 32⟩
        rsps := s.rsps ++ [(Reply.mk 0x88 0 (s.tw.cur.setWidth 40)).word] }) ∧
    (s.tw.wstate = .walk → s.br.rcnt = 0 → s.br.src = [] → s.br.srcEod = false → exec .dstep s = .next { s with
      rsps := s.rsps ++ [(Reply.mk 0x02 0 ((s.tw.cur ++ 0#1).setWidth 40)).word] }) ∧
    (s.tw.wstate = .walk → s.br.rcnt = 0 → s.br.src = [] → s.br.srcEod = true → exec .dstep s = .next { s with
      tw := { s.tw with short := true, midsym := decide (s.tw.cur ≠ s.tb.root), wstate := .done }
      rsps := s.rsps ++ [(Reply.mk 0x01 0 ((s.tw.cur ++ 0#1).setWidth 40)).word] }) ∧
    (s.tw.wstate = .walk → s.br.rcnt = 0 → s.br.src.head? = some .err → exec .dstep s = .next { s with
      flt := ⟨3, 0x61, 1⟩, rsps := s.rsps ++ [0x8300000000000001] })

/-- R150: DEC is DSTEP repeated: after a DSTEP that moves to an internal node it goes on from there, and otherwise it is
that DSTEP, with F_CMD the OP of DEC; without a walk it raises ProtocolError. -/
def Obligations.DecRepeatsDstep : Prop :=
  encode .dec = 0x620000000000 ∧ ∀ s : State, s.flt.code = 0 →
    (s.tw.wstate ≠ .idle → ∀ t : State, exec .dstep s = .next t →
      (∀ cur : NodeIdx, t.rsps = s.rsps ++ [(Reply.mk 0x00 0 ((cur ++ 0#1).setWidth 40)).word] →
        exec .dec s = exec .dec { t with rsps := s.rsps }) ∧
      ((∀ cur : NodeIdx, t.rsps ≠ s.rsps ++ [(Reply.mk 0x00 0 ((cur ++ 0#1).setWidth 40)).word]) →
        exec .dec s = .next { t with flt := { t.flt with cmd := if t.flt.code = 0 then t.flt.cmd else 0x62 } })) ∧
    (s.tw.wstate = .idle → exec .dec s = .next { s with
      flt := ⟨7, 0x62, 0⟩, rsps := s.rsps ++ [0x8700000000000000] })

/-- R79, R136, R147, R150: a DEC whose unread bits begin with the path from CUR to a leaf emits the leaf's byte, consumes
the path by one NextBit for each branch and nothing more, and goes back to the root. -/
def Obligations.DecEmitsTheByteOfAPath : Prop :=
  ∀ (s : State) (p rest : List Bool) (leaf : NodeIdx), s.flt.code = 0 → s.tw.wstate = .walk →
    (s.tb.node s.tw.cur).kind = .internal → s.tb.follow s.tw.cur p = some leaf → (s.tb.node leaf).kind = .leaf →
    s.br.ahead = p ++ rest →
    ∃ r : BR, r.ahead = rest ∧ s.br.YieldsAll p r ∧ exec .dec s = .next { s with
      br := r
      tw := { s.tw with
        dout := s.tw.dout ++ [(s.tb.node leaf).sym], emitted := s.tw.emitted + 1, cur := s.tb.root
        wstate := if s.tw.emitted + 1 = s.tw.expected then .done else .walk }
      rsps := s.rsps ++ [(Reply.mk 0x00 (s.tb.node leaf).sym ((s.tb.root ++ 1#1).setWidth 40)).word] }

/-! ## Invariants and the round trip -/

/-- R48: the reset state meets the invariants. -/
def Obligations.InvariantsHoldAtReset : Prop := State.reset.Inv

/-- R48: every step keeps the invariants. -/
def Obligations.StepKeepsTheInvariants : Prop :=
  ∀ s t : State, s.Inv → step s = .next t → t.Inv

/-- R48.4, R117 c: in every state that meets the invariants, the code set is prefix-free. -/
def Obligations.CodesArePrefixFree : Prop :=
  ∀ s : State, s.Inv → s.ct.codeValid = true → s.ct.NoCodeBeginsAnother

/-- R153: decoding what was encoded gives the input back, for every non-empty input; the last response is DONE. -/
def Obligations.DecodeInvertsEncodeProcedure : Prop :=
  ∀ (input : List Byte) (s : State), input ≠ [] → (∀ b, input.count b < 2 ^ 32) →
    ∃ t, issue (encodeProcedure input) s = .next t ∧ t.encodeComplete ∧
      ∃ u, issue (decodeProcedure (headerPart t.bw.sink) (bodyPart t.bw.sink) (input.length + 1)) t = .next u ∧
        u.tw.dout = input ∧ u.decodeComplete ∧
        (∃ r, u.rsps.getLast? = some r ∧ r.extractLsb' 56 8 = 0x03)
end

