-- ==== Sys2Proof/Laws/State.lean ====
section
/-! SUPPORT. What each shared update does to each unit of the state, and the read-after-write laws of the four tables
(20_memory.md R50, R56). -/

namespace Sys2Proof.Machine

section Respond
variable (s : State) (a : Answer)

@[simp] theorem State.respond_toBlock : (s.respond a).toBlock = a.1 := rfl
@[simp] theorem State.respond_cmds : (s.respond a).cmds = s.cmds := rfl
@[simp] theorem State.respond_rsps : (s.respond a).rsps = s.rsps ++ [a.2.word] := rfl

end Respond

section Raise
variable (s : Block) (op : Byte) (f : Raised)

@[simp] theorem Block.raise_fc : (s.raise op f).1.fc = s.fc := rfl
@[simp] theorem Block.raise_hc : (s.raise op f).1.hc = s.hc := rfl
@[simp] theorem Block.raise_tb : (s.raise op f).1.tb = s.tb := rfl
@[simp] theorem Block.raise_ct : (s.raise op f).1.ct = s.ct := rfl
@[simp] theorem Block.raise_bw : (s.raise op f).1.bw = s.bw := rfl
@[simp] theorem Block.raise_br : (s.raise op f).1.br = s.br := rfl
@[simp] theorem Block.raise_tw : (s.raise op f).1.tw = s.tw := rfl
@[simp] theorem Block.raise_flt : (s.raise op f).1.flt = ⟨f.kind.code, op, f.info⟩ := rfl
@[simp] theorem Block.raise_reply : (s.raise op f).2 = faultReply f.kind.code f.info := rfl
@[simp] theorem Block.refuse_block : s.refuse.1 = s := rfl
@[simp] theorem Block.refuse_reply : s.refuse.2 = refusedReply s.flt.code := rfl

end Raise

/-- A fault kind's code is not 0 (R180: "Code 0 means no fault"). -/
theorem FaultKind.code_ne_zero (k : FaultKind) : k.code ≠ 0#8 := by cases k <;> decide

@[simp] theorem Block.raise_faulted (s : Block) (op : Byte) (f : Raised) : (s.raise op f).1.faulted = true := by
  simp [Block.faulted, FaultKind.code_ne_zero]

section Illegal
variable (s : Block) (w : CmdWord)

@[simp] theorem Block.illegal_fc : (s.illegal w).1.fc = s.fc := by unfold Block.illegal; split <;> rfl
@[simp] theorem Block.illegal_hc : (s.illegal w).1.hc = s.hc := by unfold Block.illegal; split <;> rfl
@[simp] theorem Block.illegal_tb : (s.illegal w).1.tb = s.tb := by unfold Block.illegal; split <;> rfl
@[simp] theorem Block.illegal_ct : (s.illegal w).1.ct = s.ct := by unfold Block.illegal; split <;> rfl
@[simp] theorem Block.illegal_bw : (s.illegal w).1.bw = s.bw := by unfold Block.illegal; split <;> rfl
@[simp] theorem Block.illegal_br : (s.illegal w).1.br = s.br := by unfold Block.illegal; split <;> rfl
@[simp] theorem Block.illegal_tw : (s.illegal w).1.tw = s.tw := by unfold Block.illegal; split <;> rfl

end Illegal

section FrequencyTable
variable (f : FC) (b c : Byte) (e : FreqEntry)

@[simp] theorem FC.setEntry_nsym : (f.setEntry b e).nsym = f.nsym := rfl
@[simp] theorem FC.setEntry_total : (f.setEntry b e).total = f.total := rfl

theorem FC.entry_congr {f g : FC} (h : f.table = g.table) (b : Byte) : f.entry b = g.entry b := by
  simp [FC.entry, h]

@[simp] theorem FC.entry_setEntry_self : (f.setEntry b e).entry b = e := by
  simp [FC.entry, FC.setEntry]

theorem FC.entry_setEntry_ne {b c : Byte} (h : c ≠ b) : (f.setEntry b e).entry c = f.entry c := by
  have : b.toNat ≠ c.toNat := fun h' => h (BitVec.eq_of_toNat_eq h').symm
  simp [FC.entry, FC.setEntry, this]

@[simp] theorem FC.entry_reset : FC.reset.entry b = .reset := by simp [FC.entry, FC.reset]

/-- Two tables with equal entries are equal. -/
theorem FC.table_ext {f g : FC} (h : ∀ b, f.entry b = g.entry b) : f.table = g.table := by
  apply Vector.ext
  intro i hi
  have := h (BitVec.ofNat 8 i)
  simpa [FC.entry, Nat.mod_eq_of_lt hi] using this

end FrequencyTable

section CodeTable
variable (c : CT) (b d : Byte) (e : CodeEntry)

@[simp] theorem CT.setEntry_codeValid : (c.setEntry b e).codeValid = c.codeValid := rfl

@[simp] theorem CT.entry_setEntry_self : (c.setEntry b e).entry b = e := by
  simp [CT.entry, CT.setEntry]

theorem CT.entry_setEntry_ne {b d : Byte} (h : d ≠ b) : (c.setEntry b e).entry d = c.entry d := by
  have : b.toNat ≠ d.toNat := fun h' => h (BitVec.eq_of_toNat_eq h').symm
  simp [CT.entry, CT.setEntry, this]

@[simp] theorem CT.entry_reset : CT.reset.entry b = .reset := by simp [CT.entry, CT.reset]

end CodeTable

section NodeArena
variable (t : TB) (i j : NodeIdx) (n : Node)

@[simp] theorem TB.setNode_root : (t.setNode i n).root = t.root := by unfold TB.setNode; split <;> rfl
@[simp] theorem TB.setNode_nint : (t.setNode i n).nint = t.nint := by unfold TB.setNode; split <;> rfl
@[simp] theorem TB.setNode_treeValid : (t.setNode i n).treeValid = t.treeValid := by
  unfold TB.setNode; split <;> rfl

/-- Slot 511 is hardwired (R26). -/
@[simp] theorem TB.node_dummy : t.node 511#9 = dummyNode := by simp [TB.node]

/-- No write reaches slot 511 (R26). -/
@[simp] theorem TB.setNode_dummy : t.setNode 511#9 n = t := by simp [TB.setNode]

theorem NodeIdx.toNat_lt_of_ne {i : NodeIdx} (h : i ≠ 511) : i.toNat < 511 := by
  have h1 := i.isLt
  have h2 : i.toNat ≠ 511 := fun h' => h (BitVec.eq_of_toNat_eq h')
  omega

theorem TB.node_setNode_self {i : NodeIdx} (h : i ≠ 511) : (t.setNode i n).node i = n := by
  simp [TB.node, TB.setNode, NodeIdx.toNat_lt_of_ne h]

theorem TB.node_setNode_ne {i j : NodeIdx} (h : j ≠ i) : (t.setNode i n).node j = t.node j := by
  have h' : i.toNat ≠ j.toNat := fun e => h (BitVec.eq_of_toNat_eq e).symm
  unfold TB.setNode
  split
  · unfold TB.node
    split <;> simp [h']
  · rfl

/-- Read after write of a node slot. -/
theorem TB.node_setNode {i j : NodeIdx} (h : i ≠ 511) :
    (t.setNode i n).node j = if j = i then n else t.node j := by
  split
  · next e => subst e; exact t.node_setNode_self n h
  · next e => exact t.node_setNode_ne n e

@[simp] theorem TB.node_withTree (r : NodeIdx) (k : Byte) (v : Bool) :
    ({ t with root := r, nint := k, treeValid := v } : TB).node i = t.node i := rfl

theorem TB.node_reset {i : NodeIdx} (h : i ≠ 511) : TB.reset.node i = .reset := by
  simp [TB.node, TB.reset, NodeIdx.toNat_lt_of_ne h]

/-- A stored slot, read through the accessor. -/
theorem TB.node_ofNat {k : Nat} (h : k < 511) : t.node (BitVec.ofNat 9 k) = t.nodes[k] := by
  have : k % 512 = k := by omega
  simp [TB.node, this, h]

/-- Two arenas with equal slots are equal. -/
theorem TB.nodes_ext {t u : TB} (h : ∀ i : NodeIdx, t.node i = u.node i) : t.nodes = u.nodes := by
  apply Vector.ext
  intro k hk
  rw [← t.node_ofNat hk, ← u.node_ofNat hk, h]

end NodeArena

end Sys2Proof.Machine
end

