-- ==== Sys2Proof/Laws/Ops.lean ====
section
/-! SUPPORT. What a command can do, said once: the order of checks (30_encoding.md R85) as an inversion lemma, and every
arm of `exec` as that order around the command's own rule. -/

namespace Sys2Proof.Machine

/-- What each command does once its checks have passed. -/
def ruleRun (i : Instr) (s : Block) : Answer :=
  match i with
  | .nop => s.finish 0x00 (.ok (s, okReply 0 0))
  | .reset => s.finish 0x01 resetRule
  | .status => s.finish 0x02 (.ok (s, okReply s.flt.code s.statusView))
  | .rdfault => s.finish 0x03 (.ok (s, okReply s.flt.code (faultValue s.flt)))
  | .cnt b => s.finish 0x10 (cntRule b s)
  | .loadf b n => s.finish 0x11 (loadfRule b n s)
  | .rdf b => s.finish 0x12 (.ok (s, okReply (zext8 (s.fc.entry b).pres) (zext40 (s.fc.entry b).freq)))
  | .rdnsym => s.finish 0x13 (.ok (s, okReply 0 (zext40 s.fc.nsym)))
  | .rdtot => s.finish 0x14 (.ok (s, okReply 0 s.fc.total))
  | .hdrb c => s.finish 0x18 (hdrbRule c s)
  | .hdrser => s.finish 0x19 (hdrserRule s)
  | .build => s.finish 0x20 (buildRule s)
  | .rdnode i => s.finish 0x21 (.ok (s, okReply (s.tb.node i).sym (nodeValue (s.tb.node i))))
  | .rdnfrq i => s.finish 0x22 (.ok (s, okReply 0 (s.tb.node i).freq))
  | .rdroot => s.finish 0x23 (.ok (s, okReply (zext8 s.tb.treeValid) (rootValue s.tb.nint s.tb.root)))
  | .gencode => s.finish 0x30 (gencodeRule s)
  | .rdclen b => s.finish 0x31 (.ok (s, okReply (zext8 (s.ct.entry b).valid) (zext40 (s.ct.entry b).len)))
  | .rdcbit b k => s.finish 0x32 (.ok (s, rdcbitReply (s.ct.entry b) k))
  | .wbit v => s.finish 0x40 (wbitRule v s)
  | .wflush => s.finish 0x41 (wflushRule s)
  | .enc b => s.finish 0x42 (encRule b s)
  | .snkfail => s.finish 0x43 (.ok ({ s with bw := { s.bw with snkFail := true } }, okReply 0 0))
  | .push b => s.finish 0x50 (.ok ({ s with br := { s.br with src := s.br.src ++ [.byte b] } }, okReply 0 0))
  | .pusherr => s.finish 0x51 (.ok ({ s with br := { s.br with src := s.br.src ++ [.err] } }, okReply 0 0))
  | .eod => s.finish 0x52 (.ok ({ s with br := { s.br with srcEod := true } }, okReply 0 0))
  | .rbit => s.finish 0x53 (rbitRule s)
  | .dstart => s.finish 0x60 (dstartRule s)
  | .dstep => s.finish 0x61 (dstepRule s)
  | .dec => decRun s

/-- What the block answers to a legal command (R85). -/
def Block.answer (s : Block) (i : Instr) : Answer := s.check i (ruleRun i)

/-- Every arm of `exec` is the block's answer, returned at the port. -/
theorem exec_eq (i : Instr) (s : State) : exec i s = .next (s.respond (s.toBlock.answer i)) := by
  cases i <;> rfl

/-- The order of checks, inverted (R85, R191). -/
theorem Block.answer_cases (s : Block) (i : Instr) :
    (s.faulted = true ∧ whenFaulted i = false ∧ s.answer i = s.refuse) ∨
    ((s.faulted = false ∨ whenFaulted i = true) ∧ precondition s i = false ∧
      s.answer i = s.raise i.opcode ⟨.protocol, 0⟩) ∨
    ((s.faulted = false ∨ whenFaulted i = true) ∧ precondition s i = true ∧ s.answer i = ruleRun i s) := by
  unfold Block.answer Block.check
  cases s.faulted <;> cases whenFaulted i <;> cases precondition s i <;> simp

/-- A command whose checks pass runs its rule. -/
theorem exec_of_checks {i : Instr} {s : State} (hf : s.faulted = false ∨ whenFaulted i = true)
    (hp : precondition s.toBlock i = true) : exec i s = .next (s.respond (ruleRun i s.toBlock)) := by
  rw [exec_eq, Block.answer, Block.check]
  rcases hf with hf | hf <;> simp [hf, hp]

/-- A faulted block refuses a command that is not one of the twelve. -/
theorem exec_refused {i : Instr} {s : State} (hf : s.faulted = true) (hw : whenFaulted i = false) :
    exec i s = .next (s.respond s.refuse) := by
  rw [exec_eq, Block.answer, Block.check]
  simp [hf, hw]

/-- The control-state check. -/
theorem exec_protocol {i : Instr} {s : State} (hf : s.faulted = false) (hp : precondition s.toBlock i = false) :
    exec i s = .next (s.respond (s.raise i.opcode ⟨.protocol, 0⟩)) := by
  rw [exec_eq, Block.answer, Block.check]
  simp [hf, hp]

/-- Every command answers a next state. -/
theorem exec_next (i : Instr) (s : State) : ∃ t, exec i s = .next t := ⟨_, exec_eq ..⟩

@[simp] theorem Block.finish_ok (s : Block) (op : Byte) (a : Answer) : s.finish op (.ok a) = a := rfl

@[simp] theorem Block.finish_error (s : Block) (op : Byte) (f : Raised) : s.finish op (.error f) = s.raise op f := rfl

/-- What the block answers to a word, legal or not (R77, R85). -/
def Block.answerWord (s : Block) (w : CmdWord) : Answer :=
  match decode w with
  | .ok i => s.answer i
  | .error _ => s.illegal w

/-- A word executed is the block's answer to it, returned at the port. -/
theorem runWord_eq (w : CmdWord) (s : State) : runWord w s = .next (s.respond (s.toBlock.answerWord w)) := by
  unfold runWord Block.answerWord
  cases decode w with
  | ok i => exact exec_eq i s
  | error e => rfl

/-- The block's step: one answer, one response word (R7, R73). -/
theorem Block.step_eq (w : CmdWord) (s : Block) :
    Block.step w s = .next ((s.answerWord w).1, [(s.answerWord w).2.word]) := by
  unfold Block.step
  rw [runWord_eq]
  rfl

/-- A step takes the next command word. -/
theorem step_cons {s : State} {w : CmdWord} {rest : List CmdWord} (h : s.cmds = w :: rest) :
    step s = runWord w { s with cmds := rest } := by
  unfold step
  rw [h, runWord_eq]
  dsimp only
  rw [Block.step_eq]
  rfl

/-- A step on a legal word is the command's meaning. -/
theorem runWord_of_decode {w : CmdWord} {i : Instr} (h : decode w = .ok i) (s : State) :
    runWord w s = exec i s := by
  simp [runWord, h]

/-- What a step that answers a next state did. -/
theorem step_cases {s t : State} (h : step s = .next t) :
    ∃ w rest, s.cmds = w :: rest ∧ t = ({ s with cmds := rest } : State).respond (s.toBlock.answerWord w) ∧
      ((∃ i, decode w = .ok i ∧ s.toBlock.answerWord w = s.toBlock.answer i) ∨
        (∃ e, decode w = .error e ∧ s.toBlock.answerWord w = s.toBlock.illegal w)) := by
  cases hc : s.cmds with
  | nil => simp [step, hc] at h
  | cons w rest =>
    rw [step_cons hc, runWord_eq] at h
    refine ⟨w, rest, rfl, by simpa using h.symm, ?_⟩
    unfold Block.answerWord
    split
    · next i hd => exact .inl ⟨i, hd, rfl⟩
    · next e hd => exact .inr ⟨e, hd, rfl⟩

end Sys2Proof.Machine
end

