-- ==== Sys2Proof/Laws/Rules.lean ====
section
/-! SUPPORT. What each command's own rule can do, as inversion lemmas: when it answers, with which change, and which
faults it raises. -/

namespace Sys2Proof.Machine

@[simp] theorem childOf_false (t : TB) (i : NodeIdx) : childOf t i false = (t.node i).left := rfl
@[simp] theorem childOf_true (t : TB) (i : NodeIdx) : childOf t i true = (t.node i).right := rfl

/-- FAULTED is F_CODE != 0 (R43). -/
theorem Block.faulted_eq_false {s : Block} : s.faulted = false ↔ s.flt.code = 0 := by simp [Block.faulted]

/-- FAULTED is F_CODE != 0 (R43). -/
theorem Block.faulted_eq_true {s : Block} : s.faulted = true ↔ s.flt.code ≠ 0 := by simp [Block.faulted]

/-- An unfaulted block whose control state allows the command runs its rule. -/
theorem exec_run {i : Instr} {s : State} (hf : s.flt.code = 0) (hp : precondition s.toBlock i = true) :
    exec i s = .next (s.respond (ruleRun i s.toBlock)) := exec_of_checks (.inl (Block.faulted_eq_false.2 hf)) hp

/-- The end of a command, inverted. -/
theorem Block.finish_cases {s : Block} {op : Byte} {e : Effect} :
    (∃ t r, e = .ok (t, r) ∧ s.finish op e = (t, r)) ∨ (∃ f, e = .error f ∧ s.finish op e = s.raise op f) := by
  cases e with
  | ok p => exact .inl ⟨p.1, p.2, rfl, rfl⟩
  | error f => exact .inr ⟨f, rfl, rfl⟩

theorem commit_of_absent {f : FC} {b : Byte} (h : (f.entry b).pres = false) (n : CountWord) :
    commit f b n = .ok (enterPair f b n) := by simp [commit, h]

theorem commit_of_present {f : FC} {b : Byte} (h : (f.entry b).pres = true) (n : CountWord) :
    commit f b n = .error ⟨.malformedHeader, zext32 b⟩ := by simp [commit, h]

theorem commit_ok {f g : FC} {b : Byte} {n : CountWord} (h : commit f b n = .ok g) :
    (f.entry b).pres = false ∧ g = enterPair f b n := by
  unfold commit at h
  split at h
  · cases h
  · next hp => exact ⟨by simpa using hp, by simpa using h.symm⟩

theorem commit_error {f : FC} {b : Byte} {n : CountWord} {e : Raised} (h : commit f b n = .error e) :
    (f.entry b).pres = true ∧ e = ⟨.malformedHeader, zext32 b⟩ := by
  unfold commit at h
  split at h
  · next hp => exact ⟨hp, by simpa using h.symm⟩
  · cases h

theorem cntRule_ok {b : Byte} {s t : Block} {r : Reply} (h : cntRule b s = .ok (t, r)) :
    (s.fc.entry b).freq ≠ 0xFFFFFFFF ∧ t = { s with fc := countByte s.fc b } := by
  unfold cntRule at h
  split at h
  · cases h
  · next hc => exact ⟨by simpa using hc, by cases h; rfl⟩

theorem loadfRule_ok {b : Byte} {n : CountWord} {s t : Block} {r : Reply} (h : loadfRule b n s = .ok (t, r)) :
    (s.fc.entry b).pres = false ∧ t = { s with fc := enterPair s.fc b n } := by
  unfold loadfRule at h
  split at h
  · next f hc =>
    obtain ⟨hp, rfl⟩ := commit_ok hc
    exact ⟨hp, by cases h; rfl⟩
  · cases h

/-- The header parser enters no pair, or the pair it has parsed into an absent entry (R158). -/
theorem parseByte_ok {c : Byte} {f g : FC} {h k : HC} (hp : parseByte c f h = .ok (g, k)) :
    g = f ∨ ((f.entry h.hb).pres = false ∧ g = enterPair f h.hb h.hn) := by
  unfold parseByte at hp
  simp only [commitPair] at hp
  repeat' split at hp
  all_goals first | (cases hp; done) | (cases hp; exact .inl rfl) | skip
  all_goals
    next hc =>
    obtain ⟨ha, rfl⟩ := commit_ok hc
    cases hp
    exact .inr ⟨ha, rfl⟩

theorem hdrbRule_ok {c : Byte} {s t : Block} {r : Reply} (h : hdrbRule c s = .ok (t, r)) :
    ∃ g k, parseByte c s.fc s.hc = .ok (g, k) ∧ t = { s with fc := g, hc := k } := by
  unfold hdrbRule at h
  split at h
  · next f k hp => exact ⟨f, k, hp, by cases h; rfl⟩
  · cases h

theorem hdrserRule_ok {s t : Block} {r : Reply} (h : hdrserRule s = .ok (t, r)) :
    s.bw.snkFail = false ∧ t = { s with bw := { s.bw with sink := s.bw.sink ++ headerText s.fc } } := by
  unfold hdrserRule at h
  split at h
  · cases h
  · next hf => exact ⟨by simpa using hf, by cases h; rfl⟩

theorem buildRule_ok {s t : Block} {r : Reply} (h : buildRule s = .ok (t, r)) :
    s.fc.nsym ≠ 0 ∧ t = { s with tb := buildTree s.fc s.tb } := by
  unfold buildRule at h
  split at h
  · cases h
  · next hf => exact ⟨hf, by cases h; rfl⟩

theorem gencodeRule_ok {s t : Block} {r : Reply} (h : gencodeRule s = .ok (t, r)) :
    t = { s with ct := { (genCodes s.tb s.ct).ct with codeValid := true } } := by
  cases h; rfl

/-- The two ways a bit is written (R127). -/
theorem writeBit_ok {w w' : BW} {v : Bool} (h : writeBit w v = .ok w') :
    (w.wcnt ≠ 7 ∧ w' = { w with wbuf := addBit w v, wcnt := w.wcnt + 1 }) ∨
    (w.wcnt = 7 ∧ w.snkFail = false ∧ w' = { w with sink := w.sink ++ [addBit w v], wbuf := 0, wcnt := 0 }) := by
  unfold writeBit sinkPut at h
  split at h
  · next h7 =>
    split at h
    · next hs =>
      split at hs
      · cases hs
      · next hf => cases hs; cases h; exact .inr ⟨h7, by simpa using hf, rfl⟩
    · cases h
  · next h7 => cases h; exact .inl ⟨h7, rfl⟩

/-- What writing a bit never changes (R31). -/
theorem writeBit_frame {w w' : BW} {v : Bool} (h : writeBit w v = .ok w') :
    (∃ out, w'.sink = w.sink ++ out) ∧ w'.wClosed = w.wClosed ∧ w'.snkFail = w.snkFail := by
  rcases writeBit_ok h with ⟨-, rfl⟩ | ⟨-, -, rfl⟩
  · exact ⟨⟨[], by simp⟩, rfl, rfl⟩
  · exact ⟨⟨[addBit w v], rfl⟩, rfl, rfl⟩

theorem writeBits_frame {w w' : BW} {vs : List Bool} (h : writeBits w vs = .ok w') :
    (∃ out, w'.sink = w.sink ++ out) ∧ w'.wClosed = w.wClosed ∧ w'.snkFail = w.snkFail := by
  induction vs generalizing w with
  | nil => cases h; exact ⟨⟨[], by simp⟩, rfl, rfl⟩
  | cons v vs ih =>
    unfold writeBits at h
    split at h
    · next w1 h1 =>
      obtain ⟨⟨o1, e1⟩, c1, f1⟩ := writeBit_frame h1
      obtain ⟨⟨o2, e2⟩, c2, f2⟩ := ih h
      exact ⟨⟨o1 ++ o2, by simp [e2, e1]⟩, c2.trans c1, f2.trans f1⟩
    · cases h

theorem wbitRule_ok {v : Bool} {s t : Block} {r : Reply} (h : wbitRule v s = .ok (t, r)) :
    ∃ w, writeBit s.bw v = .ok w ∧ t = { s with bw := w } := by
  unfold wbitRule at h
  split at h
  · cases h
  · next w hw => cases h; exact ⟨w, hw, rfl⟩

/-- The two ways the writer is closed (R129). -/
theorem wflushRule_ok {s t : Block} {r : Reply} (h : wflushRule s = .ok (t, r)) :
    (s.bw.snkFail = false ∧ s.bw.wcnt = 0 ∧ t = { s with bw := { s.bw with wClosed := true } }) ∨
    (s.bw.snkFail = false ∧ s.bw.wcnt ≠ 0 ∧ t =
      { s with bw := { s.bw with sink := s.bw.sink ++ [s.bw.wbuf], wbuf := 0, wcnt := 0, wClosed := true } }) := by
  unfold wflushRule at h
  split at h
  · cases h
  · next hf =>
    split at h
    · next h0 => cases h; exact .inl ⟨by simpa using hf, h0, rfl⟩
    · next h0 => cases h; exact .inr ⟨by simpa using hf, h0, rfl⟩

theorem encRule_ok {b : Byte} {s t : Block} {r : Reply} (h : encRule b s = .ok (t, r)) :
    (s.ct.entry b).valid = true ∧ ∃ w, writeBits s.bw (s.ct.entry b).code = .ok w ∧ t = { s with bw := w } := by
  unfold encRule at h
  dsimp only at h
  split at h
  · cases h
  · next hv =>
    split at h
    · cases h
    · split at h
      · next w hw => cases h; exact ⟨by simpa using hv, w, hw, rfl⟩
      · cases h

/-- Yielding a bit keeps the source's end mark and consumes one bit (R136). -/
theorem nextBit_bit {r r' : BR} {v : Bool} (h : nextBit r = .bit v r') :
    r'.srcEod = r.srcEod ∧ bitsLeft r = bitsLeft r' + 1 := by
  unfold nextBit at h
  split at h
  · next h0 =>
    split at h
    · split at h <;> cases h
    · cases h
    · next w rest hs => cases h; exact ⟨rfl, by simp [bitsLeft, hs, h0]; omega⟩
  · next h0 =>
    cases h
    have : r.rcnt.val ≠ 0 := fun e => h0 (Fin.ext e)
    exact ⟨rfl, by simp only [bitsLeft]; omega⟩

theorem rbitRule_ok {s t : Block} {r : Reply} (h : rbitRule s = .ok (t, r)) :
    (∃ v r', nextBit s.br = .bit v r' ∧ t = { s with br := r' }) ∨ t = s := by
  unfold rbitRule at h
  split at h
  · next v r' hn => cases h; exact .inl ⟨v, r', hn, rfl⟩
  all_goals cases h
  all_goals exact .inr rfl

/-- A branch of the walker: to an internal node, or to a leaf (R147). -/
theorem takeBranch_ok {s t : Block} {v : Bool} {b : BR} {r : Reply} (h : takeBranch s v b = .ok (t, r)) :
    (((s.tb.node (childOf s.tb s.tw.cur v)).kind = .internal ∨ (s.tb.node (childOf s.tb s.tw.cur v)).kind = .empty) ∧
      t = { s with br := b, tw := { s.tw with cur := childOf s.tb s.tw.cur v } } ∧
      r = okReply 0 (walkValue (childOf s.tb s.tw.cur v) false)) ∨
    ((s.tb.node (childOf s.tb s.tw.cur v)).kind = .leaf ∧
      t = { s with br := b, tw := emitByte s.tw s.tb.root (s.tb.node (childOf s.tb s.tw.cur v)).sym } ∧
      r = okReply (s.tb.node (childOf s.tb s.tw.cur v)).sym (walkValue s.tb.root true)) := by
  unfold takeBranch at h
  dsimp only at h
  split at h
  · cases h
  · next hk => cases h; exact .inr ⟨hk, rfl, rfl⟩
  · next hk => cases h; exact .inl ⟨.inl hk, rfl, rfl⟩
  · next hk => cases h; exact .inl ⟨.inr hk, rfl, rfl⟩

/-- The one fault of a branch: the dummy (R149). -/
theorem takeBranch_error {s : Block} {v : Bool} {b : BR} {e : Raised} (h : takeBranch s v b = .error e) :
    (s.tb.node (childOf s.tb s.tw.cur v)).kind = .dummy ∧ e = ⟨.badPath, zext32 s.tw.cur⟩ := by
  unfold takeBranch at h
  dsimp only at h
  split at h
  · next hk => cases h; exact ⟨hk, rfl⟩
  all_goals cases h

/-- What a walker step can do (R147, R151). -/
theorem dstepRule_ok {s t : Block} {r : Reply} (h : dstepRule s = .ok (t, r)) :
    (s.tw.wstate = .done ∧ t = s ∧ r = doneReply (walkValue s.tw.cur false)) ∨
    (s.tw.wstate ≠ .done ∧ nextBit s.br = .blocked ∧ t = s ∧ r = blockedReply (walkValue s.tw.cur false)) ∨
    (s.tw.wstate ≠ .done ∧ nextBit s.br = .eos ∧ t = { s with tw := endShort s.tw s.tb.root } ∧
      r = eosReply (walkValue s.tw.cur false)) ∨
    (s.tw.wstate ≠ .done ∧ ∃ v b, nextBit s.br = .bit v b ∧ takeBranch s v b = .ok (t, r)) := by
  unfold dstepRule at h
  split at h
  · next hd => cases h; exact .inl ⟨hd, rfl, rfl⟩
  · next hd =>
    split at h
    · next hn => cases h; exact .inr (.inl ⟨hd, hn, rfl, rfl⟩)
    · cases h
    · next hn => cases h; exact .inr (.inr (.inl ⟨hd, hn, rfl, rfl⟩))
    · next v b hn => exact .inr (.inr (.inr ⟨hd, v, b, hn, h⟩))

@[simp] theorem okReply_silent (a : Byte) (c : NodeIdx) (v : Bool) : (okReply a (walkValue c v)).silent = !v := by
  have : (walkValue c v).getLsbD 0 = v := by
    rw [walkValue, zext40, BitVec.getLsbD_setWidth, BitVec.getLsbD_append]
    cases v <;> rfl
  simp only [Reply.silent, this, okReply, beq_self_eq_true, Bool.true_and]

/-- A silent step is a branch to a node that is neither a leaf nor the dummy: the reader and CUR change (R150). -/
theorem dstepRule_silent {s t : Block} {r : Reply} (h : dstepRule s = .ok (t, r)) (hr : r.silent = true) :
    s.tw.wstate ≠ .done ∧ ∃ v b, nextBit s.br = .bit v b ∧
      t = { s with br := b, tw := { s.tw with cur := childOf s.tb s.tw.cur v } } ∧
      (s.tb.node (childOf s.tb s.tw.cur v)).kind ≠ .leaf ∧ (s.tb.node (childOf s.tb s.tw.cur v)).kind ≠ .dummy ∧
      r = okReply 0 (walkValue t.tw.cur false) := by
  rcases dstepRule_ok h with ⟨-, -, rfl⟩ | ⟨-, -, -, rfl⟩ | ⟨-, -, -, rfl⟩ | ⟨hd, v, b, hn, hb⟩
  · cases hr
  · cases hr
  · cases hr
  · refine ⟨hd, v, b, hn, ?_⟩
    rcases takeBranch_ok hb with ⟨hk, rfl, rfl⟩ | ⟨-, -, rfl⟩
    · refine ⟨rfl, ?_, ?_, rfl⟩ <;> rcases hk with hk | hk <;> simp [hk]
    · simp at hr

/-- DEC's silent descents change the reader and CUR only (R150). -/
theorem descend_frame (n : Nat) (s : Block) :
    ∃ (b : BR) (c : NodeIdx), descend n s = { s with br := b, tw := { s.tw with cur := c } } ∧
      b.srcEod = s.br.srcEod := by
  induction n generalizing s with
  | zero => exact ⟨s.br, s.tw.cur, rfl, rfl⟩
  | succ n ih =>
    unfold descend
    split
    · next t r h =>
      split
      · next hr =>
        obtain ⟨-, v, b, hn, rfl, -⟩ := dstepRule_silent h hr
        obtain ⟨b', c', e, hb⟩ := ih { s with br := b, tw := { s.tw with cur := childOf s.tb s.tw.cur v } }
        exact ⟨b', c', e, hb.trans (nextBit_bit hn).1⟩
      · exact ⟨s.br, s.tw.cur, rfl, rfl⟩
    · exact ⟨s.br, s.tw.cur, rfl, rfl⟩

/-- After the bits run out a walker step is not silent. -/
theorem dstepRule_not_silent {s t : Block} {r : Reply} (h0 : bitsLeft s.br = 0) (h : dstepRule s = .ok (t, r)) :
    r.silent = false := by
  by_contra hr
  obtain ⟨-, v, b, hn, -⟩ := dstepRule_silent h (by simpa using hr)
  have := (nextBit_bit hn).2
  omega

/-- The loop bound of DEC is enough: the last pass is not silent (R150; assumption log entry 10). -/
theorem descend_ends {n : Nat} {s t : Block} {r : Reply} (hn : bitsLeft s.br ≤ n)
    (h : dstepRule (descend n s) = .ok (t, r)) : r.silent = false := by
  induction n generalizing s with
  | zero => exact dstepRule_not_silent (s := s) (by omega) h
  | succ n ih =>
    unfold descend at h
    split at h
    · next t' r' h' =>
      split at h
      · next hr =>
        obtain ⟨-, v, b, hb, rfl, -⟩ := dstepRule_silent h' hr
        have := (nextBit_bit hb).2
        exact ih (by simpa using by omega) h
      · next hr =>
        rw [h'] at h
        cases h
        simpa using hr
    · next h' => rw [h'] at h; cases h

/-- DEC after a silent step is DEC from there (R150). -/
theorem decRun_silent {s t : Block} {r : Reply} (h : dstepRule s = .ok (t, r)) (hr : r.silent = true) :
    decRun s = decRun t := by
  obtain ⟨-, v, b, hb, rfl, -⟩ := dstepRule_silent h hr
  have := (nextBit_bit hb).2
  unfold decRun
  simp only [this, descend, h, hr, if_true]

/-- DEC where the first step is not silent is that step (R150). -/
theorem decRun_loud {s : Block} (h : ∀ t r, dstepRule s = .ok (t, r) → r.silent = false) :
    decRun s = s.finish 0x62 (dstepRule s) := by
  have : descend (bitsLeft s.br) s = s := by
    cases bitsLeft s.br with
    | zero => rfl
    | succ n =>
      unfold descend
      split
      · next t r ht => simp [h t r ht]
      · rfl
  unfold decRun
  rw [this]
  rfl

/-- What DEC can do: some silent descents, then a last step that is not silent (R150, R192). -/
theorem decRun_cases (s : Block) :
    ∃ (b : BR) (c : NodeIdx), b.srcEod = s.br.srcEod ∧
      let p : Block := { s with br := b, tw := { s.tw with cur := c } }
      (∃ t r, dstepRule p = .ok (t, r) ∧ r.silent = false ∧ decRun s = (t, r)) ∨
      (∃ f, dstepRule p = .error f ∧ decRun s = p.raise 0x62 f) := by
  obtain ⟨b, c, e, hb⟩ := descend_frame (bitsLeft s.br) s
  refine ⟨b, c, hb, ?_⟩
  rw [← e]
  rcases Block.finish_cases (s := descend (bitsLeft s.br) s) (op := 0x62)
    (e := dstepRule (descend (bitsLeft s.br) s)) with ⟨t, r, h, h'⟩ | ⟨f, h, h'⟩
  · exact .inl ⟨t, r, h, descend_ends (Nat.le_refl _) h, h'⟩
  · exact .inr ⟨f, h, h'⟩

end Sys2Proof.Machine
end

