-- ==== Sys2Proof/Laws/Moves.lean ====
section
/-! SUPPORT. What a command can do to the units, said once (10_state.md R15): `Moved i s t` lists every change, and every
command that answers a next state made one of them. The rules about the whole machine are case analyses on it. -/

namespace Sys2Proof.Machine

/-- The changes command `i` can make to `s`, the fault registers and the responses set aside. -/
inductive Moved : Instr → Block → Block → Prop where
  /-- A read, a refusal, a fault, or a walker or reader step that finds nothing. -/
  | same (i : Instr) (s : Block) : Moved i s s
  /-- R171. -/
  | reset (s : Block) : Moved .reset s .reset
  /-- R92. -/
  | cnt {b : Byte} {s : Block} : s.tb.treeValid = false → (s.fc.entry b).freq ≠ 0xFFFFFFFF →
      Moved (.cnt b) s { s with fc := countByte s.fc b }
  /-- R93. -/
  | loadf {b : Byte} {n : CountWord} {s : Block} : s.tb.treeValid = false → (s.fc.entry b).pres = false →
      Moved (.loadf b n) s { s with fc := enterPair s.fc b n }
  /-- R158. -/
  | hdrb {c : Byte} {s : Block} {f : FC} {h : HC} : s.tb.treeValid = false → s.hc.hstate ≠ .done →
      parseByte c s.fc s.hc = .ok (f, h) → Moved (.hdrb c) s { s with fc := f, hc := h }
  /-- R161. -/
  | hdrser {s : Block} : s.bw.wClosed = false → s.bw.wcnt = 0 → s.bw.sink = [] → s.bw.snkFail = false →
      Moved .hdrser s { s with bw := { s.bw with sink := s.bw.sink ++ headerText s.fc } }
  /-- R103. -/
  | build {s : Block} : s.tb.treeValid = false → s.fc.nsym ≠ 0 →
      Moved .build s { s with tb := buildTree s.fc s.tb }
  /-- R116. -/
  | gencode {s : Block} : s.tb.treeValid = true → s.ct.codeValid = false →
      Moved .gencode s { s with ct := { (genCodes s.tb s.ct).ct with codeValid := true } }
  /-- R128. -/
  | wbit {v : Bool} {s : Block} {w : BW} : s.bw.wClosed = false → writeBit s.bw v = .ok w →
      Moved (.wbit v) s { s with bw := w }
  /-- R129, on a byte boundary. -/
  | closeAligned {s : Block} : s.bw.wClosed = false → s.bw.snkFail = false → s.bw.wcnt = 0 →
      Moved .wflush s { s with bw := { s.bw with wClosed := true } }
  /-- R129, with bits pending. -/
  | closePadded {s : Block} : s.bw.wClosed = false → s.bw.snkFail = false → s.bw.wcnt ≠ 0 →
      Moved .wflush s
        { s with bw := { s.bw with sink := s.bw.sink ++ [s.bw.wbuf], wbuf := 0, wcnt := 0, wClosed := true } }
  /-- R156. -/
  | enc {b : Byte} {s : Block} {w : BW} : s.ct.codeValid = true → s.bw.wClosed = false →
      (s.ct.entry b).valid = true → writeBits s.bw (s.ct.entry b).code = .ok w → Moved (.enc b) s { s with bw := w }
  /-- R130. -/
  | snkfail (s : Block) : Moved .snkfail s { s with bw := { s.bw with snkFail := true } }
  /-- R137. -/
  | push (b : Byte) {s : Block} : s.br.srcEod = false →
      Moved (.push b) s { s with br := { s.br with src := s.br.src ++ [.byte b] } }
  /-- R138. -/
  | pusherr {s : Block} : s.br.srcEod = false →
      Moved .pusherr s { s with br := { s.br with src := s.br.src ++ [.err] } }
  /-- R140. -/
  | eod {s : Block} : s.br.srcEod = false → Moved .eod s { s with br := { s.br with srcEod := true } }
  /-- R139. -/
  | rbit {s : Block} {v : Bool} {r : BR} : nextBit s.br = .bit v r → Moved .rbit s { s with br := r }
  /-- R146. -/
  | dstart {s : Block} : s.tb.treeValid = true → s.tw.wstate = .idle → Moved .dstart s { s with tw := startWalk s }
  /-- R151. -/
  | ended {s : Block} : s.tw.wstate = .walk → nextBit s.br = .eos →
      Moved .dstep s { s with tw := endShort s.tw s.tb.root }
  /-- R147, to an internal node. -/
  | walked {s : Block} {v : Bool} {r : BR} : s.tw.wstate = .walk → nextBit s.br = .bit v r →
      (s.tb.node (childOf s.tb s.tw.cur v)).kind ≠ .leaf → (s.tb.node (childOf s.tb s.tw.cur v)).kind ≠ .dummy →
      Moved .dstep s { s with br := r, tw := { s.tw with cur := childOf s.tb s.tw.cur v } }
  /-- R147, to a leaf. -/
  | emitted {s : Block} {v : Bool} {r : BR} : s.tw.wstate = .walk → nextBit s.br = .bit v r →
      (s.tb.node (childOf s.tb s.tw.cur v)).kind = .leaf →
      Moved .dstep s
        { s with br := r, tw := emitByte s.tw s.tb.root (s.tb.node (childOf s.tb s.tw.cur v)).sym }
  /-- R150: the last step, after the silent descents. -/
  | dec {s t : Block} (n : Nat) : s.tw.wstate ≠ .idle → Moved .dstep (descend n s) t → Moved .dec s t

/-- A walker step's change. -/
theorem Moved.of_dstepRule {s t : Block} {r : Reply} (hw : s.tw.wstate ≠ .idle) (h : dstepRule s = .ok (t, r)) :
    Moved .dstep s t := by
  have walk : s.tw.wstate ≠ .done → s.tw.wstate = .walk := by
    intro hd; cases e : s.tw.wstate <;> simp_all
  rcases dstepRule_ok h with ⟨-, rfl, -⟩ | ⟨-, -, rfl, -⟩ | ⟨hd, hn, rfl, -⟩ | ⟨hd, v, b, hn, hb⟩
  · exact .same ..
  · exact .same ..
  · exact .ended (walk hd) hn
  · rcases takeBranch_ok hb with ⟨hk, rfl, -⟩ | ⟨hk, rfl, -⟩
    · refine .walked (walk hd) hn ?_ ?_ <;> rcases hk with hk | hk <;> simp [hk]
    · exact .emitted (walk hd) hn hk

/-- An answer that makes the change `u`, perhaps recording a fault of the command with opcode `op` over it. -/
def Records (op : Byte) (u : Block) (a : Answer) : Prop :=
  a.1 = u ∨ ∃ k info, a.1 = { u with flt := ⟨FaultKind.code k, op, info⟩ }

/-- A rule that is all or nothing makes its own change, or none (R192). -/
theorem finish_moved {i : Instr} {s : Block} {op : Byte} {e : Effect}
    (h : ∀ t r, e = .ok (t, r) → Moved i s t) : ∃ u, Moved i s u ∧ Records op u (s.finish op e) := by
  rcases Block.finish_cases (s := s) (op := op) (e := e) with ⟨t, r, he, h'⟩ | ⟨f, -, h'⟩
  · exact ⟨t, h t r he, .inl (by rw [h'])⟩
  · exact ⟨s, .same .., .inr ⟨f.kind, f.info, by rw [h']; rfl⟩⟩

/-- What a command whose checks have passed does. -/
theorem ruleRun_moved {i : Instr} {s : Block} (hp : precondition s i = true) :
    ∃ u, Moved i s u ∧ Records i.opcode u (ruleRun i s) := by
  cases i with
  | reset => exact ⟨_, .reset s, .inl rfl⟩
  | cnt b =>
    refine finish_moved fun t r h => ?_
    obtain ⟨hc, rfl⟩ := cntRule_ok h
    exact .cnt (by simpa [precondition] using hp) hc
  | loadf b n =>
    refine finish_moved fun t r h => ?_
    obtain ⟨hc, rfl⟩ := loadfRule_ok h
    exact .loadf (by simpa [precondition] using hp) hc
  | hdrb c =>
    refine finish_moved fun t r h => ?_
    obtain ⟨g, k, hc, rfl⟩ := hdrbRule_ok h
    simp only [precondition, Bool.and_eq_true, Bool.not_eq_true', bne_iff_ne, ne_eq] at hp
    exact .hdrb hp.1 hp.2 hc
  | hdrser =>
    refine finish_moved fun t r h => ?_
    obtain ⟨hc, rfl⟩ := hdrserRule_ok h
    simp only [precondition, Bool.and_eq_true, Bool.not_eq_true', beq_iff_eq, List.isEmpty_iff] at hp
    exact .hdrser hp.1.1 hp.1.2 hp.2 hc
  | build =>
    refine finish_moved fun t r h => ?_
    obtain ⟨hc, rfl⟩ := buildRule_ok h
    simp only [precondition, Bool.and_eq_true, Bool.not_eq_true'] at hp
    exact .build hp.1 hc
  | gencode =>
    simp only [precondition, Bool.and_eq_true, Bool.not_eq_true'] at hp
    exact ⟨_, .gencode hp.1 hp.2, .inl rfl⟩
  | wbit v =>
    refine finish_moved fun t r h => ?_
    obtain ⟨w, hw, rfl⟩ := wbitRule_ok h
    exact .wbit (by simpa [precondition] using hp) hw
  | wflush =>
    refine finish_moved fun t r h => ?_
    have hc : s.bw.wClosed = false := by simpa [precondition] using hp
    rcases wflushRule_ok h with ⟨hf, h0, rfl⟩ | ⟨hf, h0, rfl⟩
    · exact .closeAligned hc hf h0
    · exact .closePadded hc hf h0
  | enc b =>
    refine finish_moved fun t r h => ?_
    obtain ⟨hv, w, hw, rfl⟩ := encRule_ok h
    simp only [precondition, Bool.and_eq_true, Bool.not_eq_true'] at hp
    exact .enc hp.1 hp.2 hv hw
  | snkfail => exact ⟨_, .snkfail s, .inl rfl⟩
  | push b => exact ⟨_, .push b (by simpa [precondition] using hp), .inl rfl⟩
  | pusherr => exact ⟨_, .pusherr (by simpa [precondition] using hp), .inl rfl⟩
  | eod => exact ⟨_, .eod (by simpa [precondition] using hp), .inl rfl⟩
  | rbit =>
    refine finish_moved fun t r h => ?_
    obtain ⟨v, b, hn, rfl⟩ | rfl := rbitRule_ok h
    · exact .rbit hn
    · exact .same ..
  | dstart =>
    simp only [precondition, Bool.and_eq_true, beq_iff_eq] at hp
    exact ⟨_, .dstart hp.1 hp.2, .inl rfl⟩
  | dstep =>
    exact finish_moved fun t r h => .of_dstepRule (by simpa [precondition] using hp) h
  | dec =>
    have hw : s.tw.wstate ≠ .idle := by simpa [precondition] using hp
    have hw' : (descend (bitsLeft s.br) s).tw.wstate ≠ .idle := by
      obtain ⟨b, c, e, -⟩ := descend_frame (bitsLeft s.br) s
      rw [e]; exact hw
    obtain ⟨u, hm, h⟩ := finish_moved (op := 0x62) (e := dstepRule (descend (bitsLeft s.br) s))
      fun t r h => Moved.of_dstepRule hw' h
    exact ⟨u, .dec _ hw hm, h⟩
  | _ => exact ⟨_, .same .., .inl rfl⟩

/-- The twelve commands of R174 raise no fault (R174, R190). -/
theorem answer_whenFaulted {i : Instr} {s : Block} (hw : whenFaulted i = true) :
    ∃ u r, Moved i s u ∧ s.answer i = (u, r) := by
  have run : precondition s i = true → s.answer i = ruleRun i s := by
    intro hp; simp [Block.answer, Block.check, hw, hp]
  cases i <;> first
    | (simp [whenFaulted] at hw; done)
    | exact ⟨_, _, .same .., run rfl⟩
    | exact ⟨_, _, .reset s, run rfl⟩

/-- What an answer does: one of the changes of `Moved`, and perhaps a fault recorded over an unfaulted block. -/
theorem answer_moved (i : Instr) (s : Block) :
    ∃ u, Moved i s u ∧ ((s.answer i).1 = u ∨
      s.faulted = false ∧ ∃ k info, (s.answer i).1 = { u with flt := ⟨FaultKind.code k, i.opcode, info⟩ }) := by
  cases hw : whenFaulted i with
  | true =>
    obtain ⟨u, r, hm, h⟩ := answer_whenFaulted (s := s) hw
    exact ⟨u, hm, .inl (by rw [h])⟩
  | false =>
    rcases s.answer_cases i with ⟨-, -, h⟩ | ⟨hf, -, h⟩ | ⟨hf, hp, h⟩
    · exact ⟨s, .same .., .inl (by rw [h]; rfl)⟩
    · exact ⟨s, .same .., .inr ⟨by simpa [hw] using hf, .protocol, 0, by rw [h]; rfl⟩⟩
    · obtain ⟨u, hm, h' | h'⟩ := ruleRun_moved hp
      · exact ⟨u, hm, .inl (by rw [h, h'])⟩
      · exact ⟨u, hm, .inr ⟨by simpa [hw] using hf, by rw [h]; exact h'⟩⟩

/-- What a command that answers a next state did. -/
theorem exec_moved {i : Instr} {s t : State} (h : exec i s = .next t) :
    ∃ u r, Moved i s.toBlock u ∧ (t = ⟨u, s.cmds, s.rsps ++ [r]⟩ ∨
      s.faulted = false ∧ ∃ k info, t = ⟨{ u with flt := ⟨FaultKind.code k, i.opcode, info⟩ }, s.cmds, s.rsps ++ [r]⟩) := by
  rw [exec_eq] at h
  cases h
  obtain ⟨u, hm, h | ⟨hf, k, info, h⟩⟩ := answer_moved i s.toBlock
  · exact ⟨u, _, hm, .inl (by rw [← h]; rfl)⟩
  · exact ⟨u, _, hm, .inr ⟨hf, k, info, by rw [← h]; rfl⟩⟩

/-- A property that no silent walker step can end holds after DEC's descents (R150). -/
theorem descend_keeps {P : Block → Prop}
    (hP : ∀ s v r, P s → s.tw.wstate ≠ .done → nextBit s.br = .bit v r →
      (s.tb.node (childOf s.tb s.tw.cur v)).kind ≠ .leaf → (s.tb.node (childOf s.tb s.tw.cur v)).kind ≠ .dummy →
      P { s with br := r, tw := { s.tw with cur := childOf s.tb s.tw.cur v } })
    (n : Nat) {s : Block} (hs : P s) : P (descend n s) := by
  induction n generalizing s with
  | zero => exact hs
  | succ n ih =>
    unfold descend
    split
    · next t r h =>
      split
      · next hr =>
        obtain ⟨hd, v, b, hn, rfl, hl, hu, -⟩ := dstepRule_silent h hr
        exact ih (hP s v b hs hd hn hl hu)
      · exact hs
    · exact hs

/-- A step's change to the units: a command's, or none for an illegal word (R77). -/
theorem step_moved {s t : State} (h : step s = .next t) :
    ∃ i u, Moved i s.toBlock u ∧ t.fc = u.fc ∧ t.hc = u.hc ∧ t.tb = u.tb ∧ t.ct = u.ct ∧
      t.bw = u.bw ∧ t.br = u.br ∧ t.tw = u.tw := by
  obtain ⟨w, rest, -, rfl, ⟨i, -, e⟩ | ⟨_, -, e⟩⟩ := step_cases h
  · obtain ⟨u, hm, h | ⟨-, k, info, h⟩⟩ := answer_moved i s.toBlock <;>
      exact ⟨i, u, hm, by simp [e, h]⟩
  · exact ⟨.nop, _, .same .., by simp [e]⟩

end Sys2Proof.Machine
end

