-- ==== Sys2Proof/Laws/FrequencyTable.lean ====
section
/-! SUPPORT. The sums of the frequency table (40_frequency_counter.md R90): how one written entry changes them, that they
fit their registers, and that the two updates of the table keep them. -/

namespace Sys2Proof.Machine

/-- One entry of a list replaced: the count of the keys. -/
theorem countP_set_add {α : Type} (p : α → Bool) (e : α) :
    ∀ (l : List α) (k : Nat) (h : k < l.length),
      (l.set k e).countP p + (p l[k]).toNat = l.countP p + (p e).toNat
  | a :: l, 0, _ => by
    simp only [List.set_cons_zero, List.countP_cons, List.getElem_cons_zero]
    cases p a <;> cases p e <;> simp
  | a :: l, k + 1, h => by
    have := countP_set_add p e l k (by simpa using h)
    simp only [List.set_cons_succ, List.countP_cons, List.getElem_cons_succ]
    omega

/-- One entry of a list replaced: the sum. -/
theorem sum_map_set_add {α : Type} (g : α → Nat) (e : α) :
    ∀ (l : List α) (k : Nat) (h : k < l.length),
      ((l.set k e).map g).sum + g l[k] = (l.map g).sum + g e
  | a :: l, 0, _ => by simp only [List.set_cons_zero, List.map_cons, List.sum_cons, List.getElem_cons_zero]; omega
  | a :: l, k + 1, h => by
    have := sum_map_set_add g e l k (by simpa using h)
    simp only [List.set_cons_succ, List.map_cons, List.sum_cons, List.getElem_cons_succ]
    omega

theorem FC.keyCount_setEntry (f : FC) (b : Byte) (e : FreqEntry) :
    (f.setEntry b e).keyCount + (f.entry b).pres.toNat = f.keyCount + e.pres.toNat := by
  have := countP_set_add FreqEntry.pres e f.table.toList b.toNat (by simpa using b.isLt)
  simp only [FC.keyCount, FC.setEntry, FC.entry, Vector.toList_set]
  simpa only [Vector.getElem_toList] using this

theorem FC.freqSum_setEntry (f : FC) (b : Byte) (e : FreqEntry) :
    (f.setEntry b e).freqSum + (f.entry b).freq.toNat = f.freqSum + e.freq.toNat := by
  have := sum_map_set_add (fun e : FreqEntry => e.freq.toNat) e f.table.toList b.toNat (by simpa using b.isLt)
  simpa [FC.freqSum, FC.setEntry, FC.entry, Vector.toList_set] using this

theorem FC.keyCount_le (f : FC) : f.keyCount ≤ 256 := by
  have := List.countP_le_length (p := FreqEntry.pres) (l := f.table.toList)
  simpa [FC.keyCount] using this

/-- The sum of all counts fits 40 bits (R90). -/
theorem FC.freqSum_le (f : FC) : f.freqSum ≤ 256 * 0xFFFFFFFF := by
  have h : ∀ l : List FreqEntry, (l.map fun e => e.freq.toNat).sum ≤ l.length * 0xFFFFFFFF := by
    intro l
    induction l with
    | nil => simp
    | cons e l ih =>
      have := e.freq.isLt
      simp only [List.map_cons, List.sum_cons, List.length_cons]
      omega
  simpa [FC.freqSum] using h f.table.toList

/-- A key's count is one term of the sum. -/
theorem FC.freq_le_freqSum (f : FC) (b : Byte) : (f.entry b).freq.toNat ≤ f.freqSum := by
  have := f.freqSum_setEntry b ⟨false, 0⟩
  simp only [BitVec.ofNat_eq_ofNat, BitVec.toNat_ofNat, Nat.zero_mod] at this
  omega

/-- The entries after a pair is entered (R91). -/
theorem entry_enterPair (f : FC) (b c : Byte) (n : CountWord) :
    (enterPair f b n).entry c = if c = b then ⟨true, n⟩ else f.entry c := by
  rw [FC.entry_congr (f := enterPair f b n) (g := f.setEntry b ⟨true, n⟩) rfl]
  split
  · next e => rw [e, FC.entry_setEntry_self]
  · next e => rw [FC.entry_setEntry_ne _ _ e]

/-- The entries after a byte is counted (R92). -/
theorem entry_countByte (f : FC) (b c : Byte) :
    (countByte f b).entry c = if c = b then ⟨true, (f.entry b).freq + 1⟩ else f.entry c := by
  rw [FC.entry_congr (f := countByte f b) (g := f.setEntry b ⟨true, (f.entry b).freq + 1⟩) rfl]
  split
  · next e => rw [e, FC.entry_setEntry_self]
  · next e => rw [FC.entry_setEntry_ne _ _ e]

/-- At reset no entry counts. -/
theorem FC.Ok.reset : FC.reset.Ok := by
  refine ⟨by decide +kernel, ?_, fun b _ => by rw [FC.entry_reset]; rfl⟩
  have : ∀ n, ((List.replicate n FreqEntry.reset).map fun e => e.freq.toNat).sum = 0 := by
    intro n
    rw [List.map_replicate, List.sum_replicate]
    rfl
  rw [FC.freqSum, FC.reset, Vector.toList_replicate, this]
  rfl

/-- The sums after one entry is replaced by a key with a count no smaller (R90). -/
theorem FC.Ok.of_set {f g : FC} (h : f.Ok) {b : Byte} {n : CountWord} (htab : g.table = (f.setEntry b ⟨true, n⟩).table)
    (hn : g.nsym = if (f.entry b).pres then f.nsym else f.nsym + 1) (hle : (f.entry b).freq.toNat ≤ n.toNat)
    (htot : g.total.toNat = (f.total.toNat + (n.toNat - (f.entry b).freq.toNat)) % 2 ^ 40) : g.Ok := by
  have hk := f.keyCount_setEntry b ⟨true, n⟩
  have hs := f.freqSum_setEntry b ⟨true, n⟩
  have ek : g.keyCount = (f.setEntry b ⟨true, n⟩).keyCount := by simp only [FC.keyCount, htab]
  have es : g.freqSum = (f.setEntry b ⟨true, n⟩).freqSum := by simp only [FC.freqSum, htab]
  have l1 := g.keyCount_le
  have l2 := g.freqSum_le
  have h1 := h.nsym
  have h2 := h.total
  rw [← ek] at hk
  rw [← es] at hs
  dsimp only at hs
  refine ⟨?_, by omega, fun c hc => ?_⟩
  · rw [hn]
    have et : (FreqEntry.mk true n).pres.toNat = 1 := rfl
    rw [et] at hk
    cases hp : (f.entry b).pres <;> rw [hp] at hk
    · rw [if_neg (by decide)]
      rw [Bool.toNat_false] at hk
      have : (f.nsym + 1).toNat = (f.nsym.toNat + 1) % 512 := rfl
      omega
    · rw [if_pos rfl]
      rw [Bool.toNat_true] at hk
      omega
  · rw [FC.entry_congr htab] at hc ⊢
    by_cases e : c = b
    · subst e; rw [FC.entry_setEntry_self] at hc; cases hc
    · rw [FC.entry_setEntry_ne _ _ e] at hc ⊢; exact h.absent c hc

/-- Entering a new key keeps the sums (R91). -/
theorem FC.Ok.enterPair {f : FC} (h : f.Ok) {b : Byte} (hb : (f.entry b).pres = false) (n : CountWord) :
    (enterPair f b n).Ok := by
  refine h.of_set (b := b) (n := n) rfl (by rw [hb]; rfl) ?_ ?_
  · rw [h.absent b hb]; exact Nat.zero_le _
  · rw [h.absent b hb]
    have : (zext40 n).toNat = n.toNat := by
      have := n.isLt
      simp only [zext40, BitVec.toNat_setWidth]; omega
    simp only [Machine.enterPair, BitVec.toNat_add, this]
    rfl

/-- Counting a byte whose count is not at its top keeps the sums (R92). -/
theorem FC.Ok.countByte {f : FC} (h : f.Ok) {b : Byte} (hb : (f.entry b).freq ≠ 0xFFFFFFFF) :
    (countByte f b).Ok := by
  have hne : (f.entry b).freq.toNat ≠ 0xFFFFFFFF := fun e => hb (BitVec.eq_of_toNat_eq e)
  have hlt := (f.entry b).freq.isLt
  have e1 : ((f.entry b).freq + 1).toNat = (f.entry b).freq.toNat + 1 := by
    have : ((f.entry b).freq + 1).toNat = ((f.entry b).freq.toNat + 1) % 2 ^ 32 := rfl
    omega
  refine h.of_set (b := b) (n := (f.entry b).freq + 1) rfl rfl (by omega) ?_
  have e2 : (Machine.countByte f b).total.toNat = (f.total.toNat + 1) % 2 ^ 40 := rfl
  rw [e2, e1, Nat.add_sub_cancel_left]

end Sys2Proof.Machine
end

