-- ==== Sys2Proof/Laws/Queue.lean ====
section
/-! SUPPORT. The node arena and the queue (41_tree_builder.md R101, R102): the size and the weight of the queue under a
write, the scan, and ExtractMin. -/

namespace Sys2Proof.Machine

/-- Every slot is a leaf's, an internal node's, or the dummy's (R24, R26). -/
theorem nodeIdx_cases (i : NodeIdx) : (∃ b, i = leafIdx b) ∨ (∃ k, k < 255 ∧ i = intIdx k) ∨ i = 511 := by
  have hi := i.isLt
  by_cases h1 : i.toNat < 256
  · refine .inl ⟨BitVec.ofNat 8 i.toNat, BitVec.eq_of_toNat_eq ?_⟩
    simp only [leafIdx, BitVec.toNat_setWidth, BitVec.toNat_ofNat]
    omega
  · by_cases h2 : i.toNat < 511
    · refine .inr (.inl ⟨i.toNat - 256, by omega, BitVec.eq_of_toNat_eq ?_⟩)
      simp only [intIdx, BitVec.toNat_ofNat, Config.intBase]
      omega
    · exact .inr (.inr (BitVec.eq_of_toNat_eq (by show i.toNat = 511; omega)))

theorem leafIdx_toNat (b : Byte) : (leafIdx b).toNat = b.toNat := by
  have := b.isLt
  simp only [leafIdx, BitVec.toNat_setWidth]
  omega

theorem intIdx_toNat {k : Nat} (h : k < 255) : (intIdx k).toNat = 256 + k := by
  simp only [intIdx, BitVec.toNat_ofNat, Config.intBase]
  omega

theorem leafIdx_inj {b c : Byte} (h : leafIdx b = leafIdx c) : b = c := by
  apply BitVec.eq_of_toNat_eq
  rw [← leafIdx_toNat, h, leafIdx_toNat]

theorem leafIdx_ne_intIdx (b : Byte) {k : Nat} (h : k < 255) : leafIdx b ≠ intIdx k := by
  intro e
  have := congrArg BitVec.toNat e
  rw [leafIdx_toNat, intIdx_toNat h] at this
  have := b.isLt
  omega

theorem leafIdx_ne_dummy (b : Byte) : leafIdx b ≠ 511 := by
  intro e
  have := congrArg BitVec.toNat e
  rw [leafIdx_toNat] at this
  have h511 : (511 : NodeIdx).toNat = 511 := rfl
  have := b.isLt
  omega

theorem intIdx_ne_dummy {k : Nat} (h : k < 255) : intIdx k ≠ 511 := by
  intro e
  have := congrArg BitVec.toNat e
  rw [intIdx_toNat h] at this
  have h511 : (511 : NodeIdx).toNat = 511 := rfl
  omega

/-- The frequencies of the queue's nodes, added up (exactly). -/
def TB.weight (t : TB) : Nat := (t.nodes.toList.map fun n => n.active.toNat * n.freq.toNat).sum

theorem TB.size_setNode (t : TB) {i : NodeIdx} (h : i ≠ 511) (n : Node) :
    (t.setNode i n).size + (t.node i).active.toNat = t.size + n.active.toNat := by
  have hi := NodeIdx.toNat_lt_of_ne h
  have := countP_set_add Node.active n t.nodes.toList i.toNat (by simpa using hi)
  simp only [TB.size, TB.setNode, TB.node, hi, dif_pos, Vector.toList_set]
  simpa only [Vector.getElem_toList] using this

theorem TB.weight_setNode (t : TB) {i : NodeIdx} (h : i ≠ 511) (n : Node) :
    (t.setNode i n).weight + (t.node i).active.toNat * (t.node i).freq.toNat =
      t.weight + n.active.toNat * n.freq.toNat := by
  have hi := NodeIdx.toNat_lt_of_ne h
  have := sum_map_set_add (fun n : Node => n.active.toNat * n.freq.toNat) n t.nodes.toList i.toNat (by simpa using hi)
  simp only [TB.weight, TB.setNode, TB.node, hi, dif_pos, Vector.toList_set]
  simpa only [Vector.getElem_toList] using this

/-- The dummy is in no queue (R27). -/
theorem TB.ne_dummy_of_active {t : TB} {i : NodeIdx} (h : (t.node i).active = true) : i ≠ 511 := by
  rintro rfl
  simp [dummyNode] at h

theorem TB.size_eq_zero {t : TB} : t.size = 0 ↔ ∀ i, (t.node i).active = false := by
  simp only [TB.size, List.countP_eq_zero, Bool.not_eq_true]
  constructor
  · intro h i
    by_cases hi : i = 511
    · subst hi; simp [dummyNode]
    · have hi := NodeIdx.toNat_lt_of_ne hi
      simp only [TB.node, hi, dif_pos]
      exact h _ (by simp [Vector.getElem_mem])
  · intro h n hn
    obtain ⟨k, hk, rfl⟩ := List.getElem_of_mem hn
    have hk' : k < 511 := by simpa using hk
    have := h (BitVec.ofNat 9 k)
    rw [t.node_ofNat hk'] at this
    simpa only [Vector.getElem_toList] using this

/-- The scan of R102: nothing better than the best so far, or the first of the least frequency. -/
theorem minScan_spec : ∀ (ns : List Node) (i : Nat) (best : Option (Nat × SumWord)),
    (minScan ns i best = best ∧ ∀ k (h : k < ns.length), ns[k].active = true → ∃ p, best = some p ∧ p.2 ≤ ns[k].freq) ∨
    (∃ k, ∃ h : k < ns.length, ns[k].active = true ∧ minScan ns i best = some (i + k, ns[k].freq) ∧
      (∀ p, best = some p → ns[k].freq < p.2) ∧
      (∀ j (hj : j < ns.length), ns[j].active = true → j < k → ns[k].freq < ns[j].freq) ∧
      (∀ j (hj : j < ns.length), ns[j].active = true → k < j → ns[k].freq ≤ ns[j].freq))
  | [], i, best => .inl ⟨rfl, fun k h => by simp at h⟩
  | n :: ns, i, best => by
    by_cases hb : n.active = true ∧ ∀ p, best = some p → n.freq < p.2
    · have hs : minScan (n :: ns) i best = minScan ns (i + 1) (some (i, n.freq)) := by
        cases best with
        | none => simp only [minScan, hb.1, Bool.and_self, if_true]
        | some p => simp only [minScan, hb.1, hb.2 p rfl, decide_true, Bool.and_self, if_true]
      rw [hs]
      rcases minScan_spec ns (i + 1) (some (i, n.freq)) with ⟨h1, h2⟩ | ⟨k, hk, ha, h1, h2, h3, h4⟩
      · refine .inr ⟨0, by simp, hb.1, h1, hb.2, fun j _ _ hj => absurd hj (Nat.not_lt_zero _), ?_⟩
        intro j hj haj h0
        obtain ⟨j, rfl⟩ : ∃ m, j = m + 1 := ⟨j - 1, by omega⟩
        obtain ⟨p, hp, hle⟩ := h2 j (by simpa using hj) haj
        cases hp
        exact hle
      · have hlt : ns[k].freq < n.freq := h2 _ rfl
        refine .inr ⟨k + 1, by simpa using hk, ha, ?_, ?_, ?_, ?_⟩
        · rw [h1, Nat.add_assoc, Nat.add_comm 1]; rfl
        · intro p hp
          exact BitVec.lt_trans hlt (hb.2 p hp)
        · intro j hj haj hjk
          cases j with
          | zero => exact hlt
          | succ j => exact h3 j (by simpa using hj) haj (by omega)
        · intro j hj haj hjk
          cases j with
          | zero => omega
          | succ j => exact h4 j (by simpa using hj) haj (by omega)
    · have hs : minScan (n :: ns) i best = minScan ns (i + 1) best := by
        show minScan ns (i + 1) (if n.active && _ then _ else best) = _
        rw [if_neg]
        intro h
        rw [Bool.and_eq_true] at h
        refine hb ⟨h.1, ?_⟩
        rintro p rfl
        simpa using h.2
      have hn : n.active = true → ∃ p, best = some p ∧ p.2 ≤ n.freq := by
        intro ha
        by_contra hc
        refine hb ⟨ha, fun p hp => ?_⟩
        by_contra hlt
        exact hc ⟨p, hp, BitVec.not_lt.1 hlt⟩
      rw [hs]
      rcases minScan_spec ns (i + 1) best with ⟨h1, h2⟩ | ⟨k, hk, ha, h1, h2, h3, h4⟩
      · refine .inl ⟨h1, fun k hk hak => ?_⟩
        cases k with
        | zero => exact hn hak
        | succ k => exact h2 k (by simpa using hk) hak
      · refine .inr ⟨k + 1, by simpa using hk, ha, ?_, h2, ?_, ?_⟩
        · rw [h1, Nat.add_assoc, Nat.add_comm 1]; rfl
        · intro j hj haj hjk
          cases j with
          | zero =>
            obtain ⟨p, hp, hle⟩ := hn haj
            exact Nat.lt_of_lt_of_le (BitVec.lt_def.1 (h2 p hp)) (BitVec.le_def.1 hle)
          | succ j => exact h3 j (by simpa using hj) haj (by omega)
        · intro j hj haj hjk
          cases j with
          | zero => omega
          | succ j => exact h4 j (by simpa using hj) haj (by omega)

/-- The node of least key (R101, R102). -/
theorem TB.minActive_spec (t : TB) :
    (t.minActive = none ∧ ∀ i, (t.node i).active = false) ∨
    (∃ x, t.minActive = some x ∧ (t.node x).active = true ∧
      ∀ j, (t.node j).active = true → j ≠ x → t.keyLt x j) := by
  have slot : ∀ {i : NodeIdx}, (t.node i).active = true →
      ∃ h : i.toNat < t.nodes.toList.length, t.nodes.toList[i.toNat] = t.node i := by
    intro i ha
    have hi := NodeIdx.toNat_lt_of_ne (TB.ne_dummy_of_active ha)
    refine ⟨by simpa using hi, ?_⟩
    simp only [Vector.getElem_toList, TB.node, hi, dif_pos]
  rcases minScan_spec t.nodes.toList 0 none with ⟨h1, h2⟩ | ⟨k, hk, ha, h1, -, h3, h4⟩
  · refine .inl ⟨by simp only [TB.minActive, h1]; rfl, fun i => ?_⟩
    by_contra hne
    have ha : (t.node i).active = true := by simpa using hne
    obtain ⟨hl, e⟩ := slot ha
    obtain ⟨p, hp, -⟩ := h2 i.toNat hl (by rw [e]; exact ha)
    cases hp
  · have hk' : k < 511 := by simpa using hk
    have hx : (BitVec.ofNat 9 k).toNat = k := by rw [BitVec.toNat_ofNat]; omega
    have e : t.node (BitVec.ofNat 9 k) = t.nodes.toList[k] := by
      rw [t.node_ofNat hk', Vector.getElem_toList]
    refine .inr ⟨BitVec.ofNat 9 k, by simp only [TB.minActive, h1, Nat.zero_add]; rfl, by rw [e]; exact ha, ?_⟩
    intro j haj hne
    obtain ⟨hl, ej⟩ := slot haj
    have haj' : t.nodes.toList[j.toNat].active = true := by rw [ej]; exact haj
    have hne' : j.toNat ≠ k := by
      intro e'
      exact hne (BitVec.eq_of_toNat_eq (by rw [hx, e']))
    unfold TB.keyLt
    rw [e, ← ej]
    rcases Nat.lt_or_gt_of_ne hne' with hlt | hgt
    · exact .inl (h3 _ hl haj' hlt)
    · have hle := h4 _ hl haj' hgt
      by_cases heq : t.nodes.toList[k].freq = t.nodes.toList[j.toNat].freq
      · exact .inr ⟨heq, by rw [BitVec.lt_def, hx]; exact hgt⟩
      · left
        rw [BitVec.lt_def]
        have h1 := BitVec.le_def.1 hle
        have h2 : t.nodes.toList[k].freq.toNat ≠ t.nodes.toList[j.toNat].freq.toNat :=
          fun e => heq (BitVec.eq_of_toNat_eq e)
        omega

theorem TB.node_setActive (t : TB) {i : NodeIdx} (h : i ≠ 511) (v : Bool) (j : NodeIdx) :
    (t.setActive i v).node j = if j = i then { t.node i with active := v } else t.node j := t.node_setNode _ h

/-- ExtractMin (R102): the node of least key leaves the queue, and nothing else changes. -/
theorem TB.extractMin_spec {t : TB} (h : ∃ i, (t.node i).active = true) :
    ∃ x, t.extractMin = some (x, t.setActive x false) ∧ (t.node x).active = true ∧
      (∀ j, (t.node j).active = true → j ≠ x → t.keyLt x j) ∧ (t.setActive x false).size + 1 = t.size := by
  rcases t.minActive_spec with ⟨-, h1⟩ | ⟨x, hx, ha, hl⟩
  · obtain ⟨i, hi⟩ := h; rw [h1 i] at hi; cases hi
  · refine ⟨x, by simp only [TB.extractMin, hx], ha, hl, ?_⟩
    have := t.size_setNode (TB.ne_dummy_of_active ha) { t.node x with active := false }
    rw [ha] at this
    simpa [TB.setActive] using this

/-- ExtractMin on an empty queue (R102). -/
theorem TB.extractMin_none {t : TB} (h : ∀ i, (t.node i).active = false) : t.extractMin = none := by
  rcases t.minActive_spec with ⟨h1, -⟩ | ⟨x, -, ha, -⟩
  · simp only [TB.extractMin, h1]
  · rw [h x] at ha; cases ha

theorem TB.exists_active_of_size {t : TB} (h : t.size ≠ 0) : ∃ i, (t.node i).active = true := by
  by_contra hc
  refine h (TB.size_eq_zero.2 fun i => ?_)
  by_contra hi
  exact hc ⟨i, by simpa using hi⟩

end Sys2Proof.Machine
end

