-- ==== Sys2Proof/Laws/Tree.lean ====
section
/-! SUPPORT. BUILD (41_tree_builder.md R103 to R105): one merge, what holds between merges, and the tree at the end. -/

namespace Sys2Proof.Machine

/-! ## One merge -/

/-- The state of the arena after the two extractions of a merge. -/
def TB.without (t : TB) (x y : NodeIdx) : TB := (t.setActive x false).setActive y false

theorem TB.node_without (t : TB) {x y : NodeIdx} (hx : x ≠ 511) (hy : y ≠ 511) (j : NodeIdx) :
    (t.without x y).node j = if j = x ∨ j = y then { t.node j with active := false } else t.node j := by
  rw [TB.without, TB.node_setActive _ hy, TB.node_setActive _ hx, TB.node_setActive _ hx]
  by_cases h1 : j = y <;> by_cases h2 : j = x <;> simp_all

/-- One merge (R103): the two nodes of least key go under node 256 + k. -/
theorem mergeOnce_spec (k : Nat) {t : TB} (hs : 2 ≤ t.size) :
    ∃ x y, x ≠ y ∧ (t.node x).active = true ∧ (t.node y).active = true ∧
      (∀ j, (t.node j).active = true → j ≠ x → t.keyLt x j) ∧
      (∀ j, (t.node j).active = true → j ≠ x → j ≠ y → t.keyLt y j) ∧
      mergeOnce k t = (t.without x y).setNode (intIdx k)
        ⟨.internal, 0, (t.node x).freq + (t.node y).freq, x, y, true⟩ ∧
      (t.without x y).size + 2 = t.size := by
  obtain ⟨x, ex, hx, lx, sx⟩ := t.extractMin_spec (TB.exists_active_of_size (by omega))
  obtain ⟨y, ey, hy, ly, sy⟩ := (t.setActive x false).extractMin_spec (TB.exists_active_of_size (by omega))
  have hx511 := TB.ne_dummy_of_active hx
  have nd : ∀ j, (t.setActive x false).node j = if j = x then { t.node x with active := false } else t.node j :=
    t.node_setActive hx511 false
  have hyx : y ≠ x := by
    rintro rfl
    rw [nd, if_pos rfl] at hy
    cases hy
  have hy' : (t.node y).active = true := by rw [nd, if_neg hyx] at hy; exact hy
  have hy511 := TB.ne_dummy_of_active hy'
  have key : ∀ j, j ≠ x → ((t.setActive x false).keyLt y j ↔ t.keyLt y j) := by
    intro j hj
    simp only [TB.keyLt, nd, if_neg hj, if_neg hyx]
  refine ⟨x, y, hyx.symm, hx, hy', lx, fun j hj h1 h2 => ?_, ?_, by rw [TB.without]; omega⟩
  · exact (key j h1).1 (ly j (by rw [nd, if_neg h1]; exact hj) h2)
  · simp only [mergeOnce, ex, ey]
    have fx := t.node_without hx511 hy511 x
    have fy := t.node_without hx511 hy511 y
    rw [if_pos (.inl rfl)] at fx
    rw [if_pos (.inr rfl)] at fy
    show (t.without x y).setNode (intIdx k) (internalNode (t.without x y) x y) = _
    simp only [internalNode, fx, fy]

theorem node_mergeOnce {k : Nat} {t : TB} {x y : NodeIdx} {n : Node} (hk : k < 255)
    (hx : x ≠ 511) (hy : y ≠ 511)
    (j : NodeIdx) : ((t.without x y).setNode (intIdx k) n).node j =
      if j = intIdx k then n else if j = x ∨ j = y then { t.node j with active := false } else t.node j := by
  rw [TB.node_setNode _ _ (intIdx_ne_dummy hk), TB.node_without _ hx hy]

/-! ## Between merges -/

/-- What holds after the leaves are in and k merges are done (R103). -/
structure Merging (f : FC) (k : Nat) (t : TB) : Prop where
  /-- k counts the internal nodes; the slots are never used up. -/
  room : k ≤ 255
  /-- The leaves, in the queue or not. -/
  leaves : ∀ b, ({ t.node (leafIdx b) with active := false } : Node) =
    if (f.entry b).pres then ⟨.leaf, b, (f.entry b).freq.setWidth 40, 511, 511, false⟩ else .reset
  /-- The leaf slots of byte values that are no keys are not in the queue. -/
  absent : ∀ b, (f.entry b).pres = false → (t.node (leafIdx b)).active = false
  /-- The internal nodes made so far. -/
  internals : ∀ j, j < 255 →
    if j < k then (t.node (intIdx j)).kind = .internal ∧ (t.node (intIdx j)).sym = 0 else t.node (intIdx j) = .reset
  /-- Children come before their parent, are in the tree and not in the queue. -/
  children : ∀ i v, t.internal i → childOf t i v < i ∧ (t.node (childOf t i v)).kind ≠ .empty ∧
    (t.node (childOf t i v)).active = false ∧ childOf t i v ≠ 511
  /-- A node out of the queue has exactly one parent. -/
  parent : ∀ i, (t.node i).kind ≠ .empty → i ≠ 511 → (t.node i).active = false →
    ∃! p : NodeIdx × Bool, t.internal p.1 ∧ childOf t p.1 p.2 = i
  /-- An internal node's frequency is its children's sum, exactly. -/
  sums : ∀ i, t.internal i →
    (t.node i).freq.toNat = (t.node (t.node i).left).freq.toNat + (t.node (t.node i).right).freq.toNat
  /-- The queue's frequencies add up to the table's. -/
  weight : t.weight = f.freqSum
  /-- Each merge makes the queue smaller by one. -/
  count : t.size + k = f.keyCount
  /-- The node of the last merge is in the queue. -/
  last : 0 < k → (t.node (intIdx (k - 1))).active = true
  /-- Each merge took the two least nodes that were waiting. -/
  least : ∀ m, m < k → t.MergedLeast m

namespace Merging

variable {f : FC} {k : Nat} {t : TB}

/-- The nodes in the queue are leaves, or internal nodes made so far. -/
theorem active_kind (h : Merging f k t) {i : NodeIdx} (ha : (t.node i).active = true) :
    (t.node i).kind ≠ .empty ∧ i.toNat < 256 + k := by
  rcases nodeIdx_cases i with ⟨b, rfl⟩ | ⟨j, hj, rfl⟩ | rfl
  · have hl := h.leaves b
    have hb := b.isLt
    have hp : (f.entry b).pres = true := by
      by_contra hp
      rw [h.absent b (by simpa using hp)] at ha
      cases ha
    rw [if_pos hp] at hl
    have := congrArg Node.kind hl
    simp only at this
    rw [this, leafIdx_toNat]
    exact ⟨by simp, by omega⟩
  · have hi := h.internals j hj
    split at hi
    · next hjk => rw [hi.1, intIdx_toNat hj]; exact ⟨by simp, by omega⟩
    · rw [hi] at ha; cases ha
  · simp [dummyNode] at ha

/-- The slot of the next merge is unused. -/
theorem next_slot (h : Merging f k t) (hk : k < 255) : t.node (intIdx k) = .reset := by
  have := h.internals k hk
  rwa [if_neg (Nat.lt_irrefl k)] at this

/-- The nodes waiting for the next merge are those in the queue. -/
theorem waits_iff (h : Merging f k t) (hk : k < 255) (j : NodeIdx) : t.Waits k j ↔ (t.node j).active = true := by
  have hik := intIdx_toNat hk
  constructor
  · rintro ⟨h1, h2, h3⟩
    by_contra ha
    have h511 : j ≠ 511 := by
      rintro rfl
      have z : (511 : NodeIdx).toNat = 511 := rfl
      rw [BitVec.lt_def, hik, z] at h2
      omega
    obtain ⟨⟨p, v⟩, ⟨hp, hc⟩, -⟩ := h.parent j h1 h511 (by simpa using ha)
    have hp : (t.node p).kind = .internal := hp
    rcases nodeIdx_cases p with ⟨b, rfl⟩ | ⟨m, hm, rfl⟩ | rfl
    · have hl := congrArg Node.kind (h.leaves b)
      dsimp only at hl
      rw [hp] at hl
      split at hl <;> cases hl
    · have hi := h.internals m hm
      split at hi
      · next hmk => exact h3 m v hmk hc
      · rw [hi] at hp; cases hp
    · simp [dummyNode] at hp
  · intro ha
    obtain ⟨h1, h2⟩ := h.active_kind ha
    refine ⟨h1, by rw [BitVec.lt_def, hik]; exact h2, fun m v hm hc => ?_⟩
    have hi := h.internals m (by omega)
    rw [if_pos hm] at hi
    have := (h.children (intIdx m) v hi.1).2.2.1
    rw [hc, ha] at this
    cases this

/-- One more merge (R103). -/
theorem step (h : Merging f k t) (hs : 2 ≤ t.size) : Merging f (k + 1) (mergeOnce k t) := by
  have hk : k < 255 := by have := f.keyCount_le; have := h.count; omega
  obtain ⟨x, y, hxy, hx, hy, leastx, leasty, e, hsize⟩ := mergeOnce_spec k hs
  have hx511 := TB.ne_dummy_of_active hx
  have hy511 := TB.ne_dummy_of_active hy
  have hik := intIdx_toNat hk
  obtain ⟨kx, lx⟩ := h.active_kind hx
  obtain ⟨ky, ly⟩ := h.active_kind hy
  have xi : x ≠ intIdx k := fun e => by rw [e, hik] at lx; omega
  have yi : y ≠ intIdx k := fun e => by rw [e, hik] at ly; omega
  have nd := node_mergeOnce (t := t) (n := ⟨.internal, 0, (t.node x).freq + (t.node y).freq, x, y, true⟩) hk
    hx511 hy511
  rw [← e] at nd
  have free := h.next_slot hk
  have freek : (t.node (intIdx k)).kind = .empty := by rw [free]; rfl
  -- kinds and children elsewhere are as before
  have kind_eq : ∀ j, j ≠ intIdx k → ((mergeOnce k t).node j).kind = (t.node j).kind := by
    intro j hj; rw [nd, if_neg hj]; split <;> rfl
  have child_eq : ∀ j v, j ≠ intIdx k → childOf (mergeOnce k t) j v = childOf t j v := by
    intro j v hj; cases v <;> simp only [childOf_false, childOf_true, nd, if_neg hj] <;> split <;> rfl
  have freq_eq : ∀ j, j ≠ intIdx k → ((mergeOnce k t).node j).freq = (t.node j).freq := by
    intro j hj; rw [nd, if_neg hj]; split <;> rfl
  have child_new : ∀ v, childOf (mergeOnce k t) (intIdx k) v = if v then y else x := by
    intro v; cases v <;> simp only [childOf, nd, if_pos]
  have int_iff : ∀ j, j ≠ intIdx k → ((mergeOnce k t).internal j ↔ t.internal j) := by
    intro j hj; simp only [TB.internal, kind_eq j hj]
  have int_new : (mergeOnce k t).internal (intIdx k) := by simp only [TB.internal, nd, if_pos]
  have child_ne : ∀ i v, t.internal i → childOf t i v ≠ intIdx k := by
    intro i v hi e'
    exact (h.children i v hi).2.1 (by rw [e', freek])
  -- the weight
  have hwx := t.weight_setNode hx511 { t.node x with active := false }
  have hwy := (t.setActive x false).weight_setNode hy511 { (t.setActive x false).node y with active := false }
  have hwn := (t.without x y).weight_setNode (intIdx_ne_dummy hk)
    ⟨.internal, 0, (t.node x).freq + (t.node y).freq, x, y, true⟩
  have ny : (t.setActive x false).node y = t.node y := by rw [TB.node_setActive _ hx511, if_neg hxy.symm]
  have ni : (t.without x y).node (intIdx k) = .reset := by
    rw [TB.node_without _ hx511 hy511, if_neg (by rintro (e | e); exact xi e.symm; exact yi e.symm), free]
  have w1 : (t.setActive x false).weight + (t.node x).freq.toNat = t.weight := by
    simp only [hx, Bool.toNat_true, Bool.toNat_false, Nat.one_mul, Nat.zero_mul, Nat.add_zero] at hwx
    exact hwx
  have w2 : (t.without x y).weight + (t.node y).freq.toNat = (t.setActive x false).weight := by
    rw [ny] at hwy
    simp only [hy, Bool.toNat_true, Bool.toNat_false, Nat.one_mul, Nat.zero_mul, Nat.add_zero] at hwy
    have e2 : t.without x y = (t.setActive x false).setNode y { t.node y with active := false } := by
      rw [TB.without, TB.setActive, ny]
    rw [e2]
    exact hwy
  have hsum : ((t.node x).freq + (t.node y).freq).toNat = (t.node x).freq.toNat + (t.node y).freq.toNat := by
    have := f.freqSum_le
    have := h.weight
    rw [BitVec.toNat_add]
    omega
  have w3 : (mergeOnce k t).weight = (t.without x y).weight + ((t.node x).freq.toNat + (t.node y).freq.toNat) := by
    rw [ni, ← e] at hwn
    have z : Node.reset.active.toNat = 0 := rfl
    simp only [z, Bool.toNat_true, Nat.one_mul, Nat.zero_mul, Nat.add_zero, hsum] at hwn
    exact hwn
  have hsz := (t.without x y).size_setNode (intIdx_ne_dummy hk)
    ⟨.internal, 0, (t.node x).freq + (t.node y).freq, x, y, true⟩
  rw [ni, ← e] at hsz
  have sz : (mergeOnce k t).size = (t.without x y).size + 1 := hsz
  -- what waits for a merge up to this one, and the keys compared there, are as before
  have below : ∀ {m j}, m ≤ k → j < intIdx m → j ≠ intIdx k := by
    rintro m j hm hj rfl
    rw [BitVec.lt_def, hik, intIdx_toNat (by omega)] at hj
    omega
  have int_ne : ∀ {m}, m < k → intIdx m ≠ intIdx k := by
    intro m hm e'
    have := congrArg BitVec.toNat e'
    rw [intIdx_toNat (by omega), hik] at this
    omega
  have waits : ∀ {m j}, m ≤ k → ((mergeOnce k t).Waits m j ↔ t.Waits m j) := by
    intro m j hm
    have kids : (∀ q v, q < m → childOf (mergeOnce k t) (intIdx q) v ≠ j) ↔
        ∀ q v, q < m → childOf t (intIdx q) v ≠ j :=
      forall_congr' fun q => forall_congr' fun v => forall_congr' fun hq => by
        rw [child_eq _ v (int_ne (by omega))]
    unfold TB.Waits
    rw [kids]
    constructor
    · rintro ⟨h1, h2, h3⟩; exact ⟨by rwa [kind_eq j (below hm h2)] at h1, h2, h3⟩
    · rintro ⟨h1, h2, h3⟩; exact ⟨by rwa [kind_eq j (below hm h2)], h2, h3⟩
  have keys : ∀ {i j}, i ≠ intIdx k → j ≠ intIdx k → ((mergeOnce k t).keyLt i j ↔ t.keyLt i j) := by
    intro i j hi hj
    simp only [TB.keyLt, freq_eq i hi, freq_eq j hj]
  refine ⟨by omega, fun b => ?_, fun b hb => ?_, fun j hj => ?_, fun i v hi => ?_, fun i hi hi511 ha => ?_,
    fun i hi => ?_, ?_, ?_, fun _ => ?_, fun m hm => ?_⟩
  · rw [← h.leaves b, nd, if_neg (leafIdx_ne_intIdx b hk)]
    split <;> rfl
  · rw [nd, if_neg (leafIdx_ne_intIdx b hk)]
    split
    · rfl
    · exact h.absent b hb
  · have hij := h.internals j hj
    by_cases hjk : j = k
    · subst hjk
      rw [if_pos (Nat.lt_succ_self j), nd, if_pos rfl]
      exact ⟨rfl, rfl⟩
    · have hne : intIdx j ≠ intIdx k := by
        intro e'
        have := congrArg BitVec.toNat e'
        rw [intIdx_toNat hj, hik] at this
        omega
      by_cases hlt : j < k
      · rw [if_pos hlt] at hij
        rw [if_pos (by omega), kind_eq _ hne, nd, if_neg hne]
        refine ⟨hij.1, ?_⟩
        split <;> exact hij.2
      · rw [if_neg hlt] at hij
        rw [if_neg (by omega), nd, if_neg hne]
        split
        · rw [hij]; rfl
        · exact hij
  · by_cases hik' : i = intIdx k
    · subst hik'
      rw [child_new]
      cases v
      · refine ⟨?_, ?_, ?_, hx511⟩
        · rw [if_neg (by decide), BitVec.lt_def, hik]; exact lx
        · rw [if_neg (by decide), kind_eq _ xi]; exact kx
        · rw [if_neg (by decide), nd, if_neg xi, if_pos (.inl rfl)]
      · refine ⟨?_, ?_, ?_, hy511⟩
        · rw [if_pos rfl, BitVec.lt_def, hik]; exact ly
        · rw [if_pos rfl, kind_eq _ yi]; exact ky
        · rw [if_pos rfl, nd, if_neg yi, if_pos (.inr rfl)]
    · have hi' := (int_iff i hik').1 hi
      obtain ⟨c1, c2, c3, c4⟩ := h.children i v hi'
      have hne := child_ne i v hi'
      rw [child_eq i v hik']
      refine ⟨c1, by rw [kind_eq _ hne]; exact c2, ?_, c4⟩
      rw [nd, if_neg hne]
      split
      · rfl
      · exact c3
  · by_cases hik' : i = intIdx k
    · subst hik'
      rw [nd, if_pos rfl] at ha
      cases ha
    · rw [kind_eq i hik'] at hi
      by_cases hxy' : i = x ∨ i = y
      · have ha' : (t.node i).active = true := by rcases hxy' with rfl | rfl <;> assumption
        refine ⟨(intIdx k, decide (i = y)), ⟨int_new, ?_⟩, ?_⟩
        · rw [child_new]
          by_cases hiy : i = y
          · simp [hiy]
          · simp only [hiy, decide_false, Bool.false_eq_true, if_false]
            exact (hxy'.resolve_right hiy).symm
        · rintro ⟨p, v⟩ ⟨hp, hc⟩
          dsimp only at hp hc
          by_cases hpk : p = intIdx k
          · subst hpk
            rw [child_new] at hc
            cases v
            · simp only [Bool.false_eq_true, if_false] at hc
              have : i ≠ y := fun e' => hxy (hc.trans e')
              simp [this]
            · simp only [if_true] at hc
              simp [hc]
          · rw [child_eq p v hpk] at hc
            have := (h.children p v ((int_iff p hpk).1 hp)).2.2.1
            rw [hc, ha'] at this
            cases this
      · rw [nd, if_neg hik', if_neg hxy'] at ha
        obtain ⟨⟨p, v⟩, ⟨hp, hc⟩, hu⟩ := h.parent i hi hi511 ha
        have hpk : p ≠ intIdx k := by
          rintro rfl
          have : (t.node (intIdx k)).kind = .internal := hp
          rw [freek] at this
          cases this
        refine ⟨(p, v), ⟨(int_iff p hpk).2 hp, by rw [child_eq p v hpk]; exact hc⟩, ?_⟩
        rintro ⟨q, w⟩ ⟨hq, hc'⟩
        dsimp only at hq hc'
        have hqk : q ≠ intIdx k := by
          rintro rfl
          rw [child_new] at hc'
          cases w
          · exact hxy' (.inl hc'.symm)
          · exact hxy' (.inr hc'.symm)
        rw [child_eq q w hqk] at hc'
        exact hu (q, w) ⟨(int_iff q hqk).1 hq, hc'⟩
  · by_cases hik' : i = intIdx k
    · subst hik'
      have e1 : (mergeOnce k t).node (intIdx k) = ⟨.internal, 0, (t.node x).freq + (t.node y).freq, x, y, true⟩ := by
        rw [nd, if_pos rfl]
      rw [e1]
      simp only [freq_eq x xi, freq_eq y yi, hsum]
    · have hi' := (int_iff i hik').1 hi
      have hl : ((mergeOnce k t).node i).left = (t.node i).left := child_eq i false hik'
      have hr : ((mergeOnce k t).node i).right = (t.node i).right := child_eq i true hik'
      have cl : (t.node i).left ≠ intIdx k := child_ne i false hi'
      have cr : (t.node i).right ≠ intIdx k := child_ne i true hi'
      rw [freq_eq i hik', hl, hr, freq_eq _ cl, freq_eq _ cr]
      exact h.sums i hi'
  · rw [w3, ← h.weight]; omega
  · have := h.count; omega
  · rw [Nat.add_sub_cancel, nd, if_pos rfl]
  · by_cases hmk : m = k
    · subst hmk
      have hl : ((mergeOnce m t).node (intIdx m)).left = x := child_new false
      have hr : ((mergeOnce m t).node (intIdx m)).right = y := child_new true
      have w := fun j => (waits (j := j) (Nat.le_refl m)).trans (h.waits_iff hk j)
      constructor
      · rw [hl]; exact (w x).2 hx
      · rw [hr]; exact (w y).2 hy
      · rw [hl, hr]; exact (keys xi yi).2 (leastx y hy hxy.symm)
      · rw [hl, hr]
        exact fun j hj h1 h2 => (keys yi (below (Nat.le_refl m) hj.2.1)).2 (leasty j ((w j).1 hj) h1 h2)
    · have hlt : m < k := by omega
      have hm' := h.least m hlt
      have hl : ((mergeOnce k t).node (intIdx m)).left = (t.node (intIdx m)).left := child_eq _ false (int_ne hlt)
      have hr : ((mergeOnce k t).node (intIdx m)).right = (t.node (intIdx m)).right := child_eq _ true (int_ne hlt)
      have w := fun j => waits (j := j) (Nat.le_of_lt hlt)
      have bl := below (Nat.le_of_lt hlt) hm'.left.2.1
      have br := below (Nat.le_of_lt hlt) hm'.right.2.1
      constructor
      · rw [hl]; exact (w _).2 hm'.left
      · rw [hr]; exact (w _).2 hm'.right
      · rw [hl, hr]; exact (keys bl br).2 hm'.order
      · rw [hl, hr]
        exact fun j hj h1 h2 => (keys br (below (Nat.le_of_lt hlt) hj.2.1)).2 (hm'.least j ((w j).1 hj) h1 h2)

/-- The merge loop, run to its end (R103). -/
theorem loop : ∀ {fuel k : Nat} {t : TB}, Merging f k t → t.size ≤ fuel + 1 → 1 ≤ t.size →
    ∃ u, mergeLoop fuel k t = (f.keyCount - 1, u) ∧ Merging f (f.keyCount - 1) u ∧ u.size = 1
  | 0, k, t, h, hs, h1 => by
    have := h.count
    have e : k = f.keyCount - 1 := by omega
    subst e
    exact ⟨t, rfl, h, by omega⟩
  | fuel + 1, k, t, h, hs, h1 => by
    have := h.count
    unfold mergeLoop
    split
    · next h2 =>
      have h' := h.step h2
      have := h'.count
      exact loop h' (by omega) (by omega)
    · next h2 =>
      have e : k = f.keyCount - 1 := by omega
      subst e
      exact ⟨t, rfl, h, by omega⟩

end Merging

/-! ## The leaves -/

/-- The arena after the leaves of the entries from byte value b on are inserted (R103). -/
theorem insertLeaves_spec : ∀ (es : List FreqEntry) (b : Nat) (t : TB), b + es.length ≤ 256 →
    (∀ k, k < es.length → t.node (BitVec.ofNat 9 (b + k)) = .reset) →
    (∀ k, ∀ h : k < es.length, (insertLeaves es b t).node (BitVec.ofNat 9 (b + k)) =
      if es[k].pres then leafNode (BitVec.ofNat 8 (b + k)) es[k].freq else .reset) ∧
    (∀ j : NodeIdx, j.toNat < b ∨ b + es.length ≤ j.toNat → (insertLeaves es b t).node j = t.node j) ∧
    (insertLeaves es b t).size = t.size + es.countP FreqEntry.pres ∧
    (insertLeaves es b t).weight = t.weight + (es.map fun e => e.pres.toNat * e.freq.toNat).sum
  | [], b, t, _, _ => ⟨fun k h => absurd h (Nat.not_lt_zero k), fun _ _ => rfl, rfl, rfl⟩
  | e :: es, b, t, hb, hr => by
    simp only [List.length_cons] at hb hr ⊢
    have hbn : (BitVec.ofNat 9 b).toNat = b := by rw [BitVec.toNat_ofNat]; omega
    have hb511 : BitVec.ofNat 9 b ≠ 511 := by
      intro e'
      have h511 : (511 : NodeIdx).toNat = 511 := rfl
      rw [e', h511] at hbn
      omega
    have h0 : t.node (BitVec.ofNat 9 b) = .reset := by simpa using hr 0 (by omega)
    obtain ⟨u, hu, hnode, hsize, hweight⟩ : ∃ u, insertLeaves (e :: es) b t = insertLeaves es (b + 1) u ∧
        (∀ j, u.node j = if j = BitVec.ofNat 9 b then (if e.pres then leafNode (BitVec.ofNat 8 b) e.freq else .reset)
          else t.node j) ∧ u.size = t.size + e.pres.toNat ∧ u.weight = t.weight + e.pres.toNat * e.freq.toNat := by
      refine ⟨_, rfl, ?_⟩
      cases hp : e.pres
      · refine ⟨fun j => ?_, rfl, by simp⟩
        simp only [Bool.false_eq_true, if_false]
        split
        · next hj => rw [hj, h0]
        · rfl
      · simp only [if_true]
        refine ⟨fun j => t.node_setNode _ hb511, ?_, ?_⟩
        · have := t.size_setNode hb511 (leafNode (BitVec.ofNat 8 b) e.freq)
          rw [h0] at this
          exact this
        · have := t.weight_setNode hb511 (leafNode (BitVec.ofNat 8 b) e.freq)
          rw [h0] at this
          have hz : (zext40 e.freq).toNat = e.freq.toNat := by
            have := e.freq.isLt
            simp only [zext40, BitVec.toNat_setWidth]; omega
          have z : Node.reset.active.toNat = 0 := rfl
          simpa only [z, leafNode, hz, Nat.zero_mul, Nat.add_zero] using this
    obtain ⟨i1, i2, i3, i4⟩ := insertLeaves_spec es (b + 1) u (by omega) (by
      intro k hk
      rw [hnode, if_neg]
      · have := hr (k + 1) (by omega)
        rwa [show b + (k + 1) = b + 1 + k by omega] at this
      · intro e'
        have := congrArg BitVec.toNat e'
        rw [BitVec.toNat_ofNat, hbn] at this
        omega)
    rw [hu]
    refine ⟨fun k hk => ?_, fun j hj => ?_, ?_, ?_⟩
    · cases k with
      | zero =>
        show (insertLeaves es (b + 1) u).node (BitVec.ofNat 9 b) =
          if e.pres then leafNode (BitVec.ofNat 8 b) e.freq else _
        rw [i2 _ (by omega), hnode, if_pos rfl]
      | succ k =>
        rw [show b + (k + 1) = b + 1 + k by omega]
        exact i1 k (by simpa using hk)
    · rw [i2 j (by omega), hnode, if_neg]
      rintro rfl
      omega
    · rw [i3, hsize, List.countP_cons]
      cases e.pres
      · simp
      · simp; omega
    · rw [i4, hweight, List.map_cons, List.sum_cons]
      omega

/-- The arena BUILD's merges start from (R103): the leaves of the keys, all in the queue. -/
theorem insertLeaves_reset {f : FC} (hf : f.Ok) :
    Merging f 0 (insertLeaves f.table.toList 0 .reset) ∧
      ∀ b, (insertLeaves f.table.toList 0 .reset).node (leafIdx b) =
        if (f.entry b).pres then leafNode b (f.entry b).freq else .reset := by
  obtain ⟨i1, i2, i3, i4⟩ := insertLeaves_spec f.table.toList 0 .reset (by simp) (by
    intro k hk
    have hk' : k < 256 := by simpa using hk
    refine TB.node_reset fun e => ?_
    have := congrArg BitVec.toNat e
    have h511 : (511 : NodeIdx).toNat = 511 := rfl
    rw [BitVec.toNat_ofNat, h511] at this
    omega)
  have leaf : ∀ b, (insertLeaves f.table.toList 0 .reset).node (leafIdx b) =
      if (f.entry b).pres then leafNode b (f.entry b).freq else .reset := by
    intro b
    have hb : b.toNat < f.table.toList.length := by simpa using b.isLt
    have := i1 b.toNat hb
    rw [Nat.zero_add, BitVec.ofNat_toNat, BitVec.ofNat_toNat, BitVec.setWidth_eq] at this
    rw [Vector.getElem_toList] at this
    exact this
  have other : ∀ j, j < 255 → (insertLeaves f.table.toList 0 .reset).node (intIdx j) = .reset := by
    intro j hj
    rw [i2 _ (by right; rw [intIdx_toNat hj]; simp), TB.node_reset (intIdx_ne_dummy hj)]
  have size0 : TB.reset.size = 0 := TB.size_eq_zero.2 fun i => by
    by_cases hi : i = 511
    · subst hi; simp [dummyNode]
    · rw [TB.node_reset hi]; rfl
  have weight0 : TB.reset.weight = 0 := by
    rw [TB.weight, TB.reset, Vector.toList_replicate, List.map_replicate, List.sum_replicate]
    rfl
  have noint : ∀ i, ¬ (insertLeaves f.table.toList 0 .reset).internal i := by
    intro i hi
    unfold TB.internal at hi
    rcases nodeIdx_cases i with ⟨b, rfl⟩ | ⟨j, hj, rfl⟩ | rfl
    · rw [leaf] at hi; split at hi <;> cases hi
    · rw [other j hj] at hi; cases hi
    · simp [dummyNode] at hi
  refine ⟨⟨by omega, fun b => ?_, fun b hb => ?_, fun j hj => ?_, fun i v hi => absurd hi (noint i),
    fun i hi hi511 ha => ?_, fun i hi => absurd hi (noint i), ?_, ?_, fun h => absurd h (Nat.lt_irrefl 0),
    fun m hm => absurd hm (Nat.not_lt_zero m)⟩, leaf⟩
  · rw [leaf]; split <;> rfl
  · rw [leaf, if_neg (by rw [hb]; decide)]; rfl
  · rw [if_neg (Nat.not_lt_zero j), other j hj]
  · exfalso
    rcases nodeIdx_cases i with ⟨b, rfl⟩ | ⟨j, hj, rfl⟩ | rfl
    · rw [leaf] at hi ha; split at hi <;> simp_all [leafNode, Node.reset]
    · rw [other j hj] at hi; exact hi rfl
    · exact hi511 rfl
  · have e : f.table.toList.map (fun e => e.pres.toNat * e.freq.toNat) = f.table.toList.map fun e => e.freq.toNat := ?_
    · rw [i4, weight0, Nat.zero_add, FC.freqSum, e]
    apply List.map_congr_left
    intro e he
    obtain ⟨k, hk, rfl⟩ := List.getElem_of_mem he
    have hk' : k < 256 := by simpa using hk
    have := hf.absent (BitVec.ofNat 8 k)
    simp only [FC.entry, BitVec.toNat_ofNat, Nat.mod_eq_of_lt hk'] at this
    rw [Vector.getElem_toList]
    cases hp : f.table[k].pres
    · rw [this hp]; rfl
    · simp
  · rw [i3, size0]
    simp [FC.keyCount]

/-! ## The tree -/

/-- NSYM is at most 256. -/
theorem FC.Ok.nsym_le {f : FC} (h : f.Ok) : f.nsym.toNat ≤ 256 := by rw [h.nsym]; exact f.keyCount_le

theorem intIdx_pred {n : Nat} (h1 : 1 ≤ n) (h2 : n ≤ 255) : (BitVec.ofNat 9 (255 + n) : NodeIdx) = intIdx (n - 1) := by
  apply BitVec.eq_of_toNat_eq
  rw [BitVec.toNat_ofNat, intIdx_toNat (by omega)]
  omega

/-- The tree of two keys or more (R103, R104). -/
theorem built_of_merging {f : FC} {t : TB} (hf : f.Ok) (h2 : 2 ≤ f.keyCount) (h : Merging f (f.keyCount - 1) t)
    (hs : t.size = 1) :
    TB.Built f { t with
      root := BitVec.ofNat 9 (255 + (f.keyCount - 1)), nint := BitVec.ofNat 8 (f.keyCount - 1), treeValid := true } := by
  have hc := f.keyCount_le
  have hroot := intIdx_pred (n := f.keyCount - 1) (by omega) (by omega)
  have hlt : f.keyCount - 1 - 1 < 255 := by omega
  have hnint : (BitVec.ofNat 8 (f.keyCount - 1)).toNat = f.keyCount - 1 := by rw [BitVec.toNat_ofNat]; omega
  have hra := h.last (by omega)
  have only : ∀ i, (t.node i).active = true ↔ i = intIdx (f.keyCount - 1 - 1) := by
    intro i
    constructor
    · intro ha
      by_contra hne
      have h1 := t.size_setNode (TB.ne_dummy_of_active ha) { t.node i with active := false }
      have h2 := (t.setActive i false).size_setNode (intIdx_ne_dummy hlt)
        { (t.setActive i false).node (intIdx (f.keyCount - 1 - 1)) with active := false }
      rw [TB.node_setActive _ (TB.ne_dummy_of_active ha), if_neg (Ne.symm hne), hra] at h2
      rw [ha] at h1
      have e1 : (t.setActive i false).size + 1 = t.size := h1
      have e2 := h2
      simp only [Bool.toNat_true, Bool.toNat_false] at e2
      omega
    · rintro rfl; exact hra
  have hweight : t.weight = (t.node (intIdx (f.keyCount - 1 - 1))).freq.toNat := by
    have h1 := t.weight_setNode (intIdx_ne_dummy hlt)
      { t.node (intIdx (f.keyCount - 1 - 1)) with active := false }
    have h2 : (t.setActive (intIdx (f.keyCount - 1 - 1)) false).weight = 0 := by
      rw [TB.weight]
      apply List.sum_eq_zero
      intro n hn
      obtain ⟨m, hm, rfl⟩ := List.mem_map.1 hn
      obtain ⟨j, hj, rfl⟩ := List.getElem_of_mem hm
      have hj' : j < 511 := by simpa using hj
      rw [Vector.getElem_toList, ← TB.node_ofNat _ hj', TB.node_setActive _ (intIdx_ne_dummy hlt)]
      split
      · simp
      · next hne =>
        have : (t.node (BitVec.ofNat 9 j)).active = false := by
          by_contra ha
          exact hne ((only _).1 (by simpa using ha))
        rw [this]; simp
    rw [hra] at h1
    have h1' : (t.setActive (intIdx (f.keyCount - 1 - 1)) false).weight +
        (t.node (intIdx (f.keyCount - 1 - 1))).freq.toNat = t.weight := by
      simp only [Bool.toNat_true, Bool.toNat_false, Nat.one_mul, Nat.zero_mul, Nat.add_zero] at h1
      exact h1
    omega
  have kindRoot : (t.node (intIdx (f.keyCount - 1 - 1))).kind = .internal := by
    have := h.internals _ hlt
    rw [if_pos (by omega)] at this
    exact this.1
  constructor
  · intro e
    have := hf.nsym
    rw [e] at this
    have z : (0 : BitVec 9).toNat = 0 := rfl
    omega
  · rw [hnint, hf.nsym]; omega
  · show (BitVec.ofNat 9 (255 + (f.keyCount - 1)) : NodeIdx).toNat = 255 + (BitVec.ofNat 8 (f.keyCount - 1)).toNat
    rw [hnint, BitVec.toNat_ofNat]
    omega
  · intro b
    have ha : (t.node (leafIdx b)).active = false := by
      by_contra ha
      exact leafIdx_ne_intIdx b hlt ((only _).1 (by simpa using ha))
    rw [TB.node_withTree, ← h.leaves b]
    cases hn : t.node (leafIdx b)
    rw [hn] at ha
    simp_all
  · intro k hk
    rw [hnint]
    exact h.internals k hk
  · intro i v hi
    obtain ⟨c1, c2, -, -⟩ := h.children i v hi
    exact ⟨.inr c1, c2⟩
  · intro i hi hir hi511
    refine h.parent i hi hi511 ?_
    by_contra ha
    refine hir ?_
    show i = BitVec.ofNat 9 (255 + (f.keyCount - 1))
    rw [hroot]
    exact (only i).1 (by simpa using ha)
  · intro i v hi e
    have e' : childOf t i v = intIdx (f.keyCount - 1 - 1) := e.trans hroot
    have := (h.children i v hi).2.2.1
    rw [e', hra] at this
    cases this
  · intro i v hi e
    exact absurd e (h.children i v hi).2.2.2
  · exact h.sums
  · show (t.node (BitVec.ofNat 9 (255 + (f.keyCount - 1)))).freq = f.total
    rw [hroot]
    apply BitVec.eq_of_toNat_eq
    rw [hf.total, ← h.weight, hweight]
  · intro i
    show (t.node i).active = true ↔ i = BitVec.ofNat 9 (255 + (f.keyCount - 1))
    rw [hroot]
    exact only i
  · intro _ k hk
    have hk : k < f.keyCount - 1 := by rw [← hnint]; exact hk
    exact ⟨(h.least k hk).left, (h.least k hk).right, (h.least k hk).order, (h.least k hk).least⟩

/-- The one-symbol merge (R105): the only leaf goes under node 256, with the dummy on the right. -/
theorem mergeSingle_spec {f : FC} {t : TB} (h : Merging f 0 t) (hs : t.size = 1) :
    ∃ b u, mergeSingle t = (1, u) ∧ (f.entry b).pres = true ∧ (t.node (leafIdx b)).active = true ∧
      (∀ c, (f.entry c).pres = true → (t.node (leafIdx c)).active = true → c = b) ∧
      ∀ j, u.node j = if j = intIdx 0 then ⟨.internal, 0, (t.node (leafIdx b)).freq, leafIdx b, 511, true⟩
        else if j = leafIdx b then { t.node j with active := false } else t.node j := by
  obtain ⟨x, ex, hx, -, hsz⟩ := t.extractMin_spec (TB.exists_active_of_size (by omega))
  have hz := TB.size_eq_zero.1 (show (t.setActive x false).size = 0 by omega)
  have hx511 := TB.ne_dummy_of_active hx
  have lx := (h.active_kind hx).2
  rcases nodeIdx_cases x with ⟨b, rfl⟩ | ⟨j, hj, rfl⟩ | rfl
  · have hp : (f.entry b).pres = true := by
      by_contra hp
      rw [h.absent b (by simpa using hp)] at hx
      cases hx
    refine ⟨b, _, by simp only [mergeSingle, ex]; rfl, hp, hx, fun c _ hc => ?_, fun j => ?_⟩
    · by_contra hne
      have := hz (leafIdx c)
      rw [TB.node_setActive _ hx511, if_neg fun e => hne (leafIdx_inj e), hc] at this
      cases this
    · show ((t.setActive (leafIdx b) false).setNode (intIdx 0) _).node j = _
      have n1 := t.node_setActive hx511 false
      have e1 : internalNode (t.setActive (leafIdx b) false) (leafIdx b) Config.dummyIdx =
          ⟨.internal, 0, (t.node (leafIdx b)).freq, leafIdx b, 511, true⟩ := by
        have d : (t.setActive (leafIdx b) false).node 511 = dummyNode := TB.node_dummy _
        have e2 : (t.setActive (leafIdx b) false).node (leafIdx b) = { t.node (leafIdx b) with active := false } := by
          rw [n1, if_pos rfl]
        simp only [internalNode, Config.dummyIdx, d, e2]
        congr 1
        exact BitVec.add_zero _
      rw [e1, TB.node_setNode _ _ (intIdx_ne_dummy (by omega)), n1]
      split
      · rfl
      · split
        · next e => rw [e]
        · rfl
  · rw [intIdx_toNat hj] at lx; omega
  · exact absurd rfl hx511

/-- The tree of one key (R105). -/
theorem built_of_single {f : FC} {t u : TB} {b : Byte} (hf : f.Ok) (h1 : f.keyCount = 1) (h : Merging f 0 t)
    (hs : t.size = 1) (hp : (f.entry b).pres = true) (hb : (t.node (leafIdx b)).active = true)
    (hu : ∀ j, u.node j = if j = intIdx 0 then ⟨.internal, 0, (t.node (leafIdx b)).freq, leafIdx b, 511, true⟩
        else if j = leafIdx b then { t.node j with active := false } else t.node j) :
    TB.Built f { u with root := 256, nint := 1, treeValid := true } := by
  have n1 : f.nsym = 1 := BitVec.eq_of_toNat_eq (by rw [hf.nsym, h1]; rfl)
  have i0 : intIdx 0 = 256 := rfl
  have hbi : leafIdx b ≠ intIdx 0 := leafIdx_ne_intIdx b (by omega)
  have hbl : (leafIdx b).toNat < 256 := by rw [leafIdx_toNat]; exact b.isLt
  have t256 : (256 : NodeIdx).toNat = 256 := rfl
  -- only b's leaf is in the queue before, and there is no internal node
  have hz : ∀ j, j ≠ leafIdx b → (t.node j).active = false := by
    intro j hj
    have e := t.size_setNode (leafIdx_ne_dummy b) { t.node (leafIdx b) with active := false }
    rw [hb] at e
    have e' : (t.setActive (leafIdx b) false).size + 1 = t.size := e
    have := TB.size_eq_zero.1 (show (t.setActive (leafIdx b) false).size = 0 by omega) j
    rwa [TB.node_setActive _ (leafIdx_ne_dummy b), if_neg hj] at this
  have noint : ∀ i, ¬ t.internal i := by
    intro i hi
    unfold TB.internal at hi
    rcases nodeIdx_cases i with ⟨c, rfl⟩ | ⟨j, hj, rfl⟩ | rfl
    · have := congrArg Node.kind (h.leaves c)
      dsimp only at this
      rw [hi] at this
      split at this <;> cases this
    · have := h.internals j hj
      rw [if_neg (Nat.not_lt_zero j)] at this
      rw [this] at hi; cases hi
    · simp [dummyNode] at hi
  have int_iff : ∀ i, u.internal i ↔ i = 256 := by
    intro i
    simp only [TB.internal, hu]
    constructor
    · intro hi
      by_contra hne
      rw [if_neg (by rw [i0]; exact hne)] at hi
      split at hi <;> exact noint i hi
    · rintro rfl; rw [if_pos i0.symm]
  have u256 : u.node 256 = ⟨.internal, 0, (t.node (leafIdx b)).freq, leafIdx b, 511, true⟩ := by
    rw [hu, if_pos i0.symm]
  have ub : u.node (leafIdx b) = { t.node (leafIdx b) with active := false } := by
    rw [hu, if_neg hbi, if_pos rfl]
  have leafb := h.leaves b
  rw [if_pos hp] at leafb
  have d511 : u.node 511 = dummyNode := TB.node_dummy u
  have hfreq : (t.node (leafIdx b)).freq.toNat = f.freqSum := by
    have e := t.weight_setNode (leafIdx_ne_dummy b) { t.node (leafIdx b) with active := false }
    have z : (t.setActive (leafIdx b) false).weight = 0 := by
      rw [TB.weight]
      apply List.sum_eq_zero
      intro n hn
      obtain ⟨m, hm, rfl⟩ := List.mem_map.1 hn
      obtain ⟨j, hj, rfl⟩ := List.getElem_of_mem hm
      have hj' : j < 511 := by simpa using hj
      rw [Vector.getElem_toList, ← TB.node_ofNat _ hj', TB.node_setActive _ (leafIdx_ne_dummy b)]
      split
      · simp
      · next hne => rw [hz _ hne]; simp
    rw [hb] at e
    have e' : (t.setActive (leafIdx b) false).weight + (t.node (leafIdx b)).freq.toNat = t.weight := by
      simp only [Bool.toNat_true, Bool.toNat_false, Nat.one_mul, Nat.zero_mul, Nat.add_zero] at e
      exact e
    have := h.weight
    omega
  have kids : ∀ i v, u.internal i → i = 256 ∧ childOf u i v = if v then 511 else leafIdx b := by
    intro i v hi
    have := (int_iff i).1 hi
    subst this
    refine ⟨rfl, ?_⟩
    cases v <;> simp only [childOf, u256]
  constructor
  · rw [n1]; decide
  · rw [n1]; rfl
  · rfl
  · intro c
    rw [TB.node_withTree, hu, if_neg (leafIdx_ne_intIdx c (by omega)), ← h.leaves c]
    split
    · rfl
    · next hne =>
      have := hz (leafIdx c) hne
      cases hn : t.node (leafIdx c)
      rw [hn] at this
      simp_all
  · intro k hk
    have e1 : (1 : Byte).toNat = 1 := rfl
    rw [TB.node_withTree]
    split
    · next hk1 =>
      have hk1 : k < 1 := hk1
      have : k = 0 := by omega
      subst this
      rw [i0, u256]
      exact ⟨rfl, rfl⟩
    · next hk1 =>
      have hk1 : ¬ k < 1 := hk1
      have := h.internals k hk
      rw [if_neg (Nat.not_lt_zero k)] at this
      rw [hu, if_neg, if_neg (leafIdx_ne_intIdx b hk).symm, this]
      intro e
      have := congrArg BitVec.toNat e
      rw [intIdx_toNat hk, intIdx_toNat (by omega)] at this
      omega
  · intro i v hi
    obtain ⟨rfl, hc⟩ := kids i v hi
    have hc' : childOf u 256 v = _ := hc
    show (childOf u 256 v = 511 ∨ childOf u 256 v < 256) ∧ (u.node (childOf u 256 v)).kind ≠ .empty
    rw [hc']
    cases v
    · rw [if_neg (by decide)]
      refine ⟨.inr (by rw [BitVec.lt_def, t256]; exact hbl), ?_⟩
      rw [ub]
      have := congrArg Node.kind leafb
      dsimp only at this ⊢
      rw [this]
      decide
    · rw [if_pos rfl]
      exact ⟨.inl rfl, by rw [d511]; decide⟩
  · intro i hi hir hi511
    have hi : (u.node i).kind ≠ .empty := hi
    have hir : i ≠ 256 := hir
    have hib : i = leafIdx b := by
      by_contra hne
      rw [hu, if_neg (by rw [i0]; exact hir), if_neg hne] at hi
      rcases nodeIdx_cases i with ⟨c, rfl⟩ | ⟨j, hj, rfl⟩ | rfl
      · have hl := congrArg Node.kind (h.leaves c)
        dsimp only at hl
        have hc : (f.entry c).pres = true := by
          by_contra hc
          rw [if_neg hc] at hl
          exact hi hl
        have e1 := f.keyCount_setEntry b ⟨false, 0⟩
        have e2 := (f.setEntry b ⟨false, 0⟩).keyCount_setEntry c ⟨false, 0⟩
        have hcb : c ≠ b := fun e => hne (by rw [e])
        rw [FC.entry_setEntry_ne _ _ hcb, hc] at e2
        rw [hp] at e1
        simp only [Bool.toNat_true, Bool.toNat_false] at e1 e2
        omega
      · have := h.internals j hj
        rw [if_neg (Nat.not_lt_zero j)] at this
        exact hi (by rw [this]; rfl)
      · exact hi511 rfl
    subst hib
    refine ⟨(256, false), ⟨(int_iff 256).2 rfl, (kids 256 false ((int_iff 256).2 rfl)).2⟩, ?_⟩
    rintro ⟨q, w⟩ ⟨hq, hc⟩
    have hq : u.internal q := hq
    have hc : childOf u q w = leafIdx b := hc
    obtain ⟨rfl, hk⟩ := kids q w hq
    rw [hk] at hc
    cases w
    · rfl
    · rw [if_pos rfl] at hc; exact absurd hc.symm (leafIdx_ne_dummy b)
  · intro i v hi e
    have e : childOf u i v = 256 := e
    obtain ⟨rfl, hk⟩ := kids i v hi
    rw [hk] at e
    cases v
    · rw [if_neg (by decide)] at e
      rw [e, t256] at hbl
      omega
    · rw [if_pos rfl] at e; exact absurd e (by decide)
  · intro i v hi e
    exact n1
  · intro i hi
    obtain ⟨rfl, -⟩ := kids i false hi
    have fb : (u.node (leafIdx b)).freq = (t.node (leafIdx b)).freq := by rw [ub]
    simp only [TB.node_withTree, u256, d511, fb]
    rfl
  · show (u.node 256).freq = f.total
    rw [u256]
    apply BitVec.eq_of_toNat_eq
    rw [hf.total, ← hfreq]
  · intro i
    show (u.node i).active = true ↔ i = 256
    rw [hu]
    by_cases hi : i = 256
    · rw [if_pos (by rw [i0]; exact hi)]; simp [hi]
    · rw [if_neg (by rw [i0]; exact hi)]
      split
      · exact ⟨fun h => absurd h (by simp), fun h => absurd h hi⟩
      · next hne => rw [hz i hne]; exact ⟨fun h => absurd h (by simp), fun h => absurd h hi⟩
  · exact fun h => absurd n1 h

/-- BUILD's tree (R103 to R105). -/
theorem buildTree_built {f : FC} (hf : f.Ok) (hn : f.nsym ≠ 0) : TB.Built f (buildTree f .reset) := by
  obtain ⟨hm, -⟩ := insertLeaves_reset hf
  have hc := hm.count
  have hle := f.keyCount_le
  have hn0 : f.keyCount ≠ 0 := by
    intro e
    exact hn (BitVec.eq_of_toNat_eq (by rw [hf.nsym, e]; rfl))
  by_cases h1 : f.nsym = 1
  · have hk1 : f.keyCount = 1 := by rw [← hf.nsym, h1]; rfl
    obtain ⟨b, u, e, hp, hb, -, hu⟩ := mergeSingle_spec hm (by omega)
    have := built_of_single hf hk1 hm (by omega) hp hb hu
    simp only [buildTree, grow, if_pos h1, e]
    exact this
  · have hk1 : f.keyCount ≠ 1 := by
      intro e
      exact h1 (BitVec.eq_of_toNat_eq (by rw [hf.nsym, e]; rfl))
    obtain ⟨u, e, hu, hs⟩ := hm.loop (fuel := (insertLeaves f.table.toList 0 .reset).size) (by omega) (by omega)
    have := built_of_merging hf (by omega) hu hs
    simp only [buildTree, grow, if_neg h1, e]
    exact this

end Sys2Proof.Machine
end

