-- ==== Sys2Proof/Laws/Writer.lean ====
section
/-! SUPPORT. The bits of a byte in stream order and the writer (43_bitstream_writer.md R127, R131): one bit, and a code,
added to the bits the writer has accepted. -/

namespace Sys2Proof.Machine

@[simp] theorem byteBits_length (b : Byte) : (byteBits b).length = 8 := by simp [byteBits]

@[simp] theorem byteBits_getElem (b : Byte) {k : Nat} (h : k < (byteBits b).length) :
    (byteBits b)[k] = b.getLsbD (7 - k) := by simp [byteBits]

/-- A byte's bits are the byte. -/
theorem byteBits_inj {b c : Byte} (h : byteBits b = byteBits c) : b = c := by
  apply BitVec.eq_of_getLsbD_eq
  intro k hk
  have := congrArg (fun l => l[7 - k]?) h
  simpa [byteBits, show 7 - k < 8 by omega, show 7 - (7 - k) = k by omega] using this

/-- The buffer with a bit added: the bits it holds, the new one, zeros (R127). -/
theorem byteBits_addBit {w : BW} (h : w.Ok) (v : Bool) :
    byteBits (addBit w v) = (byteBits w.wbuf).take w.wcnt.toNat ++ v :: List.replicate (7 - w.wcnt.toNat) false := by
  have hc := w.wcnt.isLt
  have hbit : ∀ j, (zext8 v).getLsbD j = (v && decide (j = 0)) := by
    intro j
    cases v <;> cases j with
    | zero => rfl
    | succ j => simp [zext8]
  apply List.ext_getElem
  · simp; omega
  · intro k h1 h2
    have hk : k < 8 := by simpa using h1
    rw [byteBits_getElem, addBit, BitVec.getLsbD_or, BitVec.getLsbD_shiftLeft, hbit]
    rw [List.getElem_append]
    split
    · next h3 =>
      have h3 : k < w.wcnt.toNat := by simp at h3; omega
      have : ¬ 7 - k - (7 - w.wcnt.toNat) = 0 := by omega
      rw [List.getElem_take, byteBits_getElem]
      simp [this]
    · next h3 =>
      have h3 : w.wcnt.toNat ≤ k := by simp at h3; omega
      rw [h (7 - k) (by omega)]
      have hl : min w.wcnt.toNat (byteBits w.wbuf).length = w.wcnt.toNat := by simp; omega
      rw [List.getElem_cons]
      simp only [List.length_take, hl]
      split
      · next h4 =>
        have : k = w.wcnt.toNat := by omega
        subst this
        simp; omega
      · next h4 => simp; omega

/-- The number of bits the writer has accepted. -/
theorem BW.bits_length (w : BW) : w.bits.length = 8 * w.sink.length + w.wcnt.toNat := by
  have h : ∀ l : List Byte, (l.flatMap byteBits).length = 8 * l.length := by
    intro l
    induction l with
    | nil => rfl
    | cons b l ih => simp only [List.flatMap_cons, List.length_append, ih, byteBits_length, List.length_cons]; omega
  have hc := w.wcnt.isLt
  simp only [BW.bits, List.length_append, h, List.length_take, byteBits_length]
  omega

theorem BW.Ok.of_empty {w : BW} (h : w.wbuf = 0) : w.Ok := by
  intro k _
  rw [h]
  simp

/-- WCNT counted up, below 7. -/
theorem wcnt_succ {n : BitVec 3} (h : n ≠ 7) : (n + 1).toNat = n.toNat + 1 := by
  have h1 := n.isLt
  have h2 : n.toNat ≠ 7 := fun e => h (BitVec.eq_of_toNat_eq e)
  have : (n + 1).toNat = (n.toNat + 1) % 8 := rfl
  omega

/-- One bit written (R127): the accepted bits grow by it, and the buffer stays padded. -/
theorem writeBit_bits {w w' : BW} {v : Bool} (hw : w.Ok) (h : writeBit w v = .ok w') :
    w'.bits = w.bits ++ [v] ∧ w'.Ok := by
  have hadd := byteBits_addBit hw v
  have hc := w.wcnt.isLt
  rcases writeBit_ok h with ⟨h7, rfl⟩ | ⟨h7, -, rfl⟩
  · have hs := wcnt_succ h7
    have h7' : w.wcnt.toNat ≠ 7 := fun e => h7 (BitVec.eq_of_toNat_eq e)
    have hl : ((byteBits w.wbuf).take w.wcnt.toNat).length = w.wcnt.toNat := by simp; omega
    constructor
    · simp only [BW.bits, hs, hadd, List.append_assoc]
      rw [List.take_append, hl]
      simp [List.take_take]
    · intro k hk
      have hk : k < 8 - (w.wcnt + 1).toNat := hk
      rw [hs] at hk
      have e : (addBit w v).getLsbD k = (byteBits (addBit w v))[7 - k]'(by simp; omega) := by
        rw [byteBits_getElem]; congr 1; omega
      show (addBit w v).getLsbD k = false
      rw [e]
      simp only [hadd]
      rw [List.getElem_append_right (by simp; omega), List.getElem_cons]
      rw [dif_neg (by simp; omega)]
      simp
  · have h7' : w.wcnt.toNat = 7 := by rw [h7]; rfl
    refine ⟨?_, .of_empty rfl⟩
    simp only [BW.bits, List.flatMap_append, List.flatMap_cons, List.flatMap_nil, List.append_nil, hadd, h7',
      List.append_assoc]
    simp

/-- When a bit can be written (R126, R127). -/
theorem writeBit_next {w : BW} (v : Bool) (h : w.wcnt ≠ 7 ∨ w.snkFail = false) : ∃ w', writeBit w v = .ok w' := by
  by_cases h7 : w.wcnt = 7
  · have hf : w.snkFail = false := h.resolve_left (fun e => e h7)
    exact ⟨_, by simp only [writeBit, h7, sinkPut, hf, if_true]; rfl⟩
  · exact ⟨_, by simp only [writeBit, h7, if_false]; rfl⟩

/-- A code written (R156): the accepted bits grow by it. -/
theorem writeBits_bits {w w' : BW} {vs : List Bool} (hw : w.Ok) (h : writeBits w vs = .ok w') :
    w'.bits = w.bits ++ vs ∧ w'.Ok := by
  induction vs generalizing w with
  | nil => cases h; exact ⟨by simp, hw⟩
  | cons v vs ih =>
    unfold writeBits at h
    split at h
    · next w1 h1 =>
      obtain ⟨e1, o1⟩ := writeBit_bits hw h1
      obtain ⟨e2, o2⟩ := ih o1 h
      exact ⟨by simp [e2, e1], o2⟩
    · cases h

/-- The bytes put and the bits left pending after a code (R156). -/
theorem writeBits_counts {w w' : BW} {vs : List Bool} (hw : w.Ok) (h : writeBits w vs = .ok w') :
    w'.sink.length = w.sink.length + (w.wcnt.toNat + vs.length) / 8 ∧
      w'.wcnt.toNat = (w.wcnt.toNat + vs.length) % 8 := by
  have e := congrArg List.length (writeBits_bits hw h).1
  have h1 := w.bits_length
  have h2 := w'.bits_length
  have c1 := w.wcnt.isLt
  have c2 := w'.wcnt.isLt
  rw [List.length_append] at e
  omega

/-- When a code can be written (R156): no byte is put, or the sink takes it. -/
theorem writeBits_next {w : BW} {vs : List Bool} (h : (w.wcnt.toNat + vs.length) / 8 = 0 ∨ w.snkFail = false) :
    ∃ w', writeBits w vs = .ok w' := by
  induction vs generalizing w with
  | nil => exact ⟨w, rfl⟩
  | cons v vs ih =>
    rw [List.length_cons] at h
    have h7 : w.wcnt ≠ 7 ∨ w.snkFail = false := by
      rcases h with h | h
      · left; rintro e; rw [e] at h
        have : (7 : BitVec 3).toNat = 7 := rfl
        omega
      · exact .inr h
    obtain ⟨w1, h1⟩ := writeBit_next v h7
    have : (w1.wcnt.toNat + vs.length) / 8 = 0 ∨ w1.snkFail = false := by
      rw [(writeBit_frame h1).2.2]
      rcases h with h | h
      · left
        rcases writeBit_ok h1 with ⟨hn, rfl⟩ | ⟨hn, -, rfl⟩
        · have := wcnt_succ hn
          simp only [this]
          omega
        · rw [hn] at h
          have : (7 : BitVec 3).toNat = 7 := rfl
          omega
      · exact .inr h
    obtain ⟨w', h'⟩ := ih this
    exact ⟨w', by simp only [writeBits, h1, h']⟩

@[simp] theorem CodeEntry.code_length (e : CodeEntry) : e.code.length = e.len.toNat := by simp [CodeEntry.code]

/-- The buffer stays padded with zeros, whatever the command does (R32, R48.5). -/
theorem Moved.keeps_padding {i : Instr} {s t : Block} (h : Moved i s t) (hs : s.bw.Ok) : t.bw.Ok := by
  cases h with
  | reset => exact .of_empty rfl
  | wbit _ h => exact (writeBit_bits hs h).2
  | enc _ _ _ h => exact (writeBits_bits hs h).2
  | closePadded => exact .of_empty rfl
  | dec n hw h =>
    obtain ⟨b, c, e, -⟩ := descend_frame n s
    rw [e] at h
    cases h <;> exact hs
  | _ => exact hs

end Sys2Proof.Machine
end

