-- ==== Sys2Proof/Laws/Codes.lean ====
section
/-! SUPPORT. Paths in the tree (30_encoding.md R79) and GENCODE (42_code_table.md R116, R117): where a path leads, how
long it can be, and what the loop over the internal nodes assigns. -/

namespace Sys2Proof.Machine

/-! ## Paths -/

theorem TB.follow_append (t : TB) : ∀ (p q : List Bool) (i : NodeIdx),
    t.follow i (p ++ q) = (t.follow i p).bind fun j => t.follow j q
  | [], q, i => rfl
  | v :: p, q, i => by
    simp only [List.cons_append, TB.follow]
    split
    · exact t.follow_append p q _
    · rfl

/-- A path one branch longer (R79). -/
theorem TB.follow_snoc {t : TB} {p : List Bool} {r i : NodeIdx} (h : t.follow r p = some i) (hi : t.internal i)
    (v : Bool) : t.follow r (p ++ [v]) = some (childOf t i v) := by
  have hk : (t.node i).kind = .internal := hi
  rw [TB.follow_append, h]
  simp only [Option.bind_some, TB.follow, hk, if_true]

/-- No branch leaves a node that is not internal. -/
theorem TB.follow_stop {t : TB} {i j : NodeIdx} {p : List Bool} (hi : ¬ t.internal i) (h : t.follow i p = some j) :
    p = [] ∧ i = j := by
  cases p with
  | nil => exact ⟨rfl, by simpa [TB.follow] using h⟩
  | cons v p =>
    unfold TB.follow at h
    rw [if_neg (show ¬ (t.node i).kind = .internal from hi)] at h
    cases h

namespace TB.Built

variable {f : FC} {t : TB}

/-- An internal node's slot (R24). -/
theorem internal_idx (h : TB.Built f t) {i : NodeIdx} (hi : t.internal i) :
    ∃ k, k < t.nint.toNat ∧ i = intIdx k ∧ i.toNat = 256 + k := by
  unfold TB.internal at hi
  have hn := t.nint.isLt
  rcases nodeIdx_cases i with ⟨b, rfl⟩ | ⟨k, hk, rfl⟩ | rfl
  · rw [h.leaves b] at hi
    split at hi <;> cases hi
  · have := h.internals k hk
    split at this
    · next hlt => exact ⟨k, hlt, rfl, intIdx_toNat hk⟩
    · rw [this] at hi; cases hi
  · simp [dummyNode] at hi

/-- The internal nodes are those made (R24, R28). -/
theorem internal_intIdx (h : TB.Built f t) {k : Nat} (hk : k < t.nint.toNat) : t.internal (intIdx k) := by
  have hn := t.nint.isLt
  have := h.internals k (by omega)
  rw [if_pos hk] at this
  exact this.1

/-- The root is the last internal node made (R28). -/
theorem root_idx (h : TB.Built f t) : 1 ≤ t.nint.toNat ∧ t.root = intIdx (t.nint.toNat - 1) := by
  have h1 := h.nint
  have h2 := h.root
  have hn := t.nint.isLt
  have h1' : 1 ≤ t.nint.toNat := by omega
  refine ⟨h1', BitVec.eq_of_toNat_eq ?_⟩
  rw [h2, intIdx_toNat (by omega)]
  omega

/-- The root is an internal node (R28, R104). -/
theorem root_internal (h : TB.Built f t) : t.internal t.root := by
  obtain ⟨h1, e⟩ := h.root_idx
  rw [e]
  exact h.internal_intIdx (by omega)

/-- The leaf of a key (R103). -/
theorem leaf_kind (h : TB.Built f t) {b : Byte} (hb : (f.entry b).pres = true) :
    (t.node (leafIdx b)).kind = .leaf ∧ (t.node (leafIdx b)).sym = b := by
  rw [h.leaves b, if_pos hb]
  exact ⟨rfl, rfl⟩

/-- A node that is a leaf is the leaf of a key (R24, R103). -/
theorem leaf_idx (h : TB.Built f t) {i : NodeIdx} (hi : (t.node i).kind = .leaf) :
    ∃ b, i = leafIdx b ∧ (f.entry b).pres = true := by
  have hn := t.nint.isLt
  rcases nodeIdx_cases i with ⟨b, rfl⟩ | ⟨k, hk, rfl⟩ | rfl
  · refine ⟨b, rfl, ?_⟩
    rw [h.leaves b] at hi
    split at hi
    · assumption
    · cases hi
  · have := h.internals k hk
    split at this
    · rw [this.1] at hi; cases hi
    · rw [this] at hi; cases hi
  · simp [dummyNode] at hi

/-- A path of one branch or more is no longer than its start allows: every branch goes to a smaller index (R104 b). -/
theorem follow_length (h : TB.Built f t) : ∀ {p : List Bool} {i j : NodeIdx}, p ≠ [] → t.follow i p = some j →
    p.length + 255 ≤ i.toNat
  | [], _, _, hp, _ => absurd rfl hp
  | v :: p, i, j, _, hf => by
    unfold TB.follow at hf
    split at hf
    · next hi =>
      obtain ⟨k, -, -, hk⟩ := h.internal_idx hi
      by_cases hp : p = []
      · subst hp
        simp only [List.length_cons, List.length_nil]
        omega
      · have ih := follow_length h hp hf
        have hc : t.internal (childOf t i v) := by
          by_contra hc
          exact hp (TB.follow_stop hc hf).1
        have hlt : childOf t i v < i := by
          rcases (h.children i v hi).1 with e | hlt
          · rw [e] at hc
            unfold TB.internal at hc
            simp [dummyNode] at hc
          · exact hlt
        have := BitVec.lt_def.1 hlt
        simp only [List.length_cons]
        omega
    · cases hf

/-- A path from the root has at most 255 branches (R29, R117). -/
theorem root_path_length (h : TB.Built f t) {p : List Bool} {j : NodeIdx} (hf : t.follow t.root p = some j) :
    p.length ≤ 255 := by
  by_cases hp : p = []
  · subst hp; simp
  · have := h.follow_length hp hf
    have := h.root
    have := t.nint.isLt
    omega

end TB.Built

/-! ## Code entries -/

theorem packPath_getLsbD : ∀ (p : List Bool) (k : Nat), k < 255 → (packPath p).getLsbD k = p.getD k false
  | [], k, _ => by simp [packPath]
  | v :: p, 0, _ => by
    simp only [packPath, BitVec.getLsbD_or, BitVec.getLsbD_shiftLeft]
    cases v <;> rfl
  | v :: p, k + 1, h => by
    have ih := packPath_getLsbD p k (by omega)
    simp only [packPath, BitVec.getLsbD_or, BitVec.getLsbD_shiftLeft, List.getD_cons_succ, ← ih]
    have hv : ((BitVec.ofBool v).setWidth 255).getLsbD (k + 1) = false := by
      rw [BitVec.getLsbD_setWidth, BitVec.getLsbD_of_ge _ _ (by omega)]
      simp
    rw [hv]
    simp [h]

theorem codeEntry_len {p : List Bool} (h : p.length ≤ 255) : (codeEntry p).len.toNat = p.length := by
  simp only [codeEntry, BitVec.toNat_ofNat]
  omega

/-- The code of a path is the path (R29, R120). -/
theorem codeEntry_code {p : List Bool} (h : p.length ≤ 255) : (codeEntry p).code = p := by
  apply List.ext_getElem
  · rw [CodeEntry.code_length, codeEntry_len h]
  · intro k h1 h2
    simp only [CodeEntry.code, List.getElem_map, List.getElem_range]
    show (packPath p).getLsbD k = p[k]
    rw [packPath_getLsbD p k (by omega), List.getD_eq_getElem _ _ h2]

/-- Bits at and above the length are 0 (R29). -/
theorem codeEntry_above {p : List Bool} {k : Nat} (h : p.length ≤ k) : (codeEntry p).bits.getLsbD k = false := by
  by_cases hk : k < 255
  · show (packPath p).getLsbD k = false
    rw [packPath_getLsbD p k hk, List.getD_eq_default _ _ h]
  · exact BitVec.getLsbD_of_ge _ _ (by omega)

/-! ## The loop -/

/-- The number of entries that hold a code. -/
def CT.codeCount (c : CT) : Nat := c.table.toList.countP CodeEntry.valid

theorem CT.codeCount_setEntry (c : CT) (b : Byte) (e : CodeEntry) :
    (c.setEntry b e).codeCount + (c.entry b).valid.toNat = c.codeCount + e.valid.toNat := by
  have := countP_set_add CodeEntry.valid e c.table.toList b.toNat (by simpa using b.isLt)
  simp only [CT.codeCount, CT.setEntry, CT.entry, Vector.toList_set]
  simpa only [Vector.getElem_toList] using this

/-- What holds when the edges in `D` are handled (R116). -/
structure Assigned (t : TB) (D : NodeIdx → Bool → Prop) (g : CodeGen) : Prop where
  /-- PATH[ROOT] is empty. -/
  root : g.path t.root = []
  /-- A handled internal node's PATH is its path. -/
  paths : ∀ i v, t.internal i → D i v → t.internal (childOf t i v) →
    t.follow t.root (g.path (childOf t i v)) = some (childOf t i v)
  /-- A handled leaf's entry is its path. -/
  codes : ∀ i v b, t.internal i → D i v → childOf t i v = leafIdx b →
    ∃ p, p ≠ [] ∧ t.follow t.root p = some (leafIdx b) ∧ g.ct.entry b = codeEntry p
  /-- Any other entry is as at reset. -/
  others : ∀ b, (∀ i v, t.internal i → D i v → childOf t i v ≠ leafIdx b) → g.ct.entry b = .reset
  /-- The count is the number of codes. -/
  count : g.count = g.ct.codeCount

/-- One edge handled (R116). -/
theorem Assigned.edge {f : FC} {t : TB} {D : NodeIdx → Bool → Prop} {g : CodeGen} (hB : TB.Built f t)
    (h : Assigned t D g) {i : NodeIdx} {v : Bool} {p : List Bool} (hi : t.internal i) (hD : ¬ D i v)
    (hp : t.follow t.root p = some i) :
    Assigned t (fun a w => D a w ∨ (a = i ∧ w = v)) (assignCode t g (childOf t i v) (p ++ [v])) := by
  have hroot := hB.rootTop i v hi
  have hfol := TB.follow_snoc hp hi v
  have hkind := (hB.children i v hi).2
  -- an edge handled before leads elsewhere
  have other : ∀ a w, t.internal a → D a w → childOf t i v ≠ 511 → childOf t a w ≠ childOf t i v := by
    intro a w ha hd h511 e
    obtain ⟨q, -, hu⟩ := hB.parent (childOf t i v) hkind hroot h511
    have h1 := hu (a, w) ⟨ha, e⟩
    have h2 := hu (i, v) ⟨hi, rfl⟩
    have h3 : (a, w) = (i, v) := h1.trans h2.symm
    cases h3
    exact hD hd
  unfold assignCode
  split
  · next hk =>
    obtain ⟨b, hb, hpres⟩ := hB.leaf_idx hk
    have hsym : (t.node (childOf t i v)).sym = b := by rw [hb]; exact (hB.leaf_kind hpres).2
    have h511 : childOf t i v ≠ 511 := by rw [hb]; exact leafIdx_ne_dummy b
    have hnot : ¬ t.internal (childOf t i v) := by unfold TB.internal; rw [hk]; simp
    have hold : g.ct.entry b = .reset := h.others b fun a w ha hd => by
      rw [← hb]; exact other a w ha hd h511
    rw [hsym]
    refine ⟨h.root, fun a w ha hd hc => ?_, fun a w c ha hd hc => ?_, fun c hc => ?_, ?_⟩
    · rcases hd with hd | ⟨rfl, rfl⟩
      · exact h.paths a w ha hd hc
      · exact absurd hc hnot
    · rcases hd with hd | ⟨rfl, rfl⟩
      · have hcb : c ≠ b := by
          rintro rfl
          exact other a w ha hd h511 (hc.trans hb.symm)
        obtain ⟨q, h1, h2, h3⟩ := h.codes a w c ha hd hc
        exact ⟨q, h1, h2, by rw [CT.entry_setEntry_ne _ _ hcb]; exact h3⟩
      · obtain rfl := leafIdx_inj (hb.symm.trans hc)
        exact ⟨p ++ [w], by simp, by rw [hfol, hb], CT.entry_setEntry_self _ _ _⟩
    · have hcb : c ≠ b := by
        rintro rfl
        exact hc i v hi (.inr ⟨rfl, rfl⟩) hb
      rw [CT.entry_setEntry_ne _ _ hcb]
      exact h.others c fun a w ha hd => hc a w ha (.inl hd)
    · have := g.ct.codeCount_setEntry b (codeEntry (p ++ [v]))
      rw [hold] at this
      have z1 : CodeEntry.reset.valid.toNat = 0 := rfl
      have z2 : (codeEntry (p ++ [v])).valid.toNat = 1 := rfl
      show g.count + 1 = (g.ct.setEntry b (codeEntry (p ++ [v]))).codeCount
      rw [h.count]
      omega
  · next hk =>
    have h511 : childOf t i v ≠ 511 := by
      intro e; rw [e] at hk; simp [dummyNode] at hk
    have lookup : ∀ j, CodeGen.path { g with paths := (childOf t i v, p ++ [v]) :: g.paths } j =
        if j = childOf t i v then p ++ [v] else g.path j := by
      intro j
      simp only [CodeGen.path, List.lookup_cons]
      split
      · next e => rw [beq_iff_eq] at e; rw [if_pos e]; rfl
      · next e => rw [if_neg (by simpa using e)]
    have notleaf : ∀ c, childOf t i v ≠ leafIdx c := by
      intro c e
      rw [e, hB.leaves c] at hk
      split at hk <;> cases hk
    refine ⟨?_, fun a w ha hd hc => ?_, fun a w c ha hd hc => ?_, fun c hc => ?_, h.count⟩
    · rw [lookup, if_neg hroot.symm]; exact h.root
    · rw [lookup]
      rcases hd with hd | ⟨rfl, rfl⟩
      · rw [if_neg (other a w ha hd h511)]; exact h.paths a w ha hd hc
      · rw [if_pos rfl]; exact hfol
    · rcases hd with hd | ⟨rfl, rfl⟩
      · exact h.codes a w c ha hd hc
      · exact absurd hc (notleaf c)
    · exact h.others c fun a w ha hd => hc a w ha (.inl hd)
  all_goals
    next hk =>
    have notint : ¬ t.internal (childOf t i v) := by unfold TB.internal; rw [hk]; simp
    have notleaf : ∀ c, (f.entry c).pres = true → childOf t i v ≠ leafIdx c := by
      intro c hc e
      rw [e, (hB.leaf_kind hc).1] at hk
      cases hk
    have notleaf' : ∀ c, childOf t i v ≠ leafIdx c := by
      intro c e
      by_cases hc : (f.entry c).pres = true
      · exact notleaf c hc e
      · have := hB.leaves c
        rw [if_neg hc] at this
        exact hkind (by rw [e, this]; rfl)
    refine ⟨h.root, fun a w ha hd hc => ?_, fun a w c ha hd hc => ?_, fun c hc => ?_, h.count⟩
    · rcases hd with hd | ⟨rfl, rfl⟩
      · exact h.paths a w ha hd hc
      · exact absurd hc notint
    · rcases hd with hd | ⟨rfl, rfl⟩
      · exact h.codes a w c ha hd hc
      · exact absurd hc (notleaf' c)
    · exact h.others c fun a w ha hd => hc a w ha (.inl hd)

/-- The handled edges of a set with the same members. -/
theorem Assigned.congr {t : TB} {D D' : NodeIdx → Bool → Prop} {g : CodeGen} (h : Assigned t D g)
    (e : ∀ i v, t.internal i → (D' i v ↔ D i v)) : Assigned t D' g :=
  ⟨h.root, fun i v hi hd => h.paths i v hi ((e i v hi).1 hd), fun i v b hi hd => h.codes i v b hi ((e i v hi).1 hd),
    fun b hb => h.others b fun i v hi hd => hb i v hi ((e i v hi).2 hd), h.count⟩

/-- One internal node visited (R116). -/
theorem Assigned.visit {f : FC} {t : TB} {n : Nat} {g : CodeGen} (hB : TB.Built f t) (hn : n < t.nint.toNat)
    (h : Assigned t (fun i _ => 256 + (n + 1) ≤ i.toNat) g) :
    Assigned t (fun i _ => 256 + n ≤ i.toNat) (visitNode t g (intIdx n)) := by
  have hlt := t.nint.isLt
  have hi := hB.internal_intIdx hn
  have hidx : (intIdx n).toNat = 256 + n := intIdx_toNat (by omega)
  -- PATH of the node is its path
  have hp : t.follow t.root (g.path (intIdx n)) = some (intIdx n) := by
    by_cases hr : intIdx n = t.root
    · rw [hr, h.root]; rfl
    · have hk : (t.node (intIdx n)).kind = .internal := hi
      obtain ⟨⟨q, w⟩, ⟨hq, hc⟩, -⟩ := hB.parent (intIdx n) (by rw [hk]; simp) hr (intIdx_ne_dummy (by omega))
      have hq : t.internal q := hq
      have hc : childOf t q w = intIdx n := hc
      have hlt : intIdx n < q := by
        rcases (hB.children q w hq).1 with e | e
        · rw [hc] at e; exact absurd e (intIdx_ne_dummy (by omega))
        · rw [hc] at e; exact e
      have := BitVec.lt_def.1 hlt
      have := h.paths q w hq (by omega) (by rw [hc]; exact hi)
      rwa [hc] at this
  have h1 := h.edge hB (v := false) hi (by show ¬ 256 + (n + 1) ≤ (intIdx n).toNat; omega) hp
  have h2 := h1.edge hB (v := true) hi (by
    rintro (e | ⟨-, e⟩)
    · have e : 256 + (n + 1) ≤ (intIdx n).toNat := e
      omega
    · cases e) hp
  refine h2.congr fun i v hi' => ?_
  have hiff : i = intIdx n ↔ i.toNat = 256 + n := by
    constructor
    · rintro rfl; exact hidx
    · intro e; exact BitVec.eq_of_toNat_eq (by rw [e, hidx])
  constructor
  · intro hle
    by_cases e : i.toNat = 256 + n
    · cases v
      · exact .inl (.inr ⟨hiff.2 e, rfl⟩)
      · exact .inr ⟨hiff.2 e, rfl⟩
    · exact .inl (.inl (by omega))
  · rintro ((e | ⟨rfl, -⟩) | ⟨rfl, -⟩)
    · omega
    · omega
    · omega

/-- GENCODE's loop (R116). -/
theorem Assigned.loop {f : FC} {t : TB} (hB : TB.Built f t) : ∀ {n : Nat} {g : CodeGen}, n ≤ t.nint.toNat →
    Assigned t (fun i _ => 256 + n ≤ i.toNat) g → Assigned t (fun _ _ => True) (genLoop t n g)
  | 0, g, _, h => h.congr fun i v hi => by
    obtain ⟨k, -, -, e⟩ := hB.internal_idx hi
    simp only [true_iff]
    omega
  | n + 1, g, hn, h => by
    have e : (BitVec.ofNat 9 (256 + n) : NodeIdx) = intIdx n := rfl
    unfold genLoop
    rw [e]
    exact Assigned.loop hB (by omega) (h.visit hB (by omega))

/-- What GENCODE assigns (R116, R117). -/
theorem genCodes_spec {f : FC} {t : TB} (hf : f.Ok) (hB : TB.Built f t) :
    (∀ b, (f.entry b).pres = true → ∃ p, p ≠ [] ∧ t.follow t.root p = some (leafIdx b) ∧
      (genCodes t .reset).ct.entry b = codeEntry p) ∧
    (∀ b, (f.entry b).pres = false → (genCodes t .reset).ct.entry b = .reset) ∧
    (genCodes t .reset).count = f.nsym.toNat := by
  have hroot := hB.root
  have e : t.root.toNat - 255 = t.nint.toNat := by omega
  have start : Assigned t (fun i _ => 256 + t.nint.toNat ≤ i.toNat) ⟨[(t.root, [])], .reset, 0⟩ := by
    have none : ∀ i, t.internal i → ¬ 256 + t.nint.toNat ≤ i.toNat := by
      intro i hi
      obtain ⟨k, hk, -, e⟩ := hB.internal_idx hi
      omega
    refine ⟨by simp [CodeGen.path], fun i v hi hd => absurd hd (none i hi), fun i v b hi hd => absurd hd (none i hi),
      fun b _ => CT.entry_reset b, ?_⟩
    rw [CT.codeCount, CT.reset, Vector.toList_replicate, List.countP_replicate]
    rfl
  have done := Assigned.loop hB (Nat.le_refl _) start
  have e' : genCodes t .reset = genLoop t t.nint.toNat ⟨[(t.root, [])], .reset, 0⟩ := by rw [genCodes, e]
  rw [← e'] at done
  have keys : ∀ b, (f.entry b).pres = true → ∃ p, p ≠ [] ∧ t.follow t.root p = some (leafIdx b) ∧
      (genCodes t .reset).ct.entry b = codeEntry p := by
    intro b hb
    have hk := (hB.leaf_kind hb).1
    have hne : leafIdx b ≠ t.root := by
      intro e
      have := hB.root_internal
      unfold TB.internal at this
      rw [← e, hk] at this
      cases this
    obtain ⟨⟨q, w⟩, ⟨hq, hc⟩, -⟩ := hB.parent (leafIdx b) (by rw [hk]; simp) hne (leafIdx_ne_dummy b)
    exact done.codes q w b hq trivial hc
  have nokeys : ∀ b, (f.entry b).pres = false → (genCodes t .reset).ct.entry b = .reset := by
    intro b hb
    refine done.others b fun i v hi _ hc => ?_
    have := (hB.children i v hi).2
    rw [hc, hB.leaves b, hb] at this
    exact this rfl
  refine ⟨keys, nokeys, ?_⟩
  rw [done.count, hf.nsym, CT.codeCount, FC.keyCount]
  have e2 : (genCodes t .reset).ct.table.toList.map CodeEntry.valid = f.table.toList.map FreqEntry.pres := by
    apply List.ext_getElem (by simp)
    intro k h1 h2
    have hk : k < 256 := by simpa using h1
    have hb : (BitVec.ofNat 8 k).toNat = k := by rw [BitVec.toNat_ofNat]; omega
    simp only [List.getElem_map, Vector.getElem_toList]
    have e1 : (genCodes t .reset).ct.table[k] = (genCodes t .reset).ct.entry (BitVec.ofNat 8 k) := by
      simp only [CT.entry, hb]
    have e2 : f.table[k] = f.entry (BitVec.ofNat 8 k) := by simp only [FC.entry, hb]
    rw [e1, e2]
    cases hp : (f.entry (BitVec.ofNat 8 k)).pres with
    | true => obtain ⟨p, -, -, e3⟩ := keys _ hp; rw [e3]; rfl
    | false => rw [nokeys _ hp]; rfl
  have c1 := List.countP_map (p := id) (f := CodeEntry.valid) (l := (genCodes t .reset).ct.table.toList)
  have c2 := List.countP_map (p := id) (f := FreqEntry.pres) (l := f.table.toList)
  rw [e2, c2] at c1
  exact c1.symm

/-- The table GENCODE leaves holds each key's path (R117). -/
theorem genCodes_coded {f : FC} {t : TB} (hf : f.Ok) (hB : TB.Built f t) (hv : t.treeValid = true) :
    CT.Coded f t { (genCodes t .reset).ct with codeValid := true } := by
  obtain ⟨keys, nokeys, -⟩ := genCodes_spec hf hB
  have entry : ∀ b, ({ (genCodes t .reset).ct with codeValid := true } : CT).entry b =
      (genCodes t .reset).ct.entry b := fun b => by simp only [CT.entry]
  refine ⟨hv, fun b hb => ?_, fun b hb => (entry b).trans (nokeys b hb), fun b k hk => ?_⟩
  · obtain ⟨p, hp, hfol, e⟩ := keys b hb
    have hl := hB.root_path_length hfol
    rw [entry, e, codeEntry_code hl]
    refine ⟨rfl, fun h0 => hp (List.length_eq_zero_iff.1 ?_), hfol⟩
    rw [← codeEntry_len hl, h0]
    rfl
  · rw [entry] at hk ⊢
    cases hp : (f.entry b).pres with
    | true =>
      obtain ⟨p, -, hfol, e⟩ := keys b hp
      rw [e] at hk ⊢
      rw [codeEntry_len (hB.root_path_length hfol)] at hk
      exact codeEntry_above hk
    | false => rw [nokeys b hp]; simp [CodeEntry.reset]

/-- The codes of a coded table are prefix-free (R117 c): a path that goes on past a leaf leads nowhere. -/
theorem CT.Coded.prefixFree {f : FC} {t : TB} {c : CT} (hB : TB.Built f t) (h : c.Coded f t) :
    c.NoCodeBeginsAnother := by
  have key : ∀ b, (c.entry b).valid = true → (f.entry b).pres = true := by
    intro b hb
    by_contra hp
    rw [h.others b (by simpa using hp)] at hb
    cases hb
  intro b d hb hd hpre
  obtain ⟨q, hq⟩ := hpre
  have fb := (h.keys b (key b hb)).2.2
  have fd := (h.keys d (key d hd)).2.2
  rw [← hq, TB.follow_append, fb] at fd
  have hk := (hB.leaf_kind (key b hb)).1
  have := TB.follow_stop (t := t) (i := leafIdx b) (by unfold TB.internal; rw [hk]; simp) fd
  exact leafIdx_inj this.2

end Sys2Proof.Machine
end

