-- ==== Sys2Proof/Laws/Decode.lean ====
section
/-! SUPPORT. The fields of an encoded command, a word put together from its fields, and the operand shapes of
30_encoding.md R71: what each accepts, said once. -/

namespace Sys2Proof

@[simp] theorem fieldOp_append (o b : Byte) (n : CountWord) : fieldOp (o ++ b ++ n) = o := by
  apply BitVec.eq_of_getLsbD_eq
  intro k hk
  have h1 : ¬ (40 + k < 32) := by omega
  have h2 : ¬ (40 + k - 32 < 8) := by omega
  have h3 : 40 + k - 32 - 8 = k := by omega
  simp only [fieldOp, BitVec.getLsbD_extractLsb', BitVec.getLsbD_append]
  simp [hk, h1, h2, h3]

@[simp] theorem fieldB_append (o b : Byte) (n : CountWord) : fieldB (o ++ b ++ n) = b := by
  apply BitVec.eq_of_getLsbD_eq
  intro k hk
  have h1 : ¬ (32 + k < 32) := by omega
  simp only [fieldB, BitVec.getLsbD_extractLsb', BitVec.getLsbD_append]
  simp [hk, h1]

@[simp] theorem fieldN_append (o b : Byte) (n : CountWord) : fieldN (o ++ b ++ n) = n := by
  apply BitVec.eq_of_getLsbD_eq
  intro k hk
  simp only [fieldN, BitVec.getLsbD_extractLsb', BitVec.getLsbD_append]
  simp [hk]

/-- A word is its three fields (R70). -/
theorem word_of_fields (w : CmdWord) : fieldOp w ++ fieldB w ++ fieldN w = w := by
  apply BitVec.eq_of_getLsbD_eq
  intro k hk
  simp only [fieldOp, fieldB, fieldN, BitVec.getLsbD_extractLsb', BitVec.getLsbD_append]
  by_cases h1 : k < 32
  · simp [h1]
  · by_cases h2 : k - 32 < 8
    · have : 32 + (k - 32) = k := by omega
      simp [h1, h2, this]
    · have : 40 + (k - 32 - 8) = k := by omega
      have h3 : k - 32 - 8 < 8 := by omega
      simp [h1, h2, h3, this]

/-- Two words with equal fields are equal. -/
theorem word_ext {w w' : CmdWord} (ho : fieldOp w = fieldOp w') (hb : fieldB w = fieldB w')
    (hn : fieldN w = fieldN w') : w = w' := by
  rw [← word_of_fields w, ← word_of_fields w', ho, hb, hn]

@[simp] theorem fieldOp_encode (i : Instr) : fieldOp (encode i) = i.opcode := fieldOp_append ..
@[simp] theorem fieldB_encode (i : Instr) : fieldB (encode i) = i.operandB := fieldB_append ..
@[simp] theorem fieldN_encode (i : Instr) : fieldN (encode i) = i.operandN := fieldN_append ..

theorem whenZero_eq_ok {c : Bool} {i j : Instr} : whenZero c i = .ok j ↔ c = true ∧ i = j := by
  unfold whenZero; cases c <;> simp

/-- Bits 31 to 9 of N are 0 exactly when N is a node index (R71). -/
theorem nodeReserved_zero_iff (n : CountWord) : n.extractLsb' 9 23 = 0 ↔ n.toNat < 512 := by
  rw [BitVec.toNat_eq, BitVec.extractLsb'_toNat]
  have := n.isLt
  simp only [Nat.shiftRight_eq_div_pow, BitVec.ofNat_eq_ofNat, BitVec.toNat_ofNat]
  omega

/-- Bits 31 to 8 of N are 0 exactly when N is a position (R71). -/
theorem posReserved_zero_iff (n : CountWord) : n.extractLsb' 8 24 = 0 ↔ n.toNat < 256 := by
  rw [BitVec.toNat_eq, BitVec.extractLsb'_toNat]
  have := n.isLt
  simp only [Nat.shiftRight_eq_div_pow, BitVec.ofNat_eq_ofNat, BitVec.toNat_ofNat]
  omega

/-- Bits 7 to 1 of B are 0 exactly when B is a bit (R71). -/
theorem bitReserved_zero_iff (b : Byte) : b.extractLsb' 1 7 = 0 ↔ b.toNat < 2 := by
  rw [BitVec.toNat_eq, BitVec.extractLsb'_toNat]
  have := b.isLt
  simp only [Nat.shiftRight_eq_div_pow, BitVec.ofNat_eq_ofNat, BitVec.toNat_ofNat]
  omega

/-- A node index in N comes back whole. -/
theorem nodeField_back {n : CountWord} (h : n.toNat < 512) : (n.extractLsb' 0 9).setWidth 32 = n := by
  apply BitVec.eq_of_toNat_eq
  simp only [BitVec.toNat_setWidth, BitVec.extractLsb'_toNat, Nat.shiftRight_zero]
  omega

/-- A position in N comes back whole. -/
theorem posField_back {n : CountWord} (h : n.toNat < 256) : (n.extractLsb' 0 8).setWidth 32 = n := by
  apply BitVec.eq_of_toNat_eq
  simp only [BitVec.toNat_setWidth, BitVec.extractLsb'_toNat, Nat.shiftRight_zero]
  omega

/-- A bit in B comes back whole. -/
theorem bitField_back {b : Byte} (h : b.toNat < 2) : (if b.getLsbD 0 then (1 : Byte) else 0) = b := by
  have hb : b = 0 ∨ b = 1 := by
    rcases Nat.lt_or_ge b.toNat 1 with h' | h'
    · exact .inl (BitVec.eq_of_toNat_eq (by simp; omega))
    · exact .inr (BitVec.eq_of_toNat_eq (by simp; omega))
  rcases hb with rfl | rfl <;> rfl

/-- The node index of a widened node index. -/
theorem nodeField_widened (i : NodeIdx) : (i.setWidth 32).extractLsb' 0 9 = i := by
  apply BitVec.eq_of_toNat_eq
  simp only [BitVec.toNat_setWidth, BitVec.extractLsb'_toNat, Nat.shiftRight_zero]
  omega

/-- The position of a widened position. -/
theorem posField_widened (k : Byte) : (k.setWidth 32).extractLsb' 0 8 = k := by
  apply BitVec.eq_of_toNat_eq
  simp only [BitVec.toNat_setWidth, BitVec.extractLsb'_toNat, Nat.shiftRight_zero]
  omega

theorem widenedNode_lt (i : NodeIdx) : (i.setWidth 32 : CountWord).toNat < 512 := by
  simp only [BitVec.toNat_setWidth]; omega

theorem widenedPos_lt (k : Byte) : (k.setWidth 32 : CountWord).toNat < 256 := by
  simp only [BitVec.toNat_setWidth]; omega

/-- What the decoder gives an opcode's fields, inverted: the opcode, and the operands put back, are the fields. -/
theorem fields_of_decodeFields {o b : Byte} {n : CountWord} {i : Instr} (h : decodeFields o b n = .ok i) :
    i.opcode = o ∧ i.operandB = b ∧ i.operandN = n := by
  have lit : ∀ {k : Nat}, o.toNat = k → BitVec.ofNat 8 k = o := fun h => by rw [← h]; simp
  unfold decodeFields at h
  split at h
  all_goals first | (cases h; done) | skip
  all_goals next ho =>
    refine ⟨?_, ?_⟩
    · rw [← lit ho]
      first
      | (cases h; rfl)
      | (simp only [noOperand, byteOperand, bitOperand, nodeOperand, bytePosOperand, whenZero_eq_ok] at h
         obtain ⟨-, rfl⟩ := h; rfl)
    · first
      | (cases h; exact ⟨rfl, rfl⟩)
      | (simp only [noOperand, byteOperand, bitOperand, nodeOperand, bytePosOperand, whenZero_eq_ok,
           Bool.and_eq_true, beq_iff_eq, bitReserved_zero_iff, nodeReserved_zero_iff, posReserved_zero_iff] at h
         obtain ⟨hz, rfl⟩ := h
         first
         | exact ⟨hz.1.symm, hz.2.symm⟩
         | exact ⟨rfl, hz.symm⟩
         | exact ⟨bitField_back hz.1, hz.2.symm⟩
         | exact ⟨hz.1.symm, nodeField_back hz.2⟩
         | exact ⟨rfl, posField_back hz⟩)

/-- Words put together from equal fields only are equal. -/
theorem word_eq_iff (o b o' b' : Byte) (n n' : CountWord) :
    (o ++ b ++ n : CmdWord) = o' ++ b' ++ n' ↔ o = o' ∧ b = b' ∧ n = n' := by
  constructor
  · intro h
    have h1 := congrArg fieldOp h
    have h2 := congrArg fieldB h
    have h3 := congrArg fieldN h
    simp only [fieldOp_append, fieldB_append, fieldN_append] at h1 h2 h3
    exact ⟨h1, h2, h3⟩
  · rintro ⟨rfl, rfl, rfl⟩; rfl

/-- A row whose mask takes all of OP selects by OP and by the masked bits of B and N. -/
theorem selects_iff (m : String) (o mb : Byte) (mn : CountWord) (w : CmdWord) :
    (OpRow.mk m (o ++ 0#8 ++ 0#32) (0xFF#8 ++ mb ++ mn)).selects w = true ↔
      fieldOp w = o ∧ fieldB w &&& mb = 0 ∧ fieldN w &&& mn = 0 := by
  have e : w &&& (0xFF#8 ++ mb ++ mn) = fieldOp w ++ (fieldB w &&& mb) ++ (fieldN w &&& mn) := by
    conv_lhs => rw [← word_of_fields w]
    rw [BitVec.and_append, BitVec.and_append]
    congr 2
    exact BitVec.and_allOnes
  unfold OpRow.selects
  simp only [e, beq_iff_eq]
  rw [word_eq_iff]
  rfl

/-- The masked bits from k up are 0 exactly when the number is below 2^k. -/
theorem mask_zero_iff {k : Nat} {m n : CountWord} (hm : ∀ j : Nat, j < 32 → m.getLsbD j = decide (k ≤ j)) :
    n &&& m = 0 ↔ n.toNat < 2 ^ k := by
  constructor
  · intro h
    apply Nat.lt_pow_two_of_testBit
    intro j hj
    by_cases hj' : j < 32
    · have := congrArg (fun x : CountWord => x.getLsbD j) h
      rw [BitVec.getLsbD_and, hm j hj'] at this
      simpa [hj, BitVec.getLsbD] using this
    · exact BitVec.getLsbD_of_ge n j (by omega)
  · intro h
    apply BitVec.eq_of_getLsbD_eq
    intro j hj
    rw [BitVec.getLsbD_and, hm j hj]
    by_cases hjk : k ≤ j
    · have : n.toNat < 2 ^ j := lt_of_lt_of_le h (Nat.pow_le_pow_right (by norm_num) hjk)
      simp [BitVec.getLsbD, Nat.testBit_lt_two_pow this]
    · simp [hjk]

/-- The mask of B in a row of each shape (R71, R76). -/
def Shape.maskB : Shape → Byte
  | .none | .nodeIndex => 0xFF
  | .bit => 0xFE
  | .byte | .byteCount | .bytePos => 0

/-- The mask of N in a row of each shape (R71, R76). -/
def Shape.maskN : Shape → CountWord
  | .none | .byte | .bit => 0xFFFFFFFF
  | .byteCount => 0
  | .nodeIndex => 0xFFFFFE00
  | .bytePos => 0xFFFFFF00

/-- The reserved bits, as masks. -/
theorem Shape.reservedZero_iff (sh : Shape) (b : Byte) (n : CountWord) :
    sh.reservedZero b n = true ↔ b &&& sh.maskB = 0 ∧ n &&& sh.maskN = 0 := by
  have hb : b &&& 0xFF = b := BitVec.and_allOnes
  have hn : n &&& 0xFFFFFFFF = n := BitVec.and_allOnes
  have h9 : n &&& 0xFFFFFE00 = 0 ↔ n.toNat < 512 := mask_zero_iff (k := 9) (by decide)
  have h8 : n &&& 0xFFFFFF00 = 0 ↔ n.toNat < 256 := mask_zero_iff (k := 8) (by decide)
  have h1 : b &&& 0xFE = 0 ↔ b.toNat < 2 := by revert b; decide
  have hz : n &&& 0 = 0 := BitVec.and_zero
  have hzb : b &&& 0 = 0 := BitVec.and_zero
  cases sh <;> simp only [Shape.reservedZero, Shape.maskB, Shape.maskN, hb, hn, h9, h8, h1, hz, hzb,
    Bool.and_eq_true, beq_iff_eq, decide_eq_true_eq, true_and, and_true]


/-- Every row is the row of its OP's shape. -/
theorem opcodeTable_row {r : OpRow} (hr : r ∈ opcodeTable) : ∃ (o : Byte) (sh : Shape),
    opShape o = some sh ∧ r = ⟨r.mnemonic, o ++ 0#8 ++ 0#32, 0xFF#8 ++ sh.maskB ++ sh.maskN⟩ := by
  refine ⟨fieldOp r.value, (opShape (fieldOp r.value)).getD .none, ?_⟩
  revert r
  decide +kernel

/-- Every OP with a shape has a row. -/
theorem opcodeTable_complete : ∀ o : Byte, (opShape o).isSome = true → ∃ r ∈ opcodeTable, fieldOp r.value = o := by
  decide +kernel

/-- No two rows share an OP (R76). -/
theorem opcodeTable_ops : ∀ r ∈ opcodeTable, ∀ r' ∈ opcodeTable, fieldOp r.value = fieldOp r'.value → r = r' := by
  decide +kernel

/-- The 227 reserved OP values have no shape (R76). -/
theorem opShape_undefined : ∀ o : Byte, o.toNat ∉ [0x00, 0x01, 0x02, 0x03, 0x10, 0x11, 0x12, 0x13, 0x14, 0x18, 0x19,
    0x20, 0x21, 0x22, 0x23, 0x30, 0x31, 0x32, 0x40, 0x41, 0x42, 0x43, 0x50, 0x51, 0x52, 0x53, 0x60, 0x61, 0x62] → opShape o = none := by
  decide +kernel

end Sys2Proof
end

