-- ==== Sys2Proof/Laws/Issue.lean ====
section
/-! SUPPORT. Commands issued one after another (00_scope.md R7): the word of a command decodes to it, a command takes
no further word from the port, and `issue` is run one command at a time. -/

namespace Sys2Proof.Machine

/-- A command takes no further word from the port. -/
theorem exec_cmds {i : Instr} {s t : State} (h : exec i s = .next t) : t.cmds = s.cmds := by
  rw [exec_eq] at h
  cases h
  rfl

/-- One step of a run. -/
theorem run_next {s t : State} (h : core.step s = .next t) (n : Nat) :
    Host.Core.run core (n + 1) s = Host.Core.run core n t := by
  simp only [Host.Core.run]
  rw [h]

theorem issue_nil (s : State) : issue [] s = .next { s with cmds := [] } := rfl

/-- What the port holds before an issue does not matter. -/
@[simp] theorem issue_port (is : List Instr) (s : State) (c : List CmdWord) :
    issue is { s with cmds := c } = issue is s := rfl

/-- The first command of an issue, by its meaning; the decoding of its word is a premise (R78). -/
theorem issue_cons {i : Instr} {is : List Instr} {s t : State} (hd : decode (encode i) = .ok i)
    (h : exec i { s with cmds := is.map encode } = .next t) : issue (i :: is) s = issue is t := by
  have hs : core.step ({ s with cmds := (i :: is).map encode } : State) = .next t := by
    refine (step_cons (s := { s with cmds := (i :: is).map encode }) (w := encode i) (rest := is.map encode) rfl).trans ?_
    rw [runWord_of_decode hd]
    exact h
  have ht : ({ t with cmds := is.map encode } : State) = t := by
    have := exec_cmds h
    cases t
    simp_all
  have hr : issue is t = Host.Core.run core is.length t := by
    unfold issue
    rw [ht]
  rw [hr]
  exact run_next hs is.length

end Sys2Proof.Machine
end

