-- ==== Sys2Proof/Laws/Header.lean ====
section
/-! SUPPORT. The header text (30_encoding.md R81; 46_filecodec.md R158 to R161): decimal text, the pairs of a table, and
what the parser makes of them. -/

namespace Sys2Proof.Machine

/-! ## Decimal text -/

theorem decDigits_succ (fuel v : Nat) :
    decDigits (fuel + 1) v = if v < 10 then [digitChar v] else decDigits fuel (v / 10) ++ [digitChar (v % 10)] := rfl

theorem digitChar_toNat {d : Nat} (h : d < 10) : (digitChar d).toNat = 0x30 + d := by
  have : (digitChar d).toNat = (0x30 + d % 256) % 256 := by
    rw [digitChar, BitVec.toNat_add, BitVec.toNat_ofNat]; rfl
  omega

theorem isDigit_iff {c : Byte} : isDigit c = true ↔ 0x30 ≤ c.toNat ∧ c.toNat ≤ 0x39 := by
  simp only [isDigit, Bool.and_eq_true, decide_eq_true_eq, BitVec.le_def]
  rfl

theorem isDigit_digitChar {d : Nat} (h : d < 10) : isDigit (digitChar d) = true := by
  rw [isDigit_iff, digitChar_toNat h]; omega

theorem digitVal_digitChar {d : Nat} (h : d < 10) : digitVal (digitChar d) = d := by
  rw [digitVal, digitChar_toNat h]; omega

/-- The text byte of a digit is the code of its character (R81). -/
theorem digitChar_code : ∀ {d : Nat}, d < 10 → digitChar d = BitVec.ofNat 8 (Nat.digitChar d).toNat := by decide

/-- `Dec` is decimal notation (R160), for values whose digits the fuel covers. -/
theorem decDigits_eq_toDigits : ∀ {fuel v : Nat}, v < 10 ^ (fuel + 1) →
    decDigits (fuel + 1) v = (Nat.toDigits 10 v).map fun ch => BitVec.ofNat 8 ch.toNat
  | fuel, v, h => by
    rw [decDigits_succ, Nat.toDigits_eq_if (by decide)]
    split
    · next hv => rw [digitChar_code hv]; rfl
    · next hv =>
      cases fuel with
      | zero => omega
      | succ fuel =>
        rw [decDigits_eq_toDigits (by rw [Nat.pow_succ] at h; omega), List.map_append,
          digitChar_code (Nat.mod_lt _ (by decide))]
        rfl

/-! ## The parser on a text -/

/-- The parser on a text, one byte after another (R158). -/
def parseText : List Byte → FC → HC → Except Raised (FC × HC)
  | [], f, h => .ok (f, h)
  | c :: cs, f, h =>
    match parseByte c f h with
    | .ok (g, k) => parseText cs g k
    | .error e => .error e

theorem parseText_cons {c : Byte} {cs : List Byte} {f g : FC} {h k : HC} (hp : parseByte c f h = .ok (g, k)) :
    parseText (c :: cs) f h = parseText cs g k := by simp only [parseText, hp]

theorem parseText_append {xs ys : List Byte} {f g : FC} {h k : HC} (hp : parseText xs f h = .ok (g, k)) :
    parseText (xs ++ ys) f h = parseText ys g k := by
  induction xs generalizing f h with
  | nil => simp only [parseText] at hp; cases hp; rfl
  | cons c cs ih =>
    rw [List.cons_append]
    simp only [parseText] at hp ⊢
    split at hp
    · exact ih hp
    · cases hp

/-- Commands HDRB, one per byte of a text the parser accepts (R158). -/
theorem issue_hdrb (hd : ∀ i, decode (encode i) = .ok i) {cs : List Byte} {s : State} {f : FC} {h : HC} (rest : List Instr)
    (hf : s.flt.code = 0) (hv : s.tb.treeValid = false) (hp : parseText cs s.fc s.hc = .ok (f, h)) :
    ∃ t, issue (cs.map .hdrb ++ rest) s = issue rest t ∧
      t = { s with fc := f, hc := h, cmds := t.cmds, rsps := t.rsps } := by
  induction cs generalizing s with
  | nil => simp only [parseText] at hp; cases hp; exact ⟨s, rfl, rfl⟩
  | cons c cs ih =>
    simp only [parseText] at hp
    split at hp
    · next g k hc =>
      have hnd : s.hc.hstate ≠ .done := by
        intro hh; unfold parseByte at hc; rw [hh] at hc; cases hc
      have run := exec_run (i := .hdrb c) (s := { s with cmds := (cs.map Instr.hdrb ++ rest).map encode }) hf
        (by simp [precondition, hv, hnd])
      simp only [ruleRun, hdrbRule, hc, Block.finish_ok] at run
      rw [List.map_cons, List.cons_append, issue_cons (hd _) run]
      obtain ⟨t, h1, h2⟩ := ih (s := { s with
        fc := g, hc := k, cmds := (cs.map Instr.hdrb ++ rest).map encode
        rsps := s.rsps ++ [(okReply (zext8 (k.hstate == .done)) 0).word] }) hf hv hp
      exact ⟨t, h1, h2⟩
    · cases hp

/-! ## One number -/

theorem parse_first_digit {d : Nat} (hd : d < 10) (f : FC) {h : HC} (hs : h.hstate = .line0 ∨ h.hstate = .pair) :
    parseByte (digitChar d) f h = .ok (f, { h with hb := BitVec.ofNat 8 d, hstate := .bdig }) := by
  rcases hs with hs | hs <;> simp only [parseByte, hs, isDigit_digitChar hd, digitVal_digitChar hd, if_true]

/-- The decimal text of a byte value, parsed (R158, R160). -/
theorem parse_decDigits_byte : ∀ (fuel v : Nat) (f : FC) (h : HC), v < 10 ^ (fuel + 1) → v ≤ 255 →
    (h.hstate = .line0 ∨ h.hstate = .pair) →
    parseText (decDigits (fuel + 1) v) f h = .ok (f, { h with hb := BitVec.ofNat 8 v, hstate := .bdig })
  | fuel, v, f, h, hv, hle, hs => by
    rw [decDigits_succ]
    split
    · next h10 => rw [parseText_cons (parse_first_digit h10 f hs)]; rfl
    · next h10 =>
      cases fuel with
      | zero => omega
      | succ fuel =>
        rw [parseText_append (parse_decDigits_byte fuel (v / 10) f h (by rw [Nat.pow_succ] at hv; omega) (by omega) hs)]
        have hm : v % 10 < 10 := Nat.mod_lt _ (by decide)
        have hb : (BitVec.ofNat 8 (v / 10)).toNat = v / 10 := by rw [BitVec.toNat_ofNat]; omega
        have e : v / 10 * 10 + v % 10 = v := by omega
        rw [parseText_cons (g := f) (k := { h with hb := BitVec.ofNat 8 v, hstate := .bdig }) (by
          simp only [parseByte, isDigit_digitChar hm, digitVal_digitChar hm, hb, e, Config.byteMax, if_true, hle])]
        rfl

/-- The decimal text of a count, parsed (R158, R160). -/
theorem parse_decDigits_count : ∀ (fuel v : Nat) (f : FC) (h : HC), v < 10 ^ (fuel + 1) → v ≤ 0xFFFFFFFF →
    h.hstate = .cstart →
    parseText (decDigits (fuel + 1) v) f h = .ok (f, { h with hn := BitVec.ofNat 32 v, hstate := .cdig })
  | fuel, v, f, h, hv, hle, hs => by
    rw [decDigits_succ]
    split
    · next h10 =>
      rw [parseText_cons (g := f) (k := { h with hn := BitVec.ofNat 32 v, hstate := .cdig }) (by
        simp only [parseByte, hs, isDigit_digitChar h10, digitVal_digitChar h10, if_true])]
      rfl
    · next h10 =>
      cases fuel with
      | zero => omega
      | succ fuel =>
        rw [parseText_append (parse_decDigits_count fuel (v / 10) f h (by rw [Nat.pow_succ] at hv; omega) (by omega) hs)]
        have hm : v % 10 < 10 := Nat.mod_lt _ (by decide)
        have hb : (BitVec.ofNat 32 (v / 10)).toNat = v / 10 := by rw [BitVec.toNat_ofNat]; omega
        have e : v / 10 * 10 + v % 10 = v := by omega
        rw [parseText_cons (g := f) (k := { h with hn := BitVec.ofNat 32 v, hstate := .cdig }) (by
          simp only [parseByte, isDigit_digitChar hm, digitVal_digitChar hm, hb, e, Config.countMax, if_true, hle])]
        rfl

/-- The text of one pair, parsed: the pair stands in HB and HN, not yet entered (R158, R161). -/
theorem parse_pairText {b : Nat} (hb : b < 256) (n : CountWord) (f : FC) {h : HC}
    (hs : h.hstate = .line0 ∨ h.hstate = .pair) :
    parseText (pairText b n) f h = .ok (f, ⟨.cdig, BitVec.ofNat 8 b, n⟩) := by
  have hn := n.isLt
  rw [pairText, decText, decText, parseText_append (parse_decDigits_byte 9 b f h (by omega) (by omega) hs),
    parseText_cons (g := f) (k := ⟨.cstart, BitVec.ofNat 8 b, 0⟩) rfl]
  refine (parse_decDigits_count 9 n.toNat f _ (by omega) (by omega) rfl).trans ?_
  rw [BitVec.ofNat_toNat, BitVec.setWidth_eq]

/-! ## A whole header -/

/-- The pairs a header lists: the keys from byte value `b` on, ascending (R161). -/
def pairsFrom : List FreqEntry → Nat → List (Byte × CountWord)
  | [], _ => []
  | e :: es, b => if e.pres then (BitVec.ofNat 8 b, e.freq) :: pairsFrom es (b + 1) else pairsFrom es (b + 1)

/-- The pairs entered, one after another (R91). -/
def enterAll (f : FC) (ps : List (Byte × CountWord)) : FC := ps.foldl (fun f p => enterPair f p.1 p.2) f

theorem mem_pairsFrom {es : List FreqEntry} {b : Nat} {p : Byte × CountWord} (hb : b + es.length ≤ 256) :
    p ∈ pairsFrom es b ↔ ∃ k, ∃ h : k < es.length, p = (BitVec.ofNat 8 (b + k), es[k].freq) ∧ es[k].pres = true := by
  induction es generalizing b with
  | nil => simp [pairsFrom]
  | cons e es ih =>
    have ih := ih (b := b + 1) (by simp only [List.length_cons] at hb; omega)
    have tail : (∃ k, ∃ h : k < es.length, p = (BitVec.ofNat 8 (b + 1 + k), es[k].freq) ∧ es[k].pres = true) ↔
        ∃ k, ∃ h : k + 1 < (e :: es).length, p = (BitVec.ofNat 8 (b + (k + 1)), (e :: es)[k + 1].freq) ∧
          (e :: es)[k + 1].pres = true := by
      simp only [List.getElem_cons_succ, List.length_cons, Nat.add_lt_add_iff_right, Nat.add_assoc, Nat.add_comm 1]
    constructor
    · intro h
      unfold pairsFrom at h
      split at h
      · next hp =>
        rcases List.mem_cons.1 h with rfl | h
        · exact ⟨0, by simp, rfl, hp⟩
        · obtain ⟨k, h⟩ := tail.1 (ih.1 h); exact ⟨k + 1, h⟩
      · obtain ⟨k, h⟩ := tail.1 (ih.1 h); exact ⟨k + 1, h⟩
    · rintro ⟨k, hk, rfl, hp⟩
      unfold pairsFrom
      cases k with
      | zero => rw [if_pos (by simpa using hp)]; exact List.mem_cons_self
      | succ k =>
        have := ih.2 (tail.2 ⟨k, hk, rfl, hp⟩)
        split
        · exact List.mem_cons_of_mem _ this
        · exact this

/-- The keys of the listed pairs are different (R161: ascending). -/
theorem pairsFrom_nodup {es : List FreqEntry} {b : Nat} (hb : b + es.length ≤ 256) :
    ((pairsFrom es b).map Prod.fst).Nodup := by
  induction es generalizing b with
  | nil => simp [pairsFrom]
  | cons e es ih =>
    simp only [List.length_cons] at hb
    have ih := ih (b := b + 1) (by omega)
    unfold pairsFrom
    split
    · rw [List.map_cons, List.nodup_cons]
      refine ⟨?_, ih⟩
      rw [List.mem_map]
      rintro ⟨p, hp, e⟩
      obtain ⟨k, hk, rfl, -⟩ := (mem_pairsFrom (by omega)).1 hp
      have := congrArg BitVec.toNat e
      simp only [BitVec.toNat_ofNat] at this
      omega
    · exact ih

/-- The commas and the rest of the line: every listed pair is entered (R158, R161). -/
theorem parse_pairs_tail : ∀ (es : List FreqEntry) (b : Nat) (f : FC) (p : Byte × CountWord), b + es.length ≤ 256 →
    (∀ q ∈ p :: pairsFrom es b, (f.entry q.1).pres = false) → ((p :: pairsFrom es b).map Prod.fst).Nodup →
    ∃ h : HC, h.hstate = .done ∧
      parseText (pairsText es b false ++ [Config.lineTerm]) f ⟨.cdig, p.1, p.2⟩ =
        .ok (enterAll f (p :: pairsFrom es b), h)
  | [], b, f, p, _, ha, _ => by
    refine ⟨⟨.done, p.1, p.2⟩, rfl, ?_⟩
    have := commit_of_absent (ha p List.mem_cons_self) p.2
    rw [pairsText, List.nil_append, parseText_cons (g := enterPair f p.1 p.2) (k := ⟨.done, p.1, p.2⟩) (by
      show commitPair f ⟨.cdig, p.1, p.2⟩ .done = _
      simp only [commitPair, this])]
    rfl
  | e :: es, b, f, p, hb, ha, hnd => by
    simp only [List.length_cons] at hb
    unfold pairsText pairsFrom
    unfold pairsFrom at ha hnd
    split
    · next hp =>
      rw [if_pos hp] at ha hnd
      have hc := commit_of_absent (ha p List.mem_cons_self) p.2
      rw [if_neg (by decide), List.append_assoc, List.append_assoc, List.singleton_append,
        parseText_cons (g := enterPair f p.1 p.2) (k := ⟨.pair, p.1, p.2⟩) (by
          show commitPair f ⟨.cdig, p.1, p.2⟩ .pair = _
          simp only [commitPair, hc]),
        parseText_append (parse_pairText (by omega) e.freq _ (.inr rfl))]
      rw [List.map_cons, List.nodup_cons] at hnd
      refine parse_pairs_tail es (b + 1) (enterPair f p.1 p.2) (BitVec.ofNat 8 b, e.freq) (by omega) ?_ hnd.2
      intro q hq
      have hne : q.1 ≠ p.1 := fun e => hnd.1 (e ▸ List.mem_map_of_mem hq)
      rw [entry_enterPair, if_neg hne]
      exact ha q (List.mem_cons_of_mem _ hq)
    · next hp =>
      rw [if_neg hp] at ha hnd
      exact parse_pairs_tail es (b + 1) f p (by omega) ha hnd

/-- A header line, parsed from the start: every listed pair is entered (R158, R161). -/
theorem parse_pairs : ∀ (es : List FreqEntry) (b : Nat) (f : FC) (h : HC), b + es.length ≤ 256 → h.hstate = .line0 →
    (∀ q ∈ pairsFrom es b, (f.entry q.1).pres = false) →
    ∃ k : HC, k.hstate = .done ∧
      parseText (pairsText es b true ++ [Config.lineTerm]) f h = .ok (enterAll f (pairsFrom es b), k)
  | [], b, f, h, _, hs, _ => by
    refine ⟨{ h with hstate := .done }, rfl, ?_⟩
    rw [pairsText, List.nil_append, parseText_cons (g := f) (k := { h with hstate := .done }) (by
      simp only [parseByte, hs]; rfl)]
    rfl
  | e :: es, b, f, h, hb, hs, ha => by
    simp only [List.length_cons] at hb
    unfold pairsText
    have hnd := pairsFrom_nodup (es := e :: es) (b := b) (by simp only [List.length_cons]; omega)
    unfold pairsFrom at ha hnd ⊢
    split
    · next hp =>
      rw [if_pos hp] at ha hnd
      rw [if_pos rfl, List.nil_append, List.append_assoc,
        parseText_append (parse_pairText (by omega) e.freq _ (.inl hs))]
      exact parse_pairs_tail es (b + 1) f (BitVec.ofNat 8 b, e.freq) (by omega) ha hnd
    · next hp =>
      rw [if_neg hp] at ha
      exact parse_pairs es (b + 1) f h (by omega) hs ha

/-- Entering pairs with different absent keys: the entries (R91). -/
theorem entry_enterAll : ∀ (ps : List (Byte × CountWord)) (f : FC) (c : Byte), (ps.map Prod.fst).Nodup →
    (∀ n, (c, n) ∈ ps → (enterAll f ps).entry c = ⟨true, n⟩) ∧
    ((∀ n, (c, n) ∉ ps) → (enterAll f ps).entry c = f.entry c)
  | [], f, c, _ => ⟨by simp, fun _ => rfl⟩
  | p :: ps, f, c, hnd => by
    rw [List.map_cons, List.nodup_cons] at hnd
    have ih := entry_enterAll ps (enterPair f p.1 p.2) c hnd.2
    show (∀ n, (c, n) ∈ p :: ps → (enterAll (enterPair f p.1 p.2) ps).entry c = _) ∧
      (_ → (enterAll (enterPair f p.1 p.2) ps).entry c = _)
    constructor
    · intro n hn
      rcases List.mem_cons.1 hn with rfl | hn
      · rw [ih.2 fun m hm => hnd.1 (List.mem_map.2 ⟨(c, m), hm, rfl⟩), entry_enterPair, if_pos rfl]
      · exact ih.1 n hn
    · intro hn
      have hne : c ≠ p.1 := fun e => hn p.2 (by rw [e]; exact List.mem_cons_self)
      rw [ih.2 fun m hm => hn m (List.mem_cons_of_mem _ hm), entry_enterPair, if_neg hne]

/-- Entering pairs with different absent keys keeps the sums (R90). -/
theorem enterAll_ok : ∀ {ps : List (Byte × CountWord)} {f : FC}, f.Ok → (ps.map Prod.fst).Nodup →
    (∀ q ∈ ps, (f.entry q.1).pres = false) → (enterAll f ps).Ok
  | [], _, h, _, _ => h
  | p :: ps, f, h, hnd, ha => by
    rw [List.map_cons, List.nodup_cons] at hnd
    show (enterAll (enterPair f p.1 p.2) ps).Ok
    refine enterAll_ok (h.enterPair (ha p List.mem_cons_self) p.2) hnd.2 fun q hq => ?_
    have hne : q.1 ≠ p.1 := fun e => hnd.1 (e ▸ List.mem_map_of_mem hq)
    rw [entry_enterPair, if_neg hne]
    exact ha q (List.mem_cons_of_mem _ hq)

/-- The header of a table, parsed by a fresh parser into a fresh table, gives a table with the same entries and sums. -/
theorem parse_headerText {f : FC} (hf : f.Ok) :
    ∃ (g : FC) (h : HC), parseText (headerText f) .reset .reset = .ok (g, h) ∧ h.hstate = .done ∧
      (∀ b, g.entry b = f.entry b) ∧ g.nsym = f.nsym ∧ g.total = f.total ∧ g.Ok := by
  have hl : 0 + f.table.toList.length ≤ 256 := by simp
  have hnd := pairsFrom_nodup hl
  have ha : ∀ q ∈ pairsFrom f.table.toList 0, (FC.reset.entry q.1).pres = false := by
    intro q _; rw [FC.entry_reset]; rfl
  obtain ⟨h, hd, hp⟩ := parse_pairs f.table.toList 0 .reset .reset hl rfl ha
  have hok := enterAll_ok FC.Ok.reset hnd ha
  have he : ∀ b, (enterAll .reset (pairsFrom f.table.toList 0)).entry b = f.entry b := by
    intro b
    obtain ⟨h1, h2⟩ := entry_enterAll (pairsFrom f.table.toList 0) .reset b hnd
    have mem : ∀ n, (b, n) ∈ pairsFrom f.table.toList 0 ↔ n = (f.entry b).freq ∧ (f.entry b).pres = true := by
      intro n
      rw [mem_pairsFrom hl]
      constructor
      · rintro ⟨k, hk, e, hp⟩
        have hk' : k < 256 := by simpa using hk
        have hb : b.toNat = k := by
          have := congrArg (fun p => p.1.toNat) e
          simp only [BitVec.toNat_ofNat] at this
          omega
        subst hb
        simp only [Vector.getElem_toList] at e hp
        exact ⟨congrArg Prod.snd e, hp⟩
      · rintro ⟨rfl, hp⟩
        refine ⟨b.toNat, by simpa using b.isLt, ?_, ?_⟩
        · simp [FC.entry]
        · simpa [FC.entry] using hp
    cases hp : (f.entry b).pres with
    | true =>
      rw [h1 _ ((mem _).2 ⟨rfl, hp⟩)]
      cases e : f.entry b
      simp_all
    | false =>
      rw [h2 fun n hn => (by rw [((mem n).1 hn).2] at hp; cases hp), FC.entry_reset]
      have := hf.absent b hp
      cases e : f.entry b
      simp_all [FreqEntry.reset]
  have ht := FC.table_ext he
  refine ⟨_, h, hp, hd, he, ?_, ?_, hok⟩
  · apply BitVec.eq_of_toNat_eq
    rw [hok.nsym, hf.nsym, FC.keyCount, FC.keyCount, ht]
  · apply BitVec.eq_of_toNat_eq
    rw [hok.total, hf.total, FC.freqSum, FC.freqSum, ht]

/-- No byte of the header text before its end is the line terminator (R81). -/
theorem lineTerm_not_mem_decDigits : ∀ (fuel v : Nat), Config.lineTerm ∉ decDigits fuel v
  | 0, v => by simp [decDigits]
  | fuel + 1, v => by
    have hd : ∀ d, d < 10 → Config.lineTerm ≠ digitChar d := by decide
    rw [decDigits_succ]
    split
    · next h => simpa using hd v h
    · rw [List.mem_append, not_or]
      exact ⟨lineTerm_not_mem_decDigits fuel (v / 10), by simpa using hd (v % 10) (Nat.mod_lt _ (by decide))⟩

theorem lineTerm_not_mem_pairsText : ∀ (es : List FreqEntry) (b : Nat) (first : Bool),
    Config.lineTerm ∉ pairsText es b first
  | [], b, first => by simp [pairsText]
  | e :: es, b, first => by
    unfold pairsText
    split
    · simp only [pairText, decText, List.mem_append, List.mem_cons, not_or]
      refine ⟨⟨?_, lineTerm_not_mem_decDigits 10 b, by decide, lineTerm_not_mem_decDigits 10 _⟩,
        lineTerm_not_mem_pairsText es (b + 1) false⟩
      cases first <;> decide
    · exact lineTerm_not_mem_pairsText es (b + 1) first

end Sys2Proof.Machine
end

