-- ==== Sys2Proof/Laws/PerInstr.lean ====
section
/-! SUPPORT. The family `EncodesLegal`: the three fields the encoder writes for a command are a legal raw command
(30_encoding.md R71, R72, R77), so no operand sets a reserved bit. One lemma per constructor of Instr. -/

namespace Sys2Proof.Laws.EncodesLegal

/-- The encoder's fields for `i` are legal. -/
def Statement (i : Instr) : Prop := (RawCommand.mk i.opcode i.operandB i.operandN).legal = true

theorem nop : Statement .nop := rfl

theorem reset : Statement .reset := rfl

theorem status : Statement .status := rfl

theorem rdfault : Statement .rdfault := rfl

theorem cnt (b : Byte) : Statement (.cnt b) := rfl

theorem loadf (b : Byte) (n : CountWord) : Statement (.loadf b n) := rfl

theorem rdf (b : Byte) : Statement (.rdf b) := rfl

theorem rdnsym : Statement .rdnsym := rfl

theorem rdtot : Statement .rdtot := rfl

theorem hdrb (c : Byte) : Statement (.hdrb c) := rfl

theorem hdrser : Statement .hdrser := rfl

theorem build : Statement .build := rfl

theorem rdnode (j : NodeIdx) : Statement (.rdnode j) := decide_eq_true (widenedNode_lt j)

theorem rdnfrq (j : NodeIdx) : Statement (.rdnfrq j) := decide_eq_true (widenedNode_lt j)

theorem rdroot : Statement .rdroot := rfl

theorem gencode : Statement .gencode := rfl

theorem rdclen (b : Byte) : Statement (.rdclen b) := rfl

theorem rdcbit (b : Byte) (k : Byte) : Statement (.rdcbit b k) := decide_eq_true (widenedPos_lt k)

theorem wbit (v : Bool) : Statement (.wbit v) := by cases v <;> rfl

theorem wflush : Statement .wflush := rfl

theorem enc (b : Byte) : Statement (.enc b) := rfl

theorem snkfail : Statement .snkfail := rfl

theorem push (b : Byte) : Statement (.push b) := rfl

theorem pusherr : Statement .pusherr := rfl

theorem eod : Statement .eod := rfl

theorem rbit : Statement .rbit := rfl

theorem dstart : Statement .dstart := rfl

theorem dstep : Statement .dstep := rfl

theorem dec : Statement .dec := rfl

end Sys2Proof.Laws.EncodesLegal
end

