-- ==== Sys2Proof/Laws/Reader.lean ====
section
/-! SUPPORT. The reader (44_bitstream_reader.md R136, R141): NextBit yields the bits ahead in order. -/

namespace Sys2Proof.Machine

/-- A reader with a bit in its buffer has that bit ahead first (R136). -/
theorem yieldBit_ahead {r : BR} (h : r.rcnt ≠ 0) :
    ∃ v r', yieldBit r = .bit v r' ∧ r.ahead = v :: r'.ahead ∧ r'.srcEod = r.srcEod ∧ r'.src = r.src ∧
      r'.rbuf = r.rbuf ∧ r'.rcnt.val + 1 = r.rcnt.val := by
  have h0 : r.rcnt.val ≠ 0 := fun e => h (Fin.ext e)
  have h9 := r.rcnt.isLt
  refine ⟨_, _, rfl, ?_, rfl, rfl, rfl, ?_⟩
  · simp only [BR.ahead]
    rw [List.drop_eq_getElem_cons (by simp; omega), byteBits_getElem, List.cons_append]
    congr 2
    · omega
    · congr 1; omega
  · show r.rcnt.val - 1 + 1 = r.rcnt.val
    omega

/-- The reader with its exhausted buffer refilled. -/
theorem nextBit_fetch {r : BR} {w : Byte} {rest : List Token} (h0 : r.rcnt = 0) (hs : r.src = .byte w :: rest) :
    nextBit r = yieldBit { r with src := rest, rbuf := w, rcnt := 8 } := by
  simp only [nextBit, h0, hs, if_true]

/-- With an exhausted buffer nothing is ahead but the tokens' bits. -/
theorem ahead_of_empty {r : BR} (h0 : r.rcnt = 0) : r.ahead = tokenBits r.src := by
  simp only [BR.ahead, h0]
  simp

/-- The first bit ahead is what NextBit yields, said by its whole effect (R136). -/
theorem nextBit_of_ahead {r : BR} {v : Bool} {vs : List Bool} (h : r.ahead = v :: vs) :
    ∃ r', nextBit r = .bit v r' ∧ r'.ahead = vs ∧ r.Yields v r' := by
  by_cases h0 : r.rcnt = 0
  · have hb := h
    rw [ahead_of_empty h0] at h
    cases hs : r.src with
    | nil => rw [hs] at h; cases h
    | cons t rest =>
      cases t with
      | err => rw [hs] at h; cases h
      | byte w =>
        rw [hs] at h
        obtain ⟨v', r', hy, ha, he, h1, h2, h3⟩ :=
          yieldBit_ahead (r := { r with src := rest, rbuf := w, rcnt := 8 }) (by simp)
        have hc : BR.ahead { r with src := rest, rbuf := w, rcnt := 8 } = v :: vs := by
          rw [← h]; simp [BR.ahead, tokenBits]
        rw [hc] at ha
        cases ha
        refine ⟨r', by rw [nextBit_fetch h0 hs, hy], rfl, hb, he, fun h => absurd h0 h, fun _ => ⟨?_, ?_⟩⟩
        · have : r'.rcnt.val + 1 = 8 := h3
          omega
        · rw [h1, h2]; exact hs
  · obtain ⟨v', r', hy, ha, he, h1, h2, h3⟩ := yieldBit_ahead h0
    rw [h] at ha
    cases ha
    exact ⟨r', by simp only [nextBit, h0, if_false, hy], rfl, h, he, fun _ => ⟨h1, h2, h3⟩, fun h => absurd h h0⟩

/-- What NextBit yields is the first bit ahead (R136). -/
theorem ahead_of_nextBit {r r' : BR} {v : Bool} (h : nextBit r = .bit v r') : r.ahead = v :: r'.ahead := by
  cases ha : r.ahead with
  | cons v' vs =>
    obtain ⟨r1, h1, h2, -⟩ := nextBit_of_ahead ha
    rw [h] at h1
    cases h1
    rw [h2]
  | nil =>
    by_cases h0 : r.rcnt = 0
    · rw [ahead_of_empty h0] at ha
      unfold nextBit at h
      rw [if_pos h0] at h
      split at h
      · split at h <;> cases h
      · cases h
      · next w rest hs =>
        rw [hs] at ha
        have := congrArg List.length ha
        simp [tokenBits] at this
    · obtain ⟨v', r1, hy, ha', -⟩ := yieldBit_ahead h0
      rw [ha] at ha'
      cases ha'

/-- NextBit with nothing ahead (R136). -/
theorem nextBit_empty {r : BR} (h0 : r.rcnt = 0) (hs : r.src = []) :
    nextBit r = if r.srcEod then .eos else .blocked := by
  simp only [nextBit, h0, hs, if_true]

/-- NextBit at an `Err` token (R136). -/
theorem nextBit_err {r : BR} (h0 : r.rcnt = 0) (hs : r.src.head? = some .err) : nextBit r = .ioerr := by
  cases h : r.src with
  | nil => rw [h] at hs; cases hs
  | cons t rest =>
    rw [h] at hs
    cases hs
    simp only [nextBit, h0, h, if_true]

/-- The bits of pushed bytes (R137). -/
theorem tokenBits_bytes (bs : List Byte) : tokenBits (bs.map .byte) = bs.flatMap byteBits := by
  induction bs with
  | nil => rfl
  | cons b bs ih => simp only [List.map_cons, tokenBits, ih, List.flatMap_cons]

end Sys2Proof.Machine
end

