-- ==== Sys2Proof/Laws/Walker.lean ====
section
/-! SUPPORT. The walker (45_tree_walker.md R146 to R151): a step on the bit ahead, DEC along a path, and what each change
keeps of the walker's invariant. -/

namespace Sys2Proof.Machine

/-- A walker step with a bit ahead takes a branch (R147). -/
theorem dstepRule_of_ahead {s : Block} {v : Bool} {vs : List Bool} (hw : s.tw.wstate = .walk)
    (ha : s.br.ahead = v :: vs) :
    ∃ r, r.ahead = vs ∧ s.br.Yields v r ∧ dstepRule s = takeBranch s v r := by
  obtain ⟨r, hn, h1, h2⟩ := nextBit_of_ahead ha
  exact ⟨r, h1, h2, by simp only [dstepRule, hw, hn]; rfl⟩

theorem takeBranch_internal {s : Block} {v : Bool} (r : BR)
    (hk : (s.tb.node (childOf s.tb s.tw.cur v)).kind = .internal) :
    takeBranch s v r = .ok ({ s with br := r, tw := { s.tw with cur := childOf s.tb s.tw.cur v } },
      okReply 0 (walkValue (childOf s.tb s.tw.cur v) false)) := by
  simp only [takeBranch, hk]

theorem takeBranch_leaf {s : Block} {v : Bool} (r : BR)
    (hk : (s.tb.node (childOf s.tb s.tw.cur v)).kind = .leaf) :
    takeBranch s v r = .ok
      ({ s with br := r, tw := emitByte s.tw s.tb.root (s.tb.node (childOf s.tb s.tw.cur v)).sym },
        okReply (s.tb.node (childOf s.tb s.tw.cur v)).sym (walkValue s.tb.root true)) := by
  simp only [takeBranch, hk]

theorem takeBranch_dummy {s : Block} {v : Bool} (r : BR)
    (hk : (s.tb.node (childOf s.tb s.tw.cur v)).kind = .dummy) :
    takeBranch s v r = .error ⟨.badPath, zext32 s.tw.cur⟩ := by
  simp only [takeBranch, hk]

/-- DEC along a path to a leaf (R150): the path is consumed and the leaf's byte emitted. -/
theorem decRun_path : ∀ (p : List Bool) {rest : List Bool} {s : Block} {leaf : NodeIdx}, s.tw.wstate = .walk →
    s.tb.internal s.tw.cur → s.tb.follow s.tw.cur p = some leaf → (s.tb.node leaf).kind = .leaf →
    s.br.ahead = p ++ rest →
    ∃ r : BR, r.ahead = rest ∧ s.br.YieldsAll p r ∧
      decRun s = ({ s with br := r, tw := emitByte s.tw s.tb.root (s.tb.node leaf).sym },
        okReply (s.tb.node leaf).sym (walkValue s.tb.root true))
  | [], rest, s, leaf, hw, hi, hf, hl, ha => by
    simp only [TB.follow, Option.some.injEq] at hf
    unfold TB.internal at hi
    rw [hf, hl] at hi
    cases hi
  | v :: p, rest, s, leaf, hw, hi, hf, hl, ha => by
    have hk : (s.tb.node s.tw.cur).kind = .internal := hi
    simp only [TB.follow, hk, if_true] at hf
    obtain ⟨r, hr, he, hd⟩ := dstepRule_of_ahead hw (by rw [ha]; rfl)
    by_cases hc : s.tb.internal (childOf s.tb s.tw.cur v)
    · rw [takeBranch_internal r hc] at hd
      obtain ⟨r', h1, h2, h3⟩ := decRun_path p (rest := rest)
        (s := { s with br := r, tw := { s.tw with cur := childOf s.tb s.tw.cur v } }) hw hc hf hl hr
      exact ⟨r', h1, ⟨r, he, h2⟩, (decRun_silent hd (by simp)).trans h3⟩
    · obtain ⟨rfl, e⟩ := TB.follow_stop hc hf
      rw [← e] at hl
      rw [takeBranch_leaf r hl] at hd
      refine ⟨r, hr, ⟨r, he, rfl⟩, ?_⟩
      rw [decRun_loud, hd, e]
      · rfl
      · intro t q hq
        rw [hd] at hq
        cases hq
        simp

/-! ## The walker's invariant -/

/-- A walker that has not started, over any table (R48.7). -/
theorem TW.Ok.of_reset (f : FC) (t : TB) : TW.Ok f t .reset :=
  ⟨rfl, by decide, fun _ => rfl, fun h => absurd rfl h, fun h => (by cases h)⟩

/-- The walker is idle while there is no tree. -/
theorem TW.Ok.idle_of {f : FC} {t : TB} {w : TW} (h : w.Ok f t) (hv : t.treeValid = false) : w = .reset := by
  apply h.idle
  by_contra hne
  rw [(h.started hne).1] at hv
  cases hv

/-- DSTART (R146). -/
theorem TW.Ok.start {s : Block} (hB : s.tb.treeValid = true → s.tb.Built s.fc) (hv : s.tb.treeValid = true)
    (h : s.tw.Ok s.fc s.tb) (hi : s.tw.wstate = .idle) : (startWalk s).Ok s.fc s.tb := by
  have hr := h.idle hi
  have h0 : (0 : SumWord).toNat = 0 := rfl
  refine ⟨?_, ?_, fun hw => ?_, fun _ => ⟨hv, rfl⟩, fun hw => ⟨?_, (hB hv).root_internal⟩⟩
  · simp only [startWalk, hr]; rfl
  · rw [BitVec.le_def]; exact Nat.zero_le _
  · simp only [startWalk] at hw; split at hw <;> cases hw
  · simp only [startWalk] at hw
    split at hw
    · cases hw
    · next hne =>
      rw [BitVec.lt_def]
      exact Nat.pos_of_ne_zero fun e => hne (BitVec.eq_of_toNat_eq e)

/-- The end of the source (R151). -/
theorem TW.Ok.ended {f : FC} {t : TB} {w : TW} (h : w.Ok f t) (hw : w.wstate = .walk) (r : NodeIdx) :
    (endShort w r).Ok f t :=
  ⟨h.count, h.bound, fun hi => (by cases hi), fun _ => h.started (by rw [hw]; decide), fun hi => (by cases hi)⟩

/-- A branch to an internal node (R147). -/
theorem TW.Ok.walked {f : FC} {t : TB} {w : TW} (h : w.Ok f t) (hw : w.wstate ≠ .idle) {c : NodeIdx}
    (hc : (t.node c).kind = .internal) : ({ w with cur := c } : TW).Ok f t :=
  ⟨h.count, h.bound, fun hi => absurd hi hw, h.started, fun hk => ⟨(h.walking hk).1, hc⟩⟩

/-- A byte emitted (R148). -/
theorem TW.Ok.emitted {f : FC} {t : TB} {w : TW} (hB : t.Built f) (h : w.Ok f t) (hw : w.wstate = .walk) (b : Byte) :
    (emitByte w t.root b).Ok f t := by
  have hlt := BitVec.lt_def.1 (h.walking hw).1
  have hx := w.expected.isLt
  have e1 : (w.emitted + 1).toNat = w.emitted.toNat + 1 := by
    have : (w.emitted + 1).toNat = (w.emitted.toNat + 1) % 2 ^ 40 := rfl
    omega
  refine ⟨?_, ?_, fun hi => ?_, fun _ => h.started (by rw [hw]; decide), fun hk => ⟨?_, hB.root_internal⟩⟩
  · show (w.emitted + 1).toNat = (w.dout ++ [b]).length
    rw [e1, h.count, List.length_append]; rfl
  · rw [BitVec.le_def]
    show (w.emitted + 1).toNat ≤ w.expected.toNat
    omega
  · simp only [emitByte, hw] at hi
    split at hi <;> cases hi
  · simp only [emitByte, hw] at hk
    split at hk
    · cases hk
    · next hne =>
      rw [BitVec.lt_def]
      show (w.emitted + 1).toNat < w.expected.toNat
      have : (w.emitted + 1).toNat ≠ w.expected.toNat := fun e => hne (BitVec.eq_of_toNat_eq e)
      omega

/-- From an internal node of a built tree a branch leads to an internal node, to a leaf, or to the dummy. -/
theorem TB.Built.child_kind {f : FC} {t : TB} (h : t.Built f) {i : NodeIdx} (hi : t.internal i) (v : Bool)
    (h1 : (t.node (childOf t i v)).kind ≠ .leaf) (h2 : (t.node (childOf t i v)).kind ≠ .dummy) :
    (t.node (childOf t i v)).kind = .internal := by
  have := (h.children i v hi).2
  cases e : (t.node (childOf t i v)).kind <;> simp_all

end Sys2Proof.Machine
end

