-- ==== Sys2Proof/Tests/Slice0.lean ====
section
/-! SUPPORT. Tests of the checks, the decoder and single steps, with expected words from the spec's rules and from
95_test_vectors.md, and for each obligation a witness that meets its hypotheses. -/

namespace Sys2Proof.Tests
open Sys2Proof Sys2Proof.Machine
-- One theorem after another, so that the kernel evaluations below do not run side by side.
set_option Elab.async false

/-! ## WellFormed: each check of R77 refuses an ill-formed raw command, and the boundary value beside it passes -/

theorem test_wf_undefinedOp : RawCommand.legal ⟨0x04, 0, 0⟩ = false ∧ RawCommand.legal ⟨0xFF, 0, 0⟩ = false := by
  decide

theorem test_wf_noOperand : RawCommand.legal ⟨0x00, 1, 0⟩ = false ∧ RawCommand.legal ⟨0x20, 0, 0x80000000⟩ = false ∧
    RawCommand.legal ⟨0x20, 0, 0⟩ = true := by decide

theorem test_wf_byte : RawCommand.legal ⟨0x10, 0x61, 1⟩ = false ∧ RawCommand.legal ⟨0x10, 0xFF, 0⟩ = true := by decide

theorem test_wf_byteCount : RawCommand.legal ⟨0x11, 0xFF, 0xFFFFFFFF⟩ = true := by decide

theorem test_wf_bit : RawCommand.legal ⟨0x40, 2, 0⟩ = false ∧ RawCommand.legal ⟨0x40, 1, 1⟩ = false ∧
    RawCommand.legal ⟨0x40, 1, 0⟩ = true := by decide

theorem test_wf_nodeIndex : RawCommand.legal ⟨0x21, 0, 512⟩ = false ∧ RawCommand.legal ⟨0x22, 1, 0⟩ = false ∧
    RawCommand.legal ⟨0x21, 0, 511⟩ = true := by decide

theorem test_wf_bytePos : RawCommand.legal ⟨0x32, 0x61, 256⟩ = false ∧ RawCommand.legal ⟨0x32, 0x61, 255⟩ = true := by
  decide

/-! ## Decode: every command's word, written from R70, R71 and R76 -/

theorem test_decode_control : decode 0x000000000000 = .ok .nop ∧ decode 0x010000000000 = .ok .reset ∧
    decode 0x020000000000 = .ok .status ∧ decode 0x030000000000 = .ok .rdfault := by decide

theorem test_decode_frequency : decode 0x106100000000 = .ok (.cnt 0x61) ∧
    decode 0x11FF89ABCDEF = .ok (.loadf 0xFF 0x89ABCDEF) ∧ decode 0x126100000000 = .ok (.rdf 0x61) ∧
    decode 0x130000000000 = .ok .rdnsym ∧ decode 0x140000000000 = .ok .rdtot := by decide

theorem test_decode_header : decode 0x180A00000000 = .ok (.hdrb 0x0A) ∧ decode 0x190000000000 = .ok .hdrser := by decide

theorem test_decode_builder : decode 0x200000000000 = .ok .build ∧ decode 0x2100000001FF = .ok (.rdnode 511) ∧
    decode 0x220000000102 = .ok (.rdnfrq 258) ∧ decode 0x230000000000 = .ok .rdroot := by decide

theorem test_decode_codeTable : decode 0x300000000000 = .ok .gencode ∧ decode 0x316100000000 = .ok (.rdclen 0x61) ∧
    decode 0x3262000000FE = .ok (.rdcbit 0x62 0xFE) := by decide

theorem test_decode_writer : decode 0x400000000000 = .ok (.wbit false) ∧ decode 0x400100000000 = .ok (.wbit true) ∧
    decode 0x410000000000 = .ok .wflush ∧ decode 0x427A00000000 = .ok (.enc 0x7A) ∧
    decode 0x430000000000 = .ok .snkfail := by decide

theorem test_decode_reader : decode 0x506E00000000 = .ok (.push 0x6E) ∧ decode 0x510000000000 = .ok .pusherr ∧
    decode 0x520000000000 = .ok .eod ∧ decode 0x530000000000 = .ok .rbit := by decide

theorem test_decode_walker : decode 0x600000000000 = .ok .dstart ∧ decode 0x610000000000 = .ok .dstep ∧
    decode 0x620000000000 = .ok .dec := by decide

/-- The field boundaries of R70, bit by bit: OP 0x50, B 0x6E, N 0. -/
theorem test_decode_bits : decode 0b010100000110111000000000000000000000000000000000 = .ok (.push 0b01101110) := by decide

theorem test_tableWord : decodeTableWord 48 0x506E00000000 = some (.push 0x6E) ∧
    decodeTableWord 48 0x506E00000001 = none ∧ decodeTableWord 48 0xFF0000000000 = none := by decide

theorem test_withFetchWord : step (State.reset.withFetchWord 48 0x106100000000) = exec (.cnt 0x61) State.reset := rfl

/-! ## Small states -/

/-- The last response word of a command. -/
def answer (i : Instr) (s : State) : Option RspWord :=
  match exec i s with
  | .next t => t.rsps.getLast?
  | .fault _ | .refused _ => none

/-- The state a command leaves. -/
def after (i : Instr) (s : State) : State :=
  match exec i s with
  | .next t => t
  | .fault _ | .refused _ => s

/-- The frequency table with the pairs entered. -/
def tableOf (ps : List (Byte × CountWord)) : FC := ps.foldl (fun f p => enterPair f p.1 p.2) .reset

/-- The table of `abracadabra` (V1 step 1). -/
def abraTable : FC := tableOf [(97, 5), (98, 2), (99, 1), (100, 1), (114, 2)]

/-- A leaf of `abraTree`. -/
def leafOf (b : Byte) (n : SumWord) : Node := ⟨.leaf, b, n, 511, 511, false⟩

/-- The leaves of `abraTree`. -/
def abraLeaves : TB := ((((TB.reset.setNode 97 (leafOf 97 5)).setNode 98 (leafOf 98 2)).setNode 99 (leafOf 99 1)).setNode
  100 (leafOf 100 1)).setNode 114 (leafOf 114 2)

/-- The tree of `abracadabra`, from the table of V1 step 2. -/
def abraTree : TB := { (((abraLeaves.setNode 256 ⟨.internal, 0, 2, 99, 100, false⟩).setNode 257 ⟨.internal, 0, 4, 98, 114,
  false⟩).setNode 258 ⟨.internal, 0, 6, 256, 257, false⟩).setNode 259 ⟨.internal, 0, 11, 97, 258, true⟩ with
  root := 259, nint := 4, treeValid := true }

/-- A code of `abraCodes`. -/
def codeOf (len : Byte) (bits : BitVec 255) : CodeEntry := ⟨true, len, bits⟩

/-- The codes of `abracadabra` (R116's example): a `0`, b `110`, c `100`, d `101`, r `111`; the first branch is bit 0. -/
def abraCodes : CT := { ((((CT.reset.setEntry 97 (codeOf 1 0b0)).setEntry 98 (codeOf 3 0b011)).setEntry 99
  (codeOf 3 0b001)).setEntry 100 (codeOf 3 0b101)).setEntry 114 (codeOf 3 0b111) with codeValid := true }

/-- The table counted or loaded. -/
def counted : State := { State.reset with fc := abraTable }

/-- The tree built. -/
def built : State := { counted with tb := abraTree }

/-- The codes generated. -/
def coded : State := { built with ct := abraCodes }

/-- The walk started on the body of V1, its three bytes pushed. -/
def walking : State := { built with
  br := ⟨[.byte 0x6E, .byte 0x8A, .byte 0xDC], true, 0, 0⟩, tw := ⟨.walk, 259, 0, 11, false, false, []⟩ }

/-- The one-symbol tree of R105 with a walk started. -/
def oneWalk : State := { State.reset with
  fc := tableOf [(65, 4)]
  tb := { (TB.reset.setNode 65 (leafOf 65 4)).setNode 256 ⟨.internal, 0, 4, 65, 511, true⟩ with
    root := 256, nint := 1, treeValid := true }
  br := ⟨[.byte 0x80], true, 0, 0⟩, tw := ⟨.walk, 256, 0, 4, false, false, []⟩ }

/-- A faulted block, with the fault registers of V13 (`LOADF 97` twice). -/
def faulted : State := { counted with flt := ⟨2, 0x11, 0x61⟩ }

/-- The header parser in a state. -/
def parsing (h : HState) (b : Byte) (n : CountWord) : State := { State.reset with hc := ⟨h, b, n⟩ }

/-- The writer in a state, the sink empty. -/
def writing (buf : Byte) (cnt : BitVec 3) (closed fail : Bool) : State :=
  { State.reset with bw := ⟨[], buf, cnt, closed, fail⟩ }

/-- The reader in a state. -/
def reading (src : List Token) (eod : Bool) : State := { State.reset with br := ⟨src, eod, 0, 0⟩ }

/-! ## Single steps -/

/-- R172: STATUS after the decode procedure on `abracadabra` reads 0x11609. -/
theorem test_status : answer .status { State.reset with
    hc := ⟨.done, 0, 0⟩, tb := { TB.reset with treeValid := true }, br := ⟨[], true, 0xDC, 1⟩
    tw := ⟨.done, 259, 11, 11, false, false, []⟩ } = some 0x0000000000011609 := by decide +kernel

/-- R172 after Scenario D: FAULTED and H_CSTART. -/
theorem test_status_faulted : answer .status { parsing .cstart 97 0 with flt := ⟨2, 0x18, 0x61⟩ } =
    some 0x0002000000000880 := by decide +kernel

/-- R173 after Scenario D. -/
theorem test_rdfault : answer .rdfault { State.reset with flt := ⟨2, 0x18, 0x61⟩ } = some 0x0002001800000061 := by
  decide +kernel

/-- R190: NOP runs in a faulted block, CNT is REFUSED with AUX the fault code. -/
theorem test_refused : answer .nop faulted = some 0 ∧ answer (.cnt 0x62) faulted = some 0xFF02000000000000 := by
  decide +kernel

/-- R171: nothing of a call survives RESET. -/
theorem test_reset : after .reset { walking with flt := ⟨3, 0x61, 1⟩, rsps := [] } =
    { State.reset with rsps := [0] } := rfl

/-- R92's example, and the second count. -/
theorem test_cnt : answer (.cnt 0x61) State.reset = some 0x0000000000000001 ∧
    answer (.cnt 0x61) counted = some 0x0000000000000006 := by decide +kernel

/-- R92, R185: the count is at its top. -/
theorem test_cnt_overflow : answer (.cnt 0x61) { State.reset with fc := tableOf [(0x61, 0xFFFFFFFF)] } =
    some 0x8500000000000061 := by decide +kernel

/-- V13: the second LOADF of one key. -/
theorem test_loadf_duplicate : answer (.loadf 97 6) counted = some 0x8200000000000061 := by decide +kernel

/-- R94 to R96 on the table of V1. -/
theorem test_frequency_reads : answer (.rdf 0x61) counted = some 0x0001000000000005 ∧
    answer (.rdf 0x7A) counted = some 0 ∧ answer .rdnsym counted = some 5 ∧ answer .rdtot counted = some 0xB := by
  decide +kernel

/-- R158, Scenario D: `a` where a count must stand. -/
theorem test_hdrb_malformed : answer (.hdrb 0x61) (parsing .cstart 97 0) = some 0x8200000000000061 := by decide +kernel

/-- R158: the terminator commits the pair and answers AUX 1. -/
theorem test_hdrb_commit : answer (.hdrb 0x0A) (parsing .cdig 98 2) = some 0x0001000000000000 ∧
    ((after (.hdrb 0x0A) (parsing .cdig 98 2)).fc.entry 98) = ⟨true, 2⟩ := by decide +kernel

/-- R161: the header of `abracadabra`, 27 bytes. -/
theorem test_hdrser : answer .hdrser counted = some 0x000000000000001B ∧ (after .hdrser counted).bw.sink =
    [0x39, 0x37, 0x3A, 0x35, 0x2C, 0x39, 0x38, 0x3A, 0x32, 0x2C, 0x39, 0x39, 0x3A, 0x31, 0x2C, 0x31, 0x30, 0x30,
      0x3A, 0x31, 0x2C, 0x31, 0x31, 0x34, 0x3A, 0x32, 0x0A] := by decide +kernel

/-- V1 step 2: BUILD makes the tree of the worked example. -/
theorem test_build : let t := (after .build counted).tb
    [97, 256, 257, 258, 259, 300].map t.node = [97, 256, 257, 258, 259, 300].map abraTree.node ∧
    (t.root, t.nint, t.treeValid) = (259, 4, true) := by decide +kernel

/-- R108 to R110 on the tree of V1. -/
theorem test_node_reads : answer (.rdnode 259) built = some 0x000000000018C302 ∧
    answer (.rdnode 97) built = some 0x006100000007FFFF ∧ answer (.rdnode 511) built = some 0x00000000000FFFFF ∧
    answer (.rdnfrq 258) built = some 6 ∧ answer .rdroot built = some 0x0001000000040103 := by decide +kernel

/-- R116's example. -/
theorem test_gencode : [97, 98, 99, 100, 114, 122].map (after .gencode built).ct.entry =
    [97, 98, 99, 100, 114, 122].map abraCodes.entry ∧ answer .gencode built = some 5 := by decide +kernel

/-- R118, R119: the examples. -/
theorem test_code_reads : answer (.rdclen 0x61) coded = some 0x0001000000000001 ∧
    answer (.rdcbit 0x62 0) coded = some 0x0001000000000001 ∧ answer (.rdcbit 0x62 2) coded = some 0x0000000000000001 ∧
    answer (.rdcbit 0x62 3) coded = some 0 := by decide +kernel

/-- R128's example: the eighth bit of `01101110` puts 0x6E. -/
theorem test_wbit_puts : answer (.wbit false) (writing 0b01101110 7 false false) = some 0x000100000000006E ∧
    (after (.wbit false) (writing 0b01101110 7 false false)).bw = ⟨[0x6E], 0, 0, false, false⟩ := by decide +kernel

/-- R130's example: the eighth bit on a failing sink. -/
theorem test_wbit_fails : answer (.wbit false) (writing 0 7 false true) = some 0x8300000000000000 ∧
    answer (.wbit true) (writing 0 6 false true) = some 0 := by decide +kernel

/-- R129's example: seven bits `1101110` flushed. -/
theorem test_wflush : answer .wflush (writing 0b11011100 7 false false) = some 0x00010000000000DC ∧
    answer .wflush (writing 0 0 true false) = some 0x8700000000000000 := by decide +kernel

/-- R156's example: `b` after `a`, then `z`. -/
theorem test_enc : (after (.enc 0x62) { coded with bw := ⟨[], 0, 1, false, false⟩ }).bw.wbuf = 0b01100000 ∧
    answer (.enc 0x62) { coded with bw := ⟨[], 0, 1, false, false⟩ } = some 0x0003000000000000 ∧
    answer (.enc 0x7A) coded = some 0x840000000000007A := by decide +kernel

/-- R130: SNKFAIL. -/
theorem test_snkfail : (after .snkfail State.reset).bw.snkFail = true ∧ answer .snkfail State.reset = some 0 := by
  decide +kernel

/-- R137, R138: tokens join at the end. -/
theorem test_push : (after .pusherr (after (.push 0x6E) (reading [.byte 1] false))).br.src =
    [.byte 1, .byte 0x6E, .err] := by decide +kernel

/-- R140: EOD, and a second one. -/
theorem test_eod : answer .eod State.reset = some 0 ∧ answer .eod (reading [] true) = some 0x8700000000000000 := by
  decide +kernel

/-- R138 to R140: a bit, the end, nothing yet, an error. -/
theorem test_rbit : answer .rbit (reading [.byte 0x80] false) = some 0x0001000000000000 ∧
    answer .rbit (reading [] true) = some 0x0100000000000000 ∧
    answer .rbit (reading [] false) = some 0x0200000000000000 ∧
    answer .rbit (reading [.err] false) = some 0x8300000000000001 := by decide +kernel

/-- R146's example. -/
theorem test_dstart : answer .dstart built = some 0x000000000000000B ∧ (after .dstart built).tw.cur = 259 := by
  decide +kernel

/-- R147's example: the first two steps. -/
theorem test_dstep : answer .dstep walking = some 0x0061000000000207 ∧
    answer .dstep (after .dstep walking) = some 0x0000000000000204 := by decide +kernel

/-- R149: a 1 bit in the one-symbol tree; the bit is not consumed. -/
theorem test_dstep_badPath : answer .dstep oneWalk = some 0x8800000000000100 ∧ (after .dstep oneWalk).br = oneWalk.br := by
  decide +kernel

/-- R150's example: the first two bytes. -/
theorem test_dec : answer .dec walking = some 0x0061000000000207 ∧
    answer .dec (after .dec walking) = some 0x0062000000000207 := by decide +kernel

/-! ## Witnesses: for each obligation with hypotheses, states and operands that meet them, clause by clause -/

/-- `after` is where the command goes. -/
theorem exec_after (i : Instr) (s : State) : exec i s = .next (after i s) := by
  obtain ⟨t, h⟩ := exec_next i s
  simp only [after, h]

theorem wit_EncodeInvertsDecode : decode 0x3262000000FE = .ok (.rdcbit 0x62 0xFE) := by decide

theorem wit_OpcodeTableDecidesLegality : (⟨"CNT", 0x100000000000, 0xFF00FFFFFFFF⟩ : OpRow) ∈ opcodeTable ∧
    (⟨"CNT", 0x100000000000, 0xFF00FFFFFFFF⟩ : OpRow).selects 0x106100000000 = true := by decide

/-- The port holding one word. -/
def offered (w : CmdWord) (s : State) : State := { s with cmds := [w] }

theorem step_offered (w : CmdWord) (s : State) : ∃ t, step (offered w s) = .next t := by
  rw [step_cons (s := offered w s) (w := w) (rest := []) rfl]
  unfold runWord
  split
  · exact exec_next ..
  · exact ⟨_, rfl⟩

theorem wit_StepRunsTheDecodedCommand : (offered 0x106100000000 State.reset).cmds = 0x106100000000 :: [] ∧
    decode 0x106100000000 = .ok (.cnt 0x61) := by decide

/-- One word on a block, no port in sight: NOP's response, and a faulted block's. -/
theorem test_block_step : Block.step 0x000000000000 .reset = .next (.reset, [0]) ∧
    Block.step 0x106200000000 faulted.toBlock = .next (faulted.toBlock, [0xFF02000000000000]) := ⟨rfl, rfl⟩

theorem wit_StepIsTheBlockStep : (offered 0x106100000000 counted).toBlock = counted.toBlock ∧
    (offered 0x106100000000 counted).cmds = 0x106100000000 :: [] := ⟨rfl, rfl⟩

theorem wit_StepStopsOnlyWithoutACommand : State.reset.cmds = [] ∧ (offered 0x106100000000 State.reset).cmds ≠ [] := by
  decide

theorem wit_IllegalWord : (rawOf 0x400200000000).legal = false ∧ (rawOf 0xFF0000000000).legal = false ∧
    (offered 0x400200000000 State.reset).faulted = false ∧ (offered 0x400200000000 faulted).faulted = true := by decide

theorem wit_EveryCommandRespondsExactlyOnce : exec (.cnt 0x61) State.reset = .next (after (.cnt 0x61) State.reset) :=
  exec_after ..

theorem wit_FaultedBlockRefuses : faulted.flt.code ≠ 0 ∧ (rawOf 0x106100000000).legal = true ∧
    (0x106100000000 : CmdWord).extractLsb' 40 8 = 0x10 ∧ (rawOf 0x000000000001).legal = false ∧
    (rawOf 0x3262000000FF).legal = true ∧ (0x3262000000FF : CmdWord).extractLsb' 40 8 = 0x32 := by decide

theorem wit_FaultHoldsUntilReset : (offered 0x106100000000 faulted).flt.code ≠ 0 ∧
    (offered 0x106100000000 faulted).cmds.head? ≠ some (encode .reset) ∧
    ∃ t, step (offered 0x106100000000 faulted) = .next t := ⟨by decide, by decide, step_offered ..⟩

theorem wit_ProtocolErrorTable_forbidden : built.flt.code = 0 ∧ built.tb.treeValid = true ∧
    (parsing .done 0 0).hc.hstate = .done ∧ (parsing .bdig 9 0).hc.hstate = .bdig ∧
    (writing 0 0 true false).bw.wClosed = true ∧ (writing 0 7 false false).bw.wcnt ≠ 0 ∧
    coded.ct.codeValid = true ∧ (reading [] true).br.srcEod = true ∧ walking.tw.wstate ≠ .idle ∧
    State.reset.tw.wstate = .idle ∧ State.reset.tb.treeValid = false ∧ State.reset.ct.codeValid = false :=
  ⟨rfl, rfl, rfl, rfl, rfl, by decide, rfl, rfl, by decide, rfl, rfl, rfl⟩

theorem wit_ProtocolErrorTable_allowed : State.reset.tb.treeValid = false ∧ State.reset.hc.hstate ≠ .done ∧
    State.reset.bw.wClosed = false ∧ State.reset.bw.wcnt = 0 ∧ State.reset.bw.sink = [] ∧
    State.reset.br.srcEod = false ∧ built.tb.treeValid = true ∧ built.ct.codeValid = false ∧ built.tw.wstate = .idle ∧
    coded.ct.codeValid = true ∧ coded.bw.wClosed = false ∧ walking.tw.wstate ≠ .idle :=
  ⟨rfl, by decide, rfl, rfl, rfl, rfl, rfl, rfl, rfl, rfl, rfl, by decide⟩

theorem wit_FaultsArePrecise : coded.flt.code = 0 ∧ exec (.enc 0x7A) coded = .next (after (.enc 0x7A) coded) ∧
    (after (.enc 0x7A) coded).flt.code ≠ 0 := ⟨rfl, exec_after .., by decide +kernel⟩

theorem wit_UnitsChangeOnlyByTheirCommands : (after (.cnt 0x61) State.reset).fc.nsym ≠ State.reset.fc.nsym ∧
    (after (.hdrb 0x30) State.reset).hc ≠ State.reset.hc ∧ (after .build counted).tb.root ≠ counted.tb.root ∧
    (after .gencode built).ct.codeValid ≠ built.ct.codeValid ∧ (after (.wbit true) coded).bw ≠ coded.bw ∧
    (after .rbit walking).br ≠ walking.br ∧ (after .dstart built).tw ≠ built.tw := by decide +kernel

theorem wit_FlagsAreOneWay : exec .eod State.reset = .next (after .eod State.reset) ∧
    (after .eod State.reset).br.srcEod ≠ State.reset.br.srcEod ∧ faulted.flt.code ≠ 0 :=
  ⟨exec_after .., by decide +kernel, by decide⟩

theorem wit_SinkAndDoutAreAppendOnly : exec .dec walking = .next (after .dec walking) ∧
    (after .dec walking).tw.dout = [0x61] := ⟨exec_after .., by decide +kernel⟩

theorem wit_TableIsFrozenByBuild : exec (.cnt 0x61) built = .next (after (.cnt 0x61) built) ∧
    built.tb.treeValid = true := ⟨exec_after .., rfl⟩

/-- One key with a count. -/
def oneKey (b : Byte) (n : CountWord) : State := { State.reset with fc := tableOf [(b, n)] }

theorem wit_CntCountsOneByte : (oneKey 0xFF 0xFFFFFFFE).flt.code = 0 ∧ (oneKey 0xFF 0xFFFFFFFE).tb.treeValid = false ∧
    ((oneKey 0xFF 0xFFFFFFFE).fc.entry 0xFF).freq ≠ 0xFFFFFFFF ∧
    ((oneKey 0xFF 0xFFFFFFFF).fc.entry 0xFF).freq = 0xFFFFFFFF ∧ (built.flt.code = 0 ∧ built.tb.treeValid = true) := by
  decide +kernel

theorem wit_LoadfEntersOnePair : State.reset.flt.code = 0 ∧ State.reset.tb.treeValid = false ∧
    (State.reset.fc.entry 0xFF).pres = false ∧ ((oneKey 0xFF 0).fc.entry 0xFF).pres = true ∧
    (oneKey 0xFF 0).tb.treeValid = false ∧ built.tb.treeValid = true := by decide +kernel

theorem wit_CountingGivesTheHistogram : ∀ b : Byte, [0x61#8, 0xFF#8, 0x61#8].count b < 2 ^ 32 :=
  fun _ => Nat.lt_of_le_of_lt List.count_le_length (by decide)

/-- The sums of a table with one pair. -/
theorem oneKey_ok (b : Byte) (n : CountWord) : (oneKey b n).fc.Ok :=
  FC.Ok.reset.enterPair (by rw [FC.entry_reset]; rfl) n

/-- The sums of the table of V1. -/
theorem abraTable_ok : abraTable.Ok := by
  refine ((((oneKey_ok 97 5).enterPair ?_ 2).enterPair ?_ 1).enterPair ?_ 1).enterPair ?_ 2 <;> decide +kernel

theorem wit_StepKeepsTheFrequencySums : (offered 0x106100000000 counted).fc.Ok ∧
    ∃ t, step (offered 0x106100000000 counted) = .next t := ⟨abraTable_ok, step_offered ..⟩

/-- R158's accepting clauses, the digits and accumulators at their bounds. -/
theorem wit_HeaderParserAccepts : State.reset.flt.code = 0 ∧ State.reset.tb.treeValid = false ∧
    (0x30 ≤ (0x30 : Byte).toNat ∧ (0x39 : Byte).toNat ≤ 0x39) ∧ (parsing .pair 0 0).hc.hstate = .pair ∧
    (parsing .bdig 25 0).hc.hb.toNat * 10 + 5 ≤ 255 ∧ (parsing .cstart 25 0).hc.hstate = .cstart ∧
    (parsing .cdig 25 429496729).hc.hn.toNat * 10 + 5 ≤ 4294967295 ∧
    ((parsing .cdig 25 0).fc.entry 25).pres = false := by decide +kernel

/-- R158's rejecting clauses: the characters beside the digits, the accumulators one above their bounds. -/
theorem wit_HeaderParserRejects : (¬ (0x30 ≤ (0x2F : Byte).toNat) ∧ ¬ ((0x3A : Byte).toNat ≤ 0x39)) ∧
    (0x2F : Byte) ≠ 0x0A ∧ (0x3B : Byte) ≠ 0x3A ∧ 255 < (parsing .bdig 25 0).hc.hb.toNat * 10 + 6 ∧
    4294967295 < (parsing .cdig 25 429496729).hc.hn.toNat * 10 + 6 ∧
    ({ oneKey 25 7 with hc := ⟨.cdig, 25, 3⟩ } : State).hc.hstate = .cdig ∧
    (({ oneKey 25 7 with hc := ⟨.cdig, 25, 3⟩ } : State).fc.entry 25).pres = true := by decide +kernel

theorem wit_HdrserWritesTheHeaderLine : counted.flt.code = 0 ∧
    (counted.bw.wClosed = false ∧ counted.bw.wcnt = 0 ∧ counted.bw.sink = []) ∧ counted.bw.snkFail = false ∧
    (writing 0 0 false true).bw.snkFail = true ∧ (writing 0 1 false false).bw.wcnt ≠ 0 :=
  ⟨rfl, ⟨rfl, rfl, rfl⟩, rfl, rfl, by decide⟩

theorem wit_HeaderRoundTrip : counted.fc.Ok ∧ counted.flt.code = 0 ∧ counted.bw.snkFail = false ∧
    exec .hdrser counted = .next (after .hdrser counted) ∧ (after .hdrser counted).flt.code = 0 :=
  ⟨abraTable_ok, rfl, rfl, exec_after .., by decide +kernel⟩

theorem wit_WbitWritesOneBit : (writing 0b11111100 6 false true).bw.Ok ∧ (writing 0b11111110 7 false false).bw.Ok ∧
    (writing 0b11111110 7 false true).bw.Ok ∧ (writing 0 0 true false).bw.Ok ∧
    (writing 0b11111100 6 false true).bw.wcnt ≠ 7 ∧ (writing 0b11111110 7 false true).flt.code = 0 := by
  unfold BW.Ok; decide +kernel

theorem wit_WflushPadsAndCloses : (writing 0x80 1 false false).bw.wcnt ≠ 0 ∧ (writing 0 0 false false).bw.wcnt = 0 ∧
    (writing 0 0 false true).bw.snkFail = true ∧ (writing 0 0 true true).bw.wClosed = true ∧
    (writing 0x80 1 false false).flt.code = 0 := by decide

theorem wit_EnvironmentCommands : State.reset.flt.code = 0 ∧ State.reset.br.srcEod = false ∧
    (reading [.err] true).br.srcEod = true ∧ (reading [.err] true).flt.code = 0 := by decide

theorem wit_StepKeepsTheWriterPadding : (offered 0x400100000000 (writing 0b11111110 7 false false)).bw.Ok ∧
    ∃ t, step (offered 0x400100000000 (writing 0b11111110 7 false false)) = .next t :=
  ⟨by unfold BW.Ok; decide +kernel, step_offered ..⟩

/-- `coded` with the writer holding bits. -/
def encoding (buf : Byte) (cnt : BitVec 3) (fail : Bool) : State := { coded with bw := ⟨[], buf, cnt, false, fail⟩ }

/-- R156 with no byte put on a failing sink, and with one byte put on a good one. -/
theorem wit_EncWritesTheCode : (encoding 0b11110000 4 true).bw.Ok ∧ (encoding 0b11111000 5 false).bw.Ok ∧
    (encoding 0b11110000 4 true).flt.code = 0 ∧ (encoding 0b11110000 4 true).ct.codeValid = true ∧
    ((encoding 0b11110000 4 true).ct.entry 0x62).valid = true ∧
    ((encoding 0b11110000 4 true).bw.wcnt.toNat + ((encoding 0b11110000 4 true).ct.entry 0x62).len.toNat) / 8 = 0 ∧
    ((encoding 0b11111000 5 false).bw.wcnt.toNat + ((encoding 0b11111000 5 false).ct.entry 0x62).len.toNat) / 8 = 1 := by
  unfold BW.Ok; decide +kernel

theorem wit_EncFaults : (coded.ct.entry 0x7A).valid = false ∧ coded.bw.wClosed = false ∧ coded.flt.code = 0 ∧
    ((encoding 0b11111000 5 true).bw.wcnt.toNat + ((encoding 0b11111000 5 true).ct.entry 0x62).len.toNat) / 8 ≠ 0 ∧
    (encoding 0b11111000 5 true).bw.snkFail = true := by decide +kernel

theorem wit_RbitReadsOneBit : (reading [.byte 0x80] false).br.ahead = true :: List.replicate 7 false ∧
    (BR.ahead ⟨[], false, 0x01, 1⟩) = [true] ∧ (reading [] true).br.src = [] ∧ (reading [] true).br.rcnt = 0 ∧
    (reading [.err] false).br.src.head? = some .err := by decide +kernel

theorem wit_ExtractMinTakesTheLeastKey : (∀ i, (TB.reset.node i).active = false) ∧ (abraTree.node 259).active = true := by
  refine ⟨fun i => ?_, by decide +kernel⟩
  by_cases h : i = 511
  · subst h; rfl
  · rw [TB.node_reset h]; rfl

theorem wit_BuildMakesTheTree : counted.flt.code = 0 ∧ counted.fc.Ok ∧ counted.tb = .reset ∧ counted.hc.hstate = .line0 ∧
    ({ counted with hc := ⟨.done, 114, 2⟩ } : State).hc.hstate = .done ∧ counted.fc.nsym ≠ 0 :=
  ⟨rfl, abraTable_ok, rfl, rfl, rfl, by decide +kernel⟩

/-- Two leaves in the queue. -/
def twoLeaves : TB := (TB.reset.setNode 97 { leafOf 97 5 with active := true }).setNode 98
  { leafOf 98 2 with active := true }

/-- The first merge and the last possible one. -/
theorem wit_MergeJoinsTheTwoLeastNodes : 2 ≤ twoLeaves.size ∧ (∀ i, (twoLeaves.node i).active = true → i < intIdx 0) ∧
    (∀ i, (twoLeaves.node i).active = true → i < intIdx 254) := by
  have key : ∀ i, (twoLeaves.node i).active = true → i = 98 ∨ i = 97 := by
    intro i h
    by_contra hn
    obtain ⟨h1, h2⟩ := not_or.1 hn
    rw [twoLeaves, TB.node_setNode_ne _ _ h1, TB.node_setNode_ne _ _ h2] at h
    rw [wit_ExtractMinTakesTheLeastKey.1 i] at h
    cases h
  refine ⟨by decide +kernel, fun i h => ?_, fun i h => ?_⟩ <;> rcases key i h with rfl | rfl <;> decide

theorem wit_BuildOneSymbolTree : (oneKey 0xFF 0).fc.Ok ∧ (oneKey 0xFF 0).tb = .reset ∧ (oneKey 0xFF 0).fc.nsym = 1 ∧
    ((oneKey 0xFF 0).fc.entry 0xFF).pres = true ∧ (oneKey 0xFF 0).hc.hstate = .line0 :=
  ⟨oneKey_ok .., rfl, rfl, by decide +kernel, rfl⟩

theorem wit_BuildOnTheEmptyTableFaults : State.reset.flt.code = 0 ∧ State.reset.tb.treeValid = false ∧
    State.reset.hc.hstate = .line0 ∧ (parsing .done 0 0).hc.hstate = .done ∧ State.reset.fc.nsym = 0 := by decide

/-- A state before BUILD meets the invariants. -/
theorem counted_inv (h : HC) : ({ counted with hc := h } : State).Inv :=
  ⟨abraTable_ok, rfl, rfl, .of_empty rfl, .of_reset .., show (0 : Byte) ≤ 8 by decide⟩

theorem wit_BuildDependsOnTheTableOnly : counted.Inv ∧ ({ counted with hc := ⟨.done, 114, 2⟩ } : State).Inv ∧
    counted.tb.treeValid = false ∧ exec .build counted = .next (after .build counted) ∧
    (after .build counted).flt.code = 0 := ⟨counted_inv _, counted_inv _, rfl, exec_after .., by decide +kernel⟩

/-- The tree BUILD leaves for the table of V1. -/
def grown : State := { counted with tb := buildTree abraTable .reset }

theorem abra_built : TB.Built abraTable (buildTree abraTable .reset) :=
  buildTree_built abraTable_ok (show abraTable.nsym ≠ 0 by decide +kernel)

theorem grown_built : grown.tb.Built grown.fc := abra_built

theorem wit_GencodeAssignsTheRootPaths : grown.flt.code = 0 ∧ grown.tb.treeValid = true ∧ grown.tb.Built grown.fc ∧
    grown.fc.Ok ∧ grown.ct = .reset := ⟨rfl, rfl, grown_built, abraTable_ok, rfl⟩

theorem wit_DstartStartsTheWalk : built.flt.code = 0 ∧ built.tb.treeValid = true ∧ built.tw.wstate = .idle ∧
    walking.tw.wstate ≠ .idle ∧ State.reset.tb.treeValid = false := ⟨rfl, rfl, rfl, by decide, rfl⟩

/-- `walking` with other tokens. -/
def walkingOn (src : List Token) (eod : Bool) : State := { walking with br := ⟨src, eod, 0, 0⟩ }

/-- R147 from the root: a 0 leads to a leaf, a 1 to an internal node. -/
theorem wit_DstepTakesOneBranch : walking.flt.code = 0 ∧ walking.tw.wstate = .walk ∧
    (walkingOn [.byte 0x00] true).br.ahead = false :: List.replicate 7 false ∧
    (walkingOn [.byte 0x80] true).br.ahead = true :: List.replicate 7 false ∧
    (walking.tb.node (walking.tb.node walking.tw.cur).left).kind = .leaf ∧
    (walking.tb.node (walking.tb.node walking.tw.cur).right).kind = .internal := by decide +kernel

theorem wit_DstepWithoutABranch : ({ walking with tw := { walking.tw with wstate := .done } } : State).tw.wstate = .done ∧
    oneWalk.tw.wstate = .walk ∧ oneWalk.br.ahead = true :: List.replicate 7 false ∧
    (oneWalk.tb.node (oneWalk.tb.node oneWalk.tw.cur).right).kind = .dummy ∧
    (walkingOn [] false).br.srcEod = false ∧ (walkingOn [] true).br.srcEod = true ∧
    (walkingOn [.err] true).br.src.head? = some .err := by decide +kernel

/-- R150: a DSTEP that goes on, one that stops, and no walk. -/
theorem wit_DecRepeatsDstep : walking.flt.code = 0 ∧ walking.tw.wstate ≠ .idle ∧
    exec .dstep walking = .next (after .dstep walking) ∧
    (after .dstep (walkingOn [.byte 0x80] true)).rsps = [(Reply.mk 0x00 0 (((258 : NodeIdx) ++ 0#1).setWidth 40)).word] ∧
    (∀ cur : NodeIdx, (after .dstep walking).rsps ≠ [(Reply.mk 0x00 0 ((cur ++ 0#1).setWidth 40)).word]) ∧
    built.tw.wstate = .idle := by
  have h : (after .dstep walking).rsps = [(Reply.mk 0x00 0x61 0x207).word] := by decide +kernel
  refine ⟨rfl, by decide, exec_after .., by decide +kernel, fun cur e => ?_, rfl⟩
  have e1 := congrArg (fun r : RspWord => r.getLsbD 48) (List.cons.inj (h.symm.trans e)).1
  simp only [Reply.word, BitVec.getLsbD_append] at e1
  simp at e1

/-- A path of one branch and one of three, from the root. -/
theorem wit_DecEmitsTheByteOfAPath : walking.tw.wstate = .walk ∧ walking.flt.code = 0 ∧
    (walking.tb.node walking.tw.cur).kind = .internal ∧ walking.tb.follow walking.tw.cur [false] = some 97 ∧
    walking.tb.follow walking.tw.cur [true, false, true] = some 100 ∧ (walking.tb.node 97).kind = .leaf ∧
    (walkingOn [.byte 0b10100000] true).br.ahead = [true, false, true] ++ List.replicate 5 false := by decide +kernel

theorem wit_StepKeepsTheInvariants : (offered 0x200000000000 counted).Inv ∧
    ∃ t, step (offered 0x200000000000 counted) = .next t :=
  ⟨⟨abraTable_ok, rfl, rfl, .of_empty rfl, .of_reset .., by decide⟩, step_offered ..⟩

/-- A block with an idle writer, reader and walker. -/
theorem inv_of {f : FC} {t : TB} {c : CT} (hf : f.Ok) (ht : t.Ok f) (hc : c.Ok f t) :
    Block.Inv { Block.reset with fc := f, tb := t, ct := c } :=
  ⟨hf, ht, hc, .of_empty rfl, .of_reset .., show (0 : Byte) ≤ 8 by decide⟩

theorem wit_CodesArePrefixFree : ∃ s : State, s.Inv ∧ s.ct.codeValid = true := by
  have hv : (buildTree abraTable .reset).treeValid = true := rfl
  have ht : TB.Ok abraTable (buildTree abraTable .reset) := by rw [TB.Ok, if_pos hv]; exact abra_built
  generalize buildTree abraTable .reset = t at *
  refine ⟨⟨_, [], []⟩, inv_of abraTable_ok ht (c := { (genCodes t .reset).ct with codeValid := true }) ?_, rfl⟩
  rw [CT.Ok, if_pos rfl]
  rw [TB.Ok, if_pos hv] at ht
  exact genCodes_coded abraTable_ok ht hv

theorem wit_DecodeInvertsEncodeProcedure : [0x61#8] ≠ [] ∧ ∀ b : Byte, [0x61#8].count b < 2 ^ 32 :=
  ⟨by decide, fun _ => Nat.lt_of_le_of_lt List.count_le_length (by decide)⟩

end Sys2Proof.Tests
end

section
/-! SUPPORT. The step and its answer (00_scope.md R7, R12; 30_encoding.md R73, R74): a step is the block's answer to the
next word of the port, every answer's STATUS is one of R74's table, and no command loses the sums of the frequency table
(R90). -/

namespace Sys2Proof.Machine

/-! ## The step and the port -/

/-- A step with a word at the port is the block's answer to it, returned at the port (R7). -/
theorem step_eq_answerWord {s : State} {w : CmdWord} {rest : List CmdWord} (h : s.cmds = w :: rest) :
    step s = .next (({ s with cmds := rest } : State).respond (s.toBlock.answerWord w)) := by
  rw [step_cons h, runWord_eq]

/-- No step happens without a command (R7). -/
theorem step_of_empty_port {s : State} (h : s.cmds = []) : step s = .fault .noCommand := by
  simp [step, h]

/-- Settles O6: the port's next word is taken, and a legal word is its command. -/
theorem stepRunsTheDecodedCommand : Obligations.StepRunsTheDecodedCommand := by
  intro s w rest i hc hd
  rw [step_cons hc, runWord_of_decode hd]

/-- Settles O7: every word, legal or not, has an answer. -/
theorem stepStopsOnlyWithoutACommand : Obligations.StepStopsOnlyWithoutACommand := by
  intro s
  refine ⟨step_of_empty_port, fun hc => ?_⟩
  obtain ⟨w, rest, hc⟩ := List.exists_cons_of_ne_nil hc
  exact ⟨_, step_eq_answerWord hc⟩

/-- Settles O58: the block and the response are those of `Block.answerWord`, which reads no port. -/
theorem stepIsTheBlockStep : Obligations.StepIsTheBlockStep := by
  intro w b
  refine ⟨_, _, Block.step_eq w b, ?_⟩
  rintro s rest rfl hc
  exact step_eq_answerWord hc

/-! ## STATUS -/

/-- Where STATUS stands in the response word (R73). -/
theorem Reply.word_status (r : Reply) : r.word.extractLsb' 56 8 = r.status := by
  rw [Reply.word, BitVec.extractLsb'_append_eq_of_le (by decide), BitVec.extractLsb'_append_eq_of_le (by decide),
    BitVec.extractLsb'_append_eq_of_le (by decide)]
  exact BitVec.extractLsb'_eq_self

/-- Bits 47:40 of the response word are 0 (R73). -/
theorem Reply.word_reserved (r : Reply) : r.word.extractLsb' 40 8 = 0 := by
  rw [Reply.word, BitVec.extractLsb'_append_eq_of_le (by decide), BitVec.extractLsb'_append_eq_of_add_le (by decide)]
  exact BitVec.extractLsb'_eq_self

/-- STATUS is one of the codes of R74. -/
def Reply.Listed (r : Reply) : Prop :=
  r.status ∈ [0x00#8, 0x01#8, 0x02#8, 0x03#8, 0x81#8, 0x82#8, 0x83#8, 0x84#8, 0x85#8, 0x86#8, 0x87#8, 0x88#8, 0xFF#8]

@[simp] theorem okReply_listed (a : Byte) (v : SumWord) : (okReply a v).Listed := by simp [Reply.Listed, okReply]
@[simp] theorem eosReply_listed (v : SumWord) : (eosReply v).Listed := by simp [Reply.Listed, eosReply]
@[simp] theorem blockedReply_listed (v : SumWord) : (blockedReply v).Listed := by simp [Reply.Listed, blockedReply]
@[simp] theorem doneReply_listed (v : SumWord) : (doneReply v).Listed := by simp [Reply.Listed, doneReply]
@[simp] theorem refusedReply_listed (c : Byte) : (refusedReply c).Listed := by simp [Reply.Listed, refusedReply]

/-- A fault's STATUS is 0x80 plus its code (R74, R180). -/
@[simp] theorem faultReply_listed (k : FaultKind) (info : CountWord) : (faultReply k.code info).Listed := by
  cases k <;> simp [Reply.Listed, faultReply, FaultKind.code]

@[simp] theorem Block.refuse_listed (s : Block) : s.refuse.2.Listed := refusedReply_listed _
@[simp] theorem Block.raise_listed (s : Block) (op : Byte) (f : Raised) : (s.raise op f).2.Listed := faultReply_listed ..

/-- A rule's own response, where it does not raise a fault, has a STATUS of R74. -/
def Effect.Listed : Effect → Prop
  | .ok a => a.2.Listed
  | .error _ => True

@[simp] theorem Effect.listed_ok (a : Answer) : Effect.Listed (.ok a) ↔ a.2.Listed := .rfl
@[simp] theorem Effect.listed_error (f : Raised) : Effect.Listed (.error f) := trivial

theorem Block.finish_listed {s : Block} {op : Byte} {e : Effect} (h : e.Listed) : (s.finish op e).2.Listed := by
  cases e with
  | ok a => exact h
  | error f => exact s.raise_listed op f

section Rules
variable (s : Block)

theorem cntRule_listed (b : Byte) : (cntRule b s).Listed := by unfold cntRule; split <;> simp
theorem loadfRule_listed (b : Byte) (n : CountWord) : (loadfRule b n s).Listed := by unfold loadfRule; split <;> simp
theorem hdrbRule_listed (c : Byte) : (hdrbRule c s).Listed := by unfold hdrbRule; split <;> simp
theorem hdrserRule_listed : (hdrserRule s).Listed := by unfold hdrserRule; split <;> simp
theorem buildRule_listed : (buildRule s).Listed := by unfold buildRule; split <;> simp
theorem rbitRule_listed : (rbitRule s).Listed := by unfold rbitRule; split <;> simp

theorem wflushRule_listed : (wflushRule s).Listed := by
  unfold wflushRule
  split
  · simp
  · split <;> simp

theorem wbitRule_listed (v : Bool) : (wbitRule v s).Listed := by
  unfold wbitRule
  split
  · simp
  · simp only [Effect.listed_ok]; split <;> simp

theorem encRule_listed (b : Byte) : (encRule b s).Listed := by
  unfold encRule
  dsimp only
  split
  · simp
  · split
    · simp
    · split <;> simp

theorem takeBranch_listed (v : Bool) (r : BR) : (takeBranch s v r).Listed := by
  unfold takeBranch
  dsimp only
  split <;> simp

theorem dstepRule_listed : (dstepRule s).Listed := by
  unfold dstepRule
  split
  · simp
  · split
    · simp
    · simp
    · simp
    · exact takeBranch_listed ..

end Rules

/-- Every command's own rule answers with a STATUS of R74. -/
theorem ruleRun_listed (i : Instr) (s : Block) : (ruleRun i s).2.Listed := by
  cases i with
  | cnt b => exact Block.finish_listed (cntRule_listed s b)
  | loadf b n => exact Block.finish_listed (loadfRule_listed s b n)
  | hdrb c => exact Block.finish_listed (hdrbRule_listed s c)
  | hdrser => exact Block.finish_listed (hdrserRule_listed s)
  | build => exact Block.finish_listed (buildRule_listed s)
  | wbit v => exact Block.finish_listed (wbitRule_listed s v)
  | wflush => exact Block.finish_listed (wflushRule_listed s)
  | enc b => exact Block.finish_listed (encRule_listed s b)
  | rbit => exact Block.finish_listed (rbitRule_listed s)
  | dstep => exact Block.finish_listed (dstepRule_listed s)
  | dec => exact Block.finish_listed (dstepRule_listed _)
  | _ => exact okReply_listed ..

/-- Whatever check ends it, a command is answered with a STATUS of R74 (R85). -/
theorem Block.answer_listed (s : Block) (i : Instr) : (s.answer i).2.Listed := by
  rcases s.answer_cases i with ⟨-, -, h⟩ | ⟨-, -, h⟩ | ⟨-, -, h⟩ <;> rw [h]
  · exact s.refuse_listed
  · exact s.raise_listed ..
  · exact ruleRun_listed i s

/-- Settles O10: the one response word is the block's answer, laid out as in R73. -/
theorem everyCommandRespondsExactlyOnce : Obligations.EveryCommandRespondsExactlyOnce := by
  intro i s t h
  refine ⟨exec_cmds h, (s.toBlock.answer i).2.word, ?_, Reply.word_reserved _, ?_⟩
  · rw [exec_eq] at h
    cases h
    rfl
  · rw [Reply.word_status]
    exact s.toBlock.answer_listed i

/-! ## The sums of the frequency table -/

/-- A command changes the table by CNT, LOADF, a header pair or RESET only, and each keeps the sums (R90). -/
theorem Moved.keeps_sums {i : Instr} {s t : Block} (h : Moved i s t) (hs : s.fc.Ok) : t.fc.Ok := by
  cases h with
  | reset => exact .reset
  | cnt _ hc => exact hs.countByte hc
  | loadf _ hb => exact hs.enterPair hb _
  | hdrb _ _ hp =>
    obtain rfl | ⟨hb, rfl⟩ := parseByte_ok hp
    · exact hs
    · exact hs.enterPair hb _
  | dec n _ h =>
    obtain ⟨b, c, e, -⟩ := descend_frame n s
    rw [e] at h
    cases h <;> exact hs
  | _ => exact hs

/-- Settles O29: a step's change to the table is its command's. -/
theorem stepKeepsTheFrequencySums : Obligations.StepKeepsTheFrequencySums := by
  intro s t hs h
  obtain ⟨i, u, hm, hfc, -⟩ := step_moved h
  rw [hfc]
  exact hm.keeps_sums hs

end Sys2Proof.Machine
end

section
/-! SUPPORT. The rules about the whole machine (10_state.md): BUILD's answer (R103, R104), the invariants of R48 from
reset on, a faulted block (R190, R194), the flags and the output sequences (R31, R42, R45), and the values at reset (R47). -/

namespace Sys2Proof.Machine

/-! ## BUILD's answer -/

section RootValue
variable (nint : Byte) (root : NodeIdx)

@[simp] theorem rootValue_root : (rootValue nint root).extractLsb' 0 9 = root := by
  rw [rootValue, zext40, BitVec.extractLsb'_setWidth_of_le (by decide),
    BitVec.extractLsb'_append_eq_of_add_le (by decide), BitVec.extractLsb'_eq_self]

@[simp] theorem rootValue_gap : (rootValue nint root).extractLsb' 9 7 = 0 := by
  rw [rootValue, zext40, BitVec.extractLsb'_setWidth_of_le (by decide),
    BitVec.extractLsb'_append_eq_of_le (by decide), BitVec.extractLsb'_append_eq_of_add_le (by decide)]
  exact BitVec.extractLsb'_eq_self

@[simp] theorem rootValue_nint : (rootValue nint root).extractLsb' 16 8 = nint := by
  rw [rootValue, zext40, BitVec.extractLsb'_setWidth_of_le (by decide),
    BitVec.extractLsb'_append_eq_of_le (by decide), BitVec.extractLsb'_append_eq_of_le (by decide)]
  exact BitVec.extractLsb'_eq_self

@[simp] theorem rootValue_top : (rootValue nint root).extractLsb' 24 16 = 0 := by
  rw [rootValue, zext40, BitVec.extractLsb'_setWidth_of_le (by decide)]
  ext k hk
  simp

end RootValue

/-- BUILD on a table with a key raises nothing (R103, R106). -/
theorem buildRule_of_keys {s : Block} (h : s.fc.nsym ≠ 0) : buildRule s =
    .ok ({ s with tb := buildTree s.fc s.tb },
      okReply 0 (rootValue (buildTree s.fc s.tb).nint (buildTree s.fc s.tb).root)) := by
  rw [buildRule, if_neg h]

/-- The control state BUILD requires (R188). -/
theorem precondition_build {s : Block} : precondition s .build = true ↔
    s.tb.treeValid = false ∧ (s.hc.hstate = .line0 ∨ s.hc.hstate = .done) := by
  simp [precondition]

/-- Settles O43: BUILD answers `buildTree`, which from a builder as at reset is the table's tree (`buildTree_built`). -/
theorem buildMakesTheTree : Obligations.BuildMakesTheTree := by
  intro s hflt hfc htb hh hn
  refine ⟨buildTree s.fc s.tb, _, ?_, rfl, ?_,
    rootValue_root .., rootValue_nint .., rootValue_gap .., rootValue_top ..⟩
  · rw [exec_run hflt (precondition_build.2 ⟨by rw [htb]; rfl, hh⟩), ruleRun, buildRule_of_keys hn]
    rfl
  · rw [htb]
    exact buildTree_built hfc hn

/-! ## The invariants -/

/-- While there is no tree, the builder is as at reset (R48.2). -/
theorem TB.Ok.eq_reset {f : FC} {t : TB} (h : t.Ok f) (hv : t.treeValid = false) : t = .reset := by
  rwa [TB.Ok, if_neg (by simp [hv])] at h

/-- Once TREE_VALID is set, the tree is the table's (R48.3). -/
theorem TB.Ok.built {f : FC} {t : TB} (h : t.Ok f) (hv : t.treeValid = true) : t.Built f := by
  rwa [TB.Ok, if_pos hv] at h

theorem TB.Ok.of_built {f : FC} {t : TB} (hv : t.treeValid = true) (h : t.Built f) : t.Ok f := by
  rwa [TB.Ok, if_pos hv]

/-- A builder as at reset is right for every table (R48.2). -/
theorem TB.Ok.reset (f : FC) : TB.reset.Ok f := by rw [TB.Ok, if_neg (by decide)]

/-- While CODE_VALID is 0, the code table is as at reset (R48.4). -/
theorem CT.Ok.eq_reset {f : FC} {t : TB} {c : CT} (h : c.Ok f t) (hv : c.codeValid = false) : c = .reset := by
  rwa [CT.Ok, if_neg (by simp [hv])] at h

/-- Once CODE_VALID is set, the entries are the tree's paths (R48.4). -/
theorem CT.Ok.coded {f : FC} {t : TB} {c : CT} (h : c.Ok f t) (hv : c.codeValid = true) : c.Coded f t := by
  rwa [CT.Ok, if_pos hv] at h

theorem CT.Ok.of_coded {f : FC} {t : TB} {c : CT} (hv : c.codeValid = true) (h : c.Coded f t) : c.Ok f t := by
  rwa [CT.Ok, if_pos hv]

/-- A code table as at reset is right for every tree (R48.4). -/
theorem CT.Ok.reset (f : FC) (t : TB) : CT.reset.Ok f t := by rw [CT.Ok, if_neg (by decide)]

/-- There are no codes while there is no tree (R48.4). -/
theorem CT.Ok.eq_reset_of_noTree {f : FC} {t : TB} {c : CT} (h : c.Ok f t) (hv : t.treeValid = false) : c = .reset := by
  cases hc : c.codeValid with
  | false => exact h.eq_reset hc
  | true =>
    rw [(h.coded hc).tree] at hv
    cases hv

/-- A recorded fault's code is at most 8 (R180). -/
theorem FaultKind.code_le (k : FaultKind) : k.code ≤ 8 := by cases k <;> decide

namespace Block.Inv

/-- R47, R48: the invariants at reset. -/
theorem reset : Block.reset.Inv :=
  ⟨.reset, .reset _, .reset .., .of_empty rfl, .of_reset .., show (0 : Byte) ≤ 8 by decide⟩

variable {s : Block}

/-- Recording a fault keeps the invariants (R180, R186). -/
theorem withFault (h : s.Inv) (k : FaultKind) (op : Byte) (info : CountWord) :
    Block.Inv { s with flt := ⟨k.code, op, info⟩ } := { h with flt := k.code_le }

/-- Before BUILD the table and the parser may change: builder, code table and walker are as at reset (R48). -/
theorem retable (h : s.Inv) (hv : s.tb.treeValid = false) {f : FC} (hf : f.Ok) (k : HC) :
    Block.Inv { s with fc := f, hc := k } where
  fc := hf
  tb := h.tb.eq_reset hv ▸ .reset f
  ct := h.ct.eq_reset_of_noTree hv ▸ .reset f s.tb
  bw := h.bw
  tw := h.tw.idle_of hv ▸ .of_reset f s.tb
  flt := h.flt

/-- BUILD makes the tree, with code table and walker as at reset (R103, R104). -/
theorem build (h : s.Inv) (hv : s.tb.treeValid = false) (hn : s.fc.nsym ≠ 0) :
    Block.Inv { s with tb := buildTree s.fc s.tb } where
  fc := h.fc
  tb := .of_built rfl (h.tb.eq_reset hv ▸ buildTree_built h.fc hn)
  ct := h.ct.eq_reset_of_noTree hv ▸ .reset ..
  bw := h.bw
  tw := h.tw.idle_of hv ▸ .of_reset ..
  flt := h.flt

/-- GENCODE makes the code table of the tree (R116, R117). -/
theorem gencode (h : s.Inv) (hv : s.tb.treeValid = true) (hc : s.ct.codeValid = false) :
    Block.Inv { s with ct := { (genCodes s.tb s.ct).ct with codeValid := true } } := by
  have hcoded : CT.Coded s.fc s.tb { (genCodes s.tb s.ct).ct with codeValid := true } := by
    rw [h.ct.eq_reset hc]
    exact genCodes_coded h.fc (h.tb.built hv) hv
  exact ⟨h.fc, h.tb, .of_coded rfl hcoded, h.bw, h.tw, h.flt⟩

/-- A walk needs a tree (R146). -/
theorem built_of_walk (h : s.Inv) (hw : s.tw.wstate = .walk) : s.tb.Built s.fc :=
  h.tb.built (h.tw.started (by simp [hw])).1

/-- A branch that emits nothing goes to an internal node (R147). -/
theorem walked (h : s.Inv) (hw : s.tw.wstate = .walk) {v : Bool}
    (hl : (s.tb.node (childOf s.tb s.tw.cur v)).kind ≠ .leaf)
    (hd : (s.tb.node (childOf s.tb s.tw.cur v)).kind ≠ .dummy) (r : BR) :
    Block.Inv { s with br := r, tw := { s.tw with cur := childOf s.tb s.tw.cur v } } :=
  have hk := (h.built_of_walk hw).child_kind (h.tw.walking hw).2 v hl hd
  { h with tw := h.tw.walked (by simp [hw]) hk }

/-- DEC's silent descents keep the invariants (R150). -/
theorem descend (h : s.Inv) (hw : s.tw.wstate ≠ .idle) (n : Nat) : (descend n s).Inv := by
  refine (descend_keeps (P := fun s => s.Inv ∧ s.tw.wstate ≠ .idle) ?_ n ⟨h, hw⟩).1
  intro s v r ⟨h, hw⟩ hd _ hl hu
  have walk : s.tw.wstate = .walk := by cases e : s.tw.wstate <;> simp_all
  exact ⟨h.walked walk hl hu r, hw⟩

end Block.Inv

/-- Every change a command can make keeps the invariants (R48). -/
theorem Moved.keeps_inv {i : Instr} {s t : Block} (hm : Moved i s t) (h : s.Inv) : t.Inv := by
  have hfc := hm.keeps_sums h.fc
  have hbw := hm.keeps_padding h.bw
  induction hm with
  | same => exact h
  | reset => exact .reset
  | cnt hv _ => exact h.retable hv hfc _
  | loadf hv _ => exact h.retable hv hfc _
  | hdrb hv _ _ => exact h.retable hv hfc _
  | build hv hn => exact h.build hv hn
  | gencode hv hc => exact h.gencode hv hc
  | hdrser | wbit | closeAligned | closePadded | enc | snkfail => exact { h with bw := hbw }
  | push | pusherr | eod | rbit => exact { h with }
  | dstart hv hi =>
    have hstart := h.tw.start h.tb.built hv hi
    exact { h with tw := hstart }
  | ended hw _ => exact { h with tw := h.tw.ended hw _ }
  | walked hw _ hl hd => exact h.walked hw hl hd _
  | emitted hw _ _ => exact { h with tw := h.tw.emitted (h.built_of_walk hw) hw _ }
  | dec n hw _ ih => exact ih (h.descend hw n) hfc hbw

/-- The block's answer to a word, legal or not, keeps the invariants (R48, R77). -/
theorem Block.Inv.answerWord {s : Block} (h : s.Inv) (w : CmdWord) : (s.answerWord w).1.Inv := by
  unfold Block.answerWord
  split
  · next i _ =>
    obtain ⟨u, hm, e | ⟨-, k, info, e⟩⟩ := answer_moved i s <;> rw [e]
    · exact hm.keeps_inv h
    · exact (hm.keeps_inv h).withFault ..
  · unfold Block.illegal
    split
    · exact h
    · exact h.withFault ..

/-- Settles O55: a step's block is the answer to the word at the port. -/
theorem stepKeepsTheInvariants : Obligations.StepKeepsTheInvariants := by
  intro s t h hs
  obtain ⟨w, rest, -, rfl, -⟩ := step_cases hs
  exact h.answerWord w

/-- Settles O54: `Block.Inv.reset`, the port set aside. -/
theorem invariantsHoldAtReset : Obligations.InvariantsHoldAtReset := Block.Inv.reset

/-- Settles O56: the codes are paths to different leaves of one tree (`CT.Coded.prefixFree`). -/
theorem codesArePrefixFree : Obligations.CodesArePrefixFree := by
  intro s h hc
  have hcoded := h.ct.coded hc
  exact hcoded.prefixFree (h.tb.built hcoded.tree)

/-- Settles O37: a step's change to the writer is its command's. -/
theorem stepKeepsTheWriterPadding : Obligations.StepKeepsTheWriterPadding := by
  intro s t h hs
  obtain ⟨i, u, hm, -, -, -, -, hbw, -⟩ := step_moved hs
  rw [hbw]
  exact hm.keeps_padding h

/-! ## A faulted block -/

/-- A word that decodes is the word of its command (R76, R78). -/
theorem encode_of_decode {w : CmdWord} {i : Instr} (h : decode w = .ok i) : encode i = w := by
  obtain ⟨ho, hb, hn⟩ := fields_of_decodeFields h
  exact word_ext (by simp [ho]) (by simp [hb]) (by simp [hn])

/-- Of the twelve commands of R174 only RESET changes anything. -/
theorem Moved.eq_of_whenFaulted {i : Instr} {s t : Block} (h : Moved i s t) (hw : whenFaulted i = true)
    (hi : i ≠ .reset) : t = s := by
  cases h with
  | same => rfl
  | reset => exact absurd rfl hi
  | _ => cases hw

/-- A faulted block answers a command other than RESET as it was (R190, R194). -/
theorem Block.answer_of_faulted {i : Instr} {s : Block} (hf : s.faulted = true) (hi : i ≠ .reset) :
    (s.answer i).1 = s := by
  cases hw : whenFaulted i with
  | true =>
    obtain ⟨u, r, hm, e⟩ := answer_whenFaulted (s := s) hw
    rw [e]
    exact hm.eq_of_whenFaulted hw hi
  | false =>
    have e : s.answer i = s.refuse := by simp [Block.answer, Block.check, hf, hw]
    rw [e, Block.refuse_block]

/-- A faulted block refuses an illegal word (R187, R190). -/
theorem Block.illegal_of_faulted {s : Block} (hf : s.faulted = true) (w : CmdWord) : s.illegal w = s.refuse := by
  rw [Block.illegal, if_pos hf]

/-- Settles O12: a legal word that is not RESET's is another command, and an illegal word is refused. -/
theorem faultHoldsUntilReset : Obligations.FaultHoldsUntilReset := by
  intro s t hc hw hs
  have hf := Block.faulted_eq_true.2 hc
  obtain ⟨w, rest, hcmds, rfl, h⟩ := step_cases hs
  have same : (s.toBlock.answerWord w).1 = s.toBlock := by
    rcases h with ⟨i, hd, e⟩ | ⟨_, -, e⟩ <;> rw [e]
    · refine Block.answer_of_faulted hf ?_
      rintro rfl
      rw [hcmds, ← encode_of_decode hd] at hw
      exact hw rfl
    · rw [Block.illegal_of_faulted hf, Block.refuse_block]
  simp only [State.respond, same]

/-! ## Flags and output sequences -/

/-- What no walker step touches among the units with a flag (R45, R147). -/
theorem Moved.dstep_frame {s t : Block} (h : Moved .dstep s t) :
    t.tb = s.tb ∧ t.ct = s.ct ∧ t.bw = s.bw ∧ t.br.srcEod = s.br.srcEod := by
  cases h with
  | same | ended => exact ⟨rfl, rfl, rfl, rfl⟩
  | walked _ hn | emitted _ hn => exact ⟨rfl, rfl, rfl, (nextBit_bit hn).1⟩

/-- How command `i` can change the one-bit control registers (R45). -/
structure FlagsSetBy (i : Instr) (s t : Block) : Prop where
  /-- TREE_VALID. -/
  tree : t.tb.treeValid = s.tb.treeValid ∨ (i = .build ∧ t.tb.treeValid = true)
  /-- CODE_VALID. -/
  code : t.ct.codeValid = s.ct.codeValid ∨ (i = .gencode ∧ t.ct.codeValid = true)
  /-- W_CLOSED. -/
  closed : t.bw.wClosed = s.bw.wClosed ∨ (i = .wflush ∧ t.bw.wClosed = true)
  /-- SNK_FAIL. -/
  snkFail : t.bw.snkFail = s.bw.snkFail ∨ (i = .snkfail ∧ t.bw.snkFail = true)
  /-- SRC_EOD. -/
  eod : t.br.srcEod = s.br.srcEod ∨ (i = .eod ∧ t.br.srcEod = true)

/-- A command that leaves the five registers as they were. -/
theorem FlagsSetBy.of_eq {i : Instr} {s t : Block} (htb : t.tb.treeValid = s.tb.treeValid)
    (hct : t.ct.codeValid = s.ct.codeValid) (hw : t.bw.wClosed = s.bw.wClosed)
    (hf : t.bw.snkFail = s.bw.snkFail) (he : t.br.srcEod = s.br.srcEod) : FlagsSetBy i s t :=
  ⟨.inl htb, .inl hct, .inl hw, .inl hf, .inl he⟩

/-- Each flag is set by its one command and never cleared but by RESET (R45). -/
theorem Moved.flags {i : Instr} {s t : Block} (h : Moved i s t) (hi : i ≠ .reset) : FlagsSetBy i s t := by
  cases h with
  | reset => exact absurd rfl hi
  | build => exact ⟨.inr ⟨rfl, rfl⟩, .inl rfl, .inl rfl, .inl rfl, .inl rfl⟩
  | gencode => exact ⟨.inl rfl, .inr ⟨rfl, rfl⟩, .inl rfl, .inl rfl, .inl rfl⟩
  | closeAligned | closePadded => exact ⟨.inl rfl, .inl rfl, .inr ⟨rfl, rfl⟩, .inl rfl, .inl rfl⟩
  | snkfail => exact ⟨.inl rfl, .inl rfl, .inl rfl, .inr ⟨rfl, rfl⟩, .inl rfl⟩
  | eod => exact ⟨.inl rfl, .inl rfl, .inl rfl, .inl rfl, .inr ⟨rfl, rfl⟩⟩
  | wbit _ hw =>
    obtain ⟨-, hc, hf⟩ := writeBit_frame hw
    exact .of_eq rfl rfl hc hf rfl
  | enc _ _ _ hw =>
    obtain ⟨-, hc, hf⟩ := writeBits_frame hw
    exact .of_eq rfl rfl hc hf rfl
  | rbit hn | walked _ hn | emitted _ hn => exact .of_eq rfl rfl rfl rfl (nextBit_bit hn).1
  | dec n _ hm =>
    obtain ⟨b, c, e, hb⟩ := descend_frame n s
    rw [e] at hm
    obtain ⟨htb, hct, hbw, he⟩ := hm.dstep_frame
    exact .of_eq (by rw [htb]) (by rw [hct]) (by rw [hbw]) (by rw [hbw]) (he.trans hb)
  | _ => exact .of_eq rfl rfl rfl rfl rfl

/-- Settles O16: the flags by `Moved.flags`, the fault registers because a faulted block changes nothing. -/
theorem flagsAreOneWay : Obligations.FlagsAreOneWay := by
  intro i s t h hi
  have hflt : s.flt.code ≠ 0 → t.flt = s.flt := by
    intro hc
    rw [exec_eq] at h
    cases h
    rw [State.respond_toBlock, Block.answer_of_faulted (Block.faulted_eq_true.2 hc) hi]
  obtain ⟨u, r, hm, ht⟩ := exec_moved h
  obtain ⟨htree, hcode, hclosed, hsnk, heod⟩ := hm.flags hi
  rcases ht with rfl | ⟨-, k, info, rfl⟩ <;> exact ⟨htree, hcode, hclosed, hsnk, heod, hflt⟩

/-- SINK and DOUT are extended only (R31, R42). -/
theorem Moved.outputs_grow {i : Instr} {s t : Block} (h : Moved i s t) (hi : i ≠ .reset) :
    (∃ out, t.bw.sink = s.bw.sink ++ out) ∧ ∃ out, t.tw.dout = s.tw.dout ++ out := by
  have keep : ∀ l : List Byte, ∃ out, l = l ++ out := fun l => ⟨[], by simp⟩
  induction h with
  | reset => exact absurd rfl hi
  | hdrser | closePadded => exact ⟨⟨_, rfl⟩, keep _⟩
  | wbit _ hw => exact ⟨(writeBit_frame hw).1, keep _⟩
  | enc _ _ _ hw => exact ⟨(writeBits_frame hw).1, keep _⟩
  | emitted => exact ⟨keep _, _, rfl⟩
  | @dec s t n _ _ ih =>
    obtain ⟨b, c, e, -⟩ := descend_frame n s
    rw [e] at ih
    exact ih (by simp)
  | _ => exact ⟨keep _, keep _⟩

/-- Settles O17: a fault recorded over the change leaves both sequences as the change left them. -/
theorem sinkAndDoutAreAppendOnly : Obligations.SinkAndDoutAreAppendOnly := by
  intro i s t h hi
  obtain ⟨u, r, hm, rfl | ⟨-, k, info, rfl⟩⟩ := exec_moved h <;> exact hm.outputs_grow hi

/-! ## The values at reset -/

/-- Settles O22: the tables by their entries at reset (R47), slot 511 hardwired (R26), the registers by definition. -/
theorem resetStateValues : Obligations.ResetStateValues := by
  have hfreq : ∀ b, State.reset.fc.entry b = .reset := FC.entry_reset
  refine ⟨fun b => by rw [hfreq]; exact ⟨rfl, rfl⟩, rfl, rfl, rfl, rfl, rfl, fun i hi => TB.node_reset hi,
    TB.node_dummy _, rfl, rfl, rfl, CT.entry_reset, rfl, rfl, rfl, rfl, rfl⟩

end Sys2Proof.Machine
end

section
/-! SUPPORT. Noninterference between the units (20_memory.md R50): what a command can do is listed by `Moved`, and each of
its changes stays in the units of its command. -/

namespace Sys2Proof.Machine

/-- Command `i` changes no unit but its own (R50, R90, R121). -/
structure ChangesOwnUnits (i : Instr) (s t : Block) : Prop where
  /-- The frequency table. -/
  fc : t.fc ≠ s.fc → (∃ b, i = .cnt b) ∨ (∃ b n, i = .loadf b n) ∨ (∃ c, i = .hdrb c)
  /-- The header parser. -/
  hc : t.hc ≠ s.hc → ∃ c, i = .hdrb c
  /-- The tree builder. -/
  tb : t.tb ≠ s.tb → i = .build
  /-- The code table. -/
  ct : t.ct ≠ s.ct → i = .gencode
  /-- The writer. -/
  bw : t.bw ≠ s.bw → (∃ v, i = .wbit v) ∨ i = .wflush ∨ (∃ b, i = .enc b) ∨ i = .snkfail ∨ i = .hdrser
  /-- The reader. -/
  br : t.br ≠ s.br → (∃ b, i = .push b) ∨ i = .pusherr ∨ i = .eod ∨ i = .rbit ∨ i = .dstep ∨ i = .dec
  /-- The walker. -/
  tw : t.tw ≠ s.tw → i = .dstart ∨ i = .dstep ∨ i = .dec

/-- DEC owns DSTEP's units, and its silent descents stay in them (R150). -/
theorem ChangesOwnUnits.dec {n : Nat} {s t : Block} (h : ChangesOwnUnits .dstep (descend n s) t) :
    ChangesOwnUnits .dec s t := by
  obtain ⟨b, c, e, -⟩ := descend_frame n s
  rw [e] at h
  exact {
    fc := fun hne => by simpa using h.fc hne
    hc := fun hne => by simpa using h.hc hne
    tb := fun hne => by simpa using h.tb hne
    ct := fun hne => by simpa using h.ct hne
    bw := fun hne => by simpa using h.bw hne
    br := fun _ => by simp
    tw := fun _ => by simp }

/-- Every command but RESET changes its own units only (R50): one line per set of units. -/
theorem Moved.changesOwnUnits {i : Instr} {s t : Block} (h : Moved i s t) (hi : i ≠ .reset) :
    ChangesOwnUnits i s t := by
  have kept {α : Type} {x : α} {P : Prop} (hne : x ≠ x) : P := absurd rfl hne
  induction h with
  | reset => exact absurd rfl hi
  | same => exact ⟨kept, kept, kept, kept, kept, kept, kept⟩
  | cnt | loadf => exact ⟨fun _ => by simp, kept, kept, kept, kept, kept, kept⟩
  | hdrb => exact ⟨fun _ => by simp, fun _ => by simp, kept, kept, kept, kept, kept⟩
  | build => exact ⟨kept, kept, fun _ => rfl, kept, kept, kept, kept⟩
  | gencode => exact ⟨kept, kept, kept, fun _ => rfl, kept, kept, kept⟩
  | hdrser | wbit | closeAligned | closePadded | enc | snkfail =>
    exact ⟨kept, kept, kept, kept, fun _ => by simp, kept, kept⟩
  | push | pusherr | eod | rbit => exact ⟨kept, kept, kept, kept, kept, fun _ => by simp, kept⟩
  | dstart | ended => exact ⟨kept, kept, kept, kept, kept, kept, fun _ => by simp⟩
  | walked | emitted => exact ⟨kept, kept, kept, kept, kept, fun _ => by simp, fun _ => by simp⟩
  | dec _ _ _ ih => exact (ih (by simp)).dec

/-- Settles O15: `Moved.changesOwnUnits`, since a fault recorded over the change touches the fault registers only. -/
theorem unitsChangeOnlyByTheirCommands : Obligations.UnitsChangeOnlyByTheirCommands := by
  intro i s t h hi
  obtain ⟨u, r, hm, ht⟩ := exec_moved h
  obtain ⟨hfc, hhc, htb, hct, hbw, hbr, htw⟩ := hm.changesOwnUnits hi
  rcases ht with rfl | ⟨-, k, info, rfl⟩ <;> exact ⟨hfc, hhc, htb, hct, hbw, hbr, htw⟩

end Sys2Proof.Machine
end

section
/-! SUPPORT. Command words (30_encoding.md): the decoder gives every command back from its word (R70, R76), it accepts
exactly the legal words (R71, R77), the opcode table's masks say the same (R76), and where the parts of a response stand
(R73). -/

namespace Sys2Proof

/-! ## Every command comes back from its word -/

/-- The decoder on a command's word reads the fields the encoder wrote (R70). -/
theorem decode_encode_fields (i : Instr) :
    decode (encode i) = decodeFields i.opcode i.operandB i.operandN := by
  rw [decode, fieldOp_encode, fieldB_encode, fieldN_encode]

theorem nodeOperand_widened (j : NodeIdx) (mk : NodeIdx → Instr) :
    nodeOperand 0 (j.setWidth 32) mk = .ok (mk j) := by
  rw [nodeOperand, whenZero_eq_ok, nodeField_widened]
  exact ⟨by simpa using (nodeReserved_zero_iff _).2 (widenedNode_lt j), rfl⟩

theorem bytePosOperand_widened (b k : Byte) (mk : Byte → Byte → Instr) :
    bytePosOperand b (k.setWidth 32) mk = .ok (mk b k) := by
  rw [bytePosOperand, whenZero_eq_ok, posField_widened]
  exact ⟨by simpa using (posReserved_zero_iff _).2 (widenedPos_lt k), rfl⟩

/-- No operand bit is lost in the word of a command (R70, R71, R76): the operands that lie in part of a field
come back from it. -/
theorem decode_encode (i : Instr) : decode (encode i) = .ok i := by
  rw [decode_encode_fields]
  cases i with
  | rdnode j => exact nodeOperand_widened j .rdnode
  | rdnfrq j => exact nodeOperand_widened j .rdnfrq
  | rdcbit b k => exact bytePosOperand_widened b k .rdcbit
  | wbit v => cases v <;> rfl
  | _ => rfl

/-- Settles O1: `decode_encode`. -/
theorem decodeInvertsEncode : Obligations.DecodeInvertsEncode := decode_encode

/-- Settles O2: the opcode and the operands put back are the word's fields (`Machine.encode_of_decode`). -/
theorem encodeInvertsDecode : Obligations.EncodeInvertsDecode := fun _ _ => Machine.encode_of_decode

/-! ## The legal words -/

/-- The encoder's fields are legal (R71, R72), whatever the command. -/
theorem encode_legal (i : Instr) : (RawCommand.mk i.opcode i.operandB i.operandN).legal = true := by
  cases i with
  | rdnode j => exact Laws.EncodesLegal.rdnode j
  | rdnfrq j => exact Laws.EncodesLegal.rdnfrq j
  | rdcbit b k => exact Laws.EncodesLegal.rdcbit b k
  | wbit v => exact Laws.EncodesLegal.wbit v
  | _ => rfl

/-- A raw command is legal when its OP has a shape whose reserved bits are 0 (R77). -/
theorem RawCommand.legal_iff {c : RawCommand} :
    c.legal = true ↔ ∃ sh, opShape c.op = some sh ∧ sh.reservedZero c.b c.n = true := by
  unfold RawCommand.legal
  cases opShape c.op <;> simp

section Operands
variable {b : Byte} {n : CountWord}

theorem whenZero_accepts {ok : Bool} (h : ok = true) (i : Instr) : ∃ j, whenZero ok i = .ok j :=
  ⟨i, whenZero_eq_ok.2 ⟨h, rfl⟩⟩

theorem noOperand_accepts (h : Shape.none.reservedZero b n = true) (i : Instr) : ∃ j, noOperand b n i = .ok j :=
  whenZero_accepts h i

theorem byteOperand_accepts (h : Shape.byte.reservedZero b n = true) (mk : Byte → Instr) :
    ∃ j, byteOperand b n mk = .ok j :=
  whenZero_accepts h _

theorem bitOperand_accepts (h : Shape.bit.reservedZero b n = true) (mk : Bool → Instr) :
    ∃ j, bitOperand b n mk = .ok j := by
  refine whenZero_accepts ?_ _
  simpa only [Shape.reservedZero, ← bitReserved_zero_iff, Bool.decide_eq_true, Bool.and_eq_true,
    decide_eq_true_eq, beq_iff_eq] using h

theorem nodeOperand_accepts (h : Shape.nodeIndex.reservedZero b n = true) (mk : NodeIdx → Instr) :
    ∃ j, nodeOperand b n mk = .ok j := by
  refine whenZero_accepts ?_ _
  simpa [Shape.reservedZero, ← nodeReserved_zero_iff] using h

theorem bytePosOperand_accepts (h : Shape.bytePos.reservedZero b n = true) (mk : Byte → Byte → Instr) :
    ∃ j, bytePosOperand b n mk = .ok j := by
  refine whenZero_accepts ?_ _
  simpa [Shape.reservedZero, ← posReserved_zero_iff] using h

/-- The decoder accepts the fields of an OP whose shape's reserved bits are 0 (R71, R72): one case per shape, as
`opShape` lists the opcodes. -/
theorem decodeFields_accepts {op : Byte} {sh : Shape} (hs : opShape op = some sh)
    (hz : sh.reservedZero b n = true) : ∃ i, decodeFields op b n = .ok i := by
  unfold opShape at hs
  split at hs
  · next h =>
    cases hs
    simp only [List.mem_cons, List.not_mem_nil, or_false] at h
    rcases h with rfl | rfl | rfl | rfl | rfl | rfl | rfl | rfl | rfl | rfl | rfl | rfl | rfl | rfl | rfl | rfl | rfl |
      rfl <;> exact noOperand_accepts hz _
  split at hs
  · next h =>
    cases hs
    simp only [List.mem_cons, List.not_mem_nil, or_false] at h
    rcases h with rfl | rfl | rfl | rfl | rfl | rfl <;> exact byteOperand_accepts hz _
  split at hs
  · next h => subst h; exact ⟨.loadf b n, rfl⟩
  split at hs
  · next h => subst h; cases hs; exact bitOperand_accepts hz _
  split at hs
  · next h =>
    cases hs
    simp only [List.mem_cons, List.not_mem_nil, or_false] at h
    rcases h with rfl | rfl <;> exact nodeOperand_accepts hz _
  split at hs
  · next h => subst h; cases hs; exact bytePosOperand_accepts hz _
  · cases hs

end Operands

/-- A word that decodes is its command's word, which is legal; a legal word's reserved bits are 0 (R77). -/
theorem decode_accepts_iff (w : CmdWord) : (∃ i, decode w = .ok i) ↔ (rawOf w).legal = true := by
  constructor
  · rintro ⟨i, h⟩
    obtain rfl := Machine.encode_of_decode h
    rw [rawOf, fieldOp_encode, fieldB_encode, fieldN_encode]
    exact encode_legal i
  · intro h
    obtain ⟨sh, hs, hz⟩ := RawCommand.legal_iff.1 h
    exact decodeFields_accepts hs hz

/-- Settles O3: `decode_accepts_iff`. -/
theorem decodeAcceptsExactlyTheLegalWords : Obligations.DecodeAcceptsExactlyTheLegalWords := decode_accepts_iff

/-- An illegal word is rejected, by some name (R77). -/
theorem decode_of_illegal {w : CmdWord} (h : (rawOf w).legal = false) : ∃ e, decode w = .error e := by
  cases hd : decode w with
  | error e => exact ⟨e, rfl⟩
  | ok i =>
    rw [(decode_accepts_iff w).1 ⟨i, hd⟩] at h
    cases h

/-! ## The opcode table -/

/-- A row selects the words of its OP whose reserved bits are 0 (R76). -/
theorem opcodeTable_selects {r : OpRow} (hr : r ∈ opcodeTable) : ∃ sh, opShape (fieldOp r.value) = some sh ∧
    ∀ w, r.selects w = true ↔ fieldOp w = fieldOp r.value ∧ sh.reservedZero (fieldB w) (fieldN w) = true := by
  obtain ⟨o, sh, hs, e⟩ := opcodeTable_row hr
  have ho : fieldOp r.value = o := by rw [e]; exact fieldOp_append ..
  rw [ho]
  refine ⟨sh, hs, fun w => ?_⟩
  rw [e, selects_iff, sh.reservedZero_iff]

/-- A word is legal exactly when a row selects it (R76). -/
theorem legal_iff_selected (w : CmdWord) : (rawOf w).legal = true ↔ ∃ r ∈ opcodeTable, r.selects w = true := by
  rw [RawCommand.legal_iff]
  constructor
  · rintro ⟨sh, hs, hz⟩
    obtain ⟨r, hr, ho⟩ := opcodeTable_complete (fieldOp w) (Option.isSome_of_mem hs)
    obtain ⟨sh', hs', hsel⟩ := opcodeTable_selects hr
    rw [ho] at hs'
    obtain rfl : sh = sh' := Option.some.inj (hs.symm.trans hs')
    exact ⟨r, hr, (hsel w).2 ⟨ho.symm, hz⟩⟩
  · rintro ⟨r, hr, hw⟩
    obtain ⟨sh, hs, hsel⟩ := opcodeTable_selects hr
    obtain ⟨ho, hz⟩ := (hsel w).1 hw
    rw [← ho] at hs
    exact ⟨sh, hs, hz⟩

/-- Settles O4: the rows' masks are the shapes' reserved bits, and no two rows share an OP. -/
theorem opcodeTableDecidesLegality : Obligations.OpcodeTableDecidesLegality := by
  refine ⟨fun w => (decode_accepts_iff w).trans (legal_iff_selected w), fun w r r' hr hr' hw hw' => ?_⟩
  obtain ⟨_, -, hsel⟩ := opcodeTable_selects hr
  obtain ⟨_, -, hsel'⟩ := opcodeTable_selects hr'
  exact opcodeTable_ops r hr r' hr' (((hsel w).1 hw).1.symm.trans ((hsel' w).1 hw').1)

/-- Settles O5: the decoder evaluated on each word. -/
theorem specWordsDecode : Obligations.SpecWordsDecode := by
  unfold Obligations.SpecWordsDecode
  decide

end Sys2Proof

namespace Sys2Proof.Machine

/-! ## Responses -/

/-- The block's answer to a word the decoder rejects (R77, R187). -/
theorem Block.answerWord_of_illegal {w : CmdWord} (h : (rawOf w).legal = false) (s : Block) :
    s.answerWord w = s.illegal w := by
  obtain ⟨e, he⟩ := decode_of_illegal h
  rw [Block.answerWord, he]

/-- Widening a B field to F_INFO and then to VALUE is widening it to VALUE (R9). -/
theorem zext40_zext32 (b : Byte) : zext40 (zext32 b) = b.setWidth 40 :=
BitVec.eq_of_toNat_eq rfl

/-- Settles O8: the decoder rejects the word, so the step is `Block.illegal`. -/
theorem illegalWordRaisesIllegalCommand : Obligations.IllegalWordRaisesIllegalCommand := by
  intro s w rest hc hl
  rw [step_eq_answerWord hc, Block.answerWord_of_illegal hl, Block.illegal]
  constructor
  · intro hf
    rw [if_neg (by simp [hf])]
    simp only [State.respond, Block.raise, faultReply, zext40_zext32]
    rfl
  · intro hf
    rw [if_pos hf]
    rfl

/-- Where AUX stands in the response word (R73). -/
theorem Reply.word_aux (r : Reply) : r.word.extractLsb' 48 8 = r.aux := by
  rw [Reply.word, BitVec.extractLsb'_append_eq_of_le (by decide), BitVec.extractLsb'_append_eq_of_le (by decide),
    BitVec.extractLsb'_append_eq_of_add_le (by decide)]
  exact BitVec.extractLsb'_eq_self

/-- Where VALUE stands in the response word (R73). -/
theorem Reply.word_value (r : Reply) : r.word.extractLsb' 0 40 = r.value := by
  rw [Reply.word, BitVec.extractLsb'_append_eq_of_add_le (by decide)]
  exact BitVec.extractLsb'_eq_self

/-- Settles O9: one lemma per field. -/
theorem responseWordLayout : Obligations.ResponseWordLayout :=
  fun r => ⟨r.word_status, r.word_aux, r.word_reserved, r.word_value⟩

end Sys2Proof.Machine
end

section
/-! SUPPORT. GENCODE (42_code_table.md R116, R117) and DEC (45_tree_walker.md R150) as commands: the
checks passed, and the rule's own lemma. -/

namespace Sys2Proof.Machine

/-- The control state GENCODE requires (R188). -/
theorem precondition_gencode {s : Block} : precondition s .gencode = true ↔
    s.tb.treeValid = true ∧ s.ct.codeValid = false := by
  simp [precondition]

/-- Settles O48: GENCODE's loop assigns each key its path (`genCodes_coded`) and counts the keys (`genCodes_spec`). -/
theorem gencodeAssignsTheRootPaths : Obligations.GencodeAssignsTheRootPaths := by
  intro s hflt hv hB hf hct
  have hcoded := genCodes_coded hf hB hv
  obtain ⟨-, -, hcount⟩ := genCodes_spec hf hB
  refine ⟨{ (genCodes s.tb .reset).ct with codeValid := true }, ?_, rfl, hcoded, hcoded.prefixFree hB⟩
  rw [exec_run hflt (precondition_gencode.2 ⟨hv, by rw [hct]; rfl⟩), ruleRun, gencodeRule, hct, hcount]
  simp only [BitVec.ofNat_toNat]
  rfl

/-- The control state DEC requires (R188). -/
theorem precondition_dec {s : Block} : precondition s .dec = true ↔ s.tw.wstate ≠ .idle := by
  simp [precondition]

/-- Settles O53: DEC along a path (`decRun_path`). -/
theorem decEmitsTheByteOfAPath : Obligations.DecEmitsTheByteOfAPath := by
  intro s p rest leaf hflt hw hi hfol hl ha
  obtain ⟨r, hr, hy, hd⟩ := decRun_path p hw hi hfol hl ha
  refine ⟨r, hr, hy, ?_⟩
  rw [exec_run hflt (precondition_dec.2 (by simp [hw])), ruleRun, hd, emitByte, hw]
  rfl

end Sys2Proof.Machine
end

section
/-! SUPPORT. The encode and the decode procedure (46_filecodec.md R164, R165) and their round trip (R153): the
commands of each family issued one after another, as changes of the block. -/

namespace Sys2Proof.Machine

/-! ## The block after some commands -/

/-- The block after the commands `is`, one after another (R7). -/
def Block.after (s : Block) (is : List Instr) : Block := is.foldl (fun b i => (b.answer i).1) s

/-- The response words of the commands `is`, the oldest first (R73). -/
def Block.replies (s : Block) : List Instr → List RspWord
  | [] => []
  | i :: is => (s.answer i).2.word :: (s.answer i).1.replies is

@[simp] theorem Block.after_nil (s : Block) : s.after [] = s := rfl

@[simp] theorem Block.after_cons (s : Block) (i : Instr) (is : List Instr) :
    s.after (i :: is) = (s.answer i).1.after is := rfl

@[simp] theorem Block.after_append (s : Block) (is js : List Instr) : s.after (is ++ js) = (s.after is).after js :=
  List.foldl_append ..

theorem Block.replies_append (s : Block) (is js : List Instr) :
    s.replies (is ++ js) = s.replies is ++ (s.after is).replies js := by
  induction is generalizing s with
  | nil => rfl
  | cons i is ih => simp only [List.cons_append, Block.replies, ih, Block.after_cons]

/-- An issue ends in the block after the commands, with one response word for each (R7, R73). -/
theorem issue_eq (is : List Instr) (s : State) :
    issue is s = .next ⟨s.toBlock.after is, [], s.rsps ++ s.toBlock.replies is⟩ := by
  induction is generalizing s with
  | nil => rw [issue_nil, Block.replies, List.append_nil]; rfl
  | cons i is ih =>
    rw [issue_cons (decode_encode i) (exec_eq ..), ih]
    simp only [State.respond, Block.after_cons, Block.replies, List.append_assoc, List.singleton_append]

/-- An unfaulted block whose control state allows the command answers by its rule (R85). -/
theorem Block.answer_run {s : Block} {i : Instr} (hf : s.flt.code = 0) (hp : precondition s i = true) :
    s.answer i = ruleRun i s := by
  rcases s.answer_cases i with ⟨h, -, -⟩ | ⟨-, h, -⟩ | ⟨-, -, h⟩
  · rw [Block.faulted_eq_false.2 hf] at h
    cases h
  · rw [hp] at h
    cases h
  · exact h

/-- RESET is accepted in every state (R171). -/
@[simp] theorem Block.answer_reset (s : Block) : (s.answer .reset).1 = .reset := by
  simp [Block.answer, Block.check, whenFaulted, precondition, ruleRun, resetRule]

/-! ## Counting the input -/

/-- The table counts the byte values of `input` (R97). -/
structure FC.Tallies (f : FC) (input : List Byte) : Prop where
  /-- The sums hold (R90). -/
  ok : f.Ok
  /-- FREQ[b] is the number of times b occurs. -/
  freq : ∀ b, (f.entry b).freq.toNat = input.count b
  /-- The keys are the byte values that occur. -/
  keys : ∀ b, (f.entry b).pres = true ↔ b ∈ input
  /-- TOTAL is the length. -/
  total : f.total.toNat = input.length

theorem FC.Tallies.reset : FC.reset.Tallies [] :=
  ⟨.reset, fun b => by rw [FC.entry_reset]; rfl, fun b => by simp [FreqEntry.reset], rfl⟩

/-- A count below its top can be counted up (R92). -/
theorem FC.Tallies.freq_ne_max {f : FC} {pre : List Byte} {b : Byte} (h : f.Tallies pre)
    (hb : (pre ++ [b]).count b < 2 ^ 32) : (f.entry b).freq ≠ 0xFFFFFFFF := by
  intro e
  have hfreq := h.freq b
  rw [e] at hfreq
  rw [List.count_append, ← hfreq, List.count_singleton_self] at hb
  exact absurd hb (by decide)

/-- CNT counts one more byte (R92, R97). -/
theorem FC.Tallies.count {f : FC} {pre : List Byte} {b : Byte} (h : f.Tallies pre)
    (hb : (pre ++ [b]).count b < 2 ^ 32) : (countByte f b).Tallies (pre ++ [b]) := by
  refine ⟨h.ok.countByte (h.freq_ne_max hb), fun c => ?_, fun c => ?_, ?_⟩
  · rw [entry_countByte]
    split
    · next e =>
      subst e
      rw [List.count_append, List.count_singleton_self] at hb ⊢
      rw [BitVec.toNat_add, h.freq]
      exact Nat.mod_eq_of_lt hb
    · next e => rw [h.freq, List.count_append, List.count_singleton, if_neg (by simpa using Ne.symm e), Nat.add_zero]
  · rw [entry_countByte]
    split
    · next e => simp [e]
    · next e => rw [h.keys]; simp [e]
  · have hle := f.freqSum_le
    rw [← h.ok.total] at hle
    rw [List.length_append, List.length_singleton, ← h.total]
    show (f.total.toNat + 1) % 2 ^ 40 = _
    omega

/-- CNT on a count below its top (R92). -/
theorem cntRule_of_ne_max {s : Block} {b : Byte} (h : (s.fc.entry b).freq ≠ 0xFFFFFFFF) : cntRule b s =
    .ok ({ s with fc := countByte s.fc b }, okReply 0 (zext40 ((countByte s.fc b).entry b).freq)) := by
  unfold cntRule
  exact if_neg h

/-- CNT of each byte of an input counts it (R97, R164). -/
theorem Block.after_cnt {bs pre : List Byte} {s : Block} (hf : s.flt.code = 0) (hv : s.tb.treeValid = false)
    (ht : s.fc.Tallies pre) (hb : ∀ b, (pre ++ bs).count b < 2 ^ 32) :
    ∃ f : FC, f.Tallies (pre ++ bs) ∧ s.after (bs.map .cnt) = { s with fc := f } := by
  induction bs generalizing s pre with
  | nil => exact ⟨s.fc, by rwa [List.append_nil], rfl⟩
  | cons b bs ih =>
    have hb' : ∀ c, (pre ++ [b] ++ bs).count c < 2 ^ 32 := by simpa using hb
    have hb1 : (pre ++ [b]).count b < 2 ^ 32 := by
      have := hb' b
      rw [List.count_append] at this
      omega
    have hrun : s.answer (.cnt b) =
        ({ s with fc := countByte s.fc b }, okReply 0 (zext40 ((countByte s.fc b).entry b).freq)) := by
      rw [Block.answer_run hf (by simp [precondition, hv]), ruleRun, cntRule_of_ne_max (ht.freq_ne_max hb1),
        Block.finish_ok]
    obtain ⟨f, h1, h2⟩ := ih (s := { s with fc := countByte s.fc b }) hf hv (ht.count hb1) hb'
    refine ⟨f, by simpa using h1, ?_⟩
    rw [List.map_cons, Block.after_cons, hrun, h2]

/-- The table of a non-empty input has a key (R106). -/
theorem FC.Tallies.nsym_ne_zero {f : FC} {input : List Byte} (h : f.Tallies input) (hne : input ≠ []) :
    f.nsym ≠ 0 := by
  obtain ⟨b, bs, rfl⟩ := List.exists_cons_of_ne_nil hne
  have hk := f.keyCount_setEntry b ⟨false, 0⟩
  rw [(h.keys b).2 List.mem_cons_self, Bool.toNat_true, Bool.toNat_false, ← h.ok.nsym] at hk
  intro e
  rw [e] at hk
  exact absurd hk (by simp)

/-- The total of a non-empty input is not 0 (R146). -/
theorem FC.Tallies.total_ne_zero {f : FC} {input : List Byte} (h : f.Tallies input) (hne : input ≠ []) :
    f.total ≠ 0 := by
  intro e
  have := h.total
  rw [e] at this
  exact hne (List.length_eq_zero_iff.1 this.symm)

/-! ## The tree and the codes of a table -/

/-- The code table of a table's tree (R103, R116). -/
def codesOf (f : FC) : CT := { (genCodes (buildTree f .reset) .reset).ct with codeValid := true }

/-- The code of b in the tree of the table f (R120). -/
def codeOf (f : FC) (b : Byte) : List Bool := ((codesOf f).entry b).code

/-- The code table of a table with a key (R117). -/
theorem codesOf_coded {f : FC} (hf : f.Ok) (hn : f.nsym ≠ 0) : (codesOf f).Coded f (buildTree f .reset) :=
  genCodes_coded hf (buildTree_built hf hn) rfl

/-- BUILD with the builder as at reset (R103). -/
theorem Block.answer_build {s : Block} (hf : s.flt.code = 0) (htb : s.tb = .reset)
    (hh : s.hc.hstate = .line0 ∨ s.hc.hstate = .done) (hn : s.fc.nsym ≠ 0) :
    (s.answer .build).1 = { s with tb := buildTree s.fc .reset } := by
  rw [Block.answer_run hf (precondition_build.2 ⟨by rw [htb]; rfl, hh⟩), ruleRun, buildRule_of_keys hn, htb]
  rfl

/-- GENCODE with the code table as at reset (R116). -/
theorem Block.answer_gencode {s : Block} (hf : s.flt.code = 0) (htb : s.tb = buildTree s.fc .reset)
    (hct : s.ct = .reset) : (s.answer .gencode).1 = { s with ct := codesOf s.fc } := by
  rw [Block.answer_run hf (precondition_gencode.2 ⟨by rw [htb]; rfl, by rw [hct]; rfl⟩), ruleRun,
    gencodeRule, htb, hct]
  rfl

/-! ## Writing the file -/

/-- HDRSER with a writer as at reset (R161). -/
theorem Block.answer_hdrser {s : Block} (hf : s.flt.code = 0) (hw : s.bw = .reset) :
    (s.answer .hdrser).1 = { s with bw := { BW.reset with sink := headerText s.fc } } := by
  rw [Block.answer_run hf (by rw [precondition, hw]; rfl), ruleRun, hdrserRule, hw]
  rfl

theorem writeBits_append {w w1 : BW} {p : List Bool} (h : writeBits w p = .ok w1) (q : List Bool) :
    writeBits w (p ++ q) = writeBits w1 q := by
  induction p generalizing w with
  | nil => cases h; rfl
  | cons v p ih =>
    unfold writeBits at h
    rw [List.cons_append, writeBits]
    split at h
    · exact ih h
    · cases h

/-- ENC of a byte that has a code, on a sink that does not fail, writes the code (R156). -/
theorem encRule_of_valid {s : Block} {b : Byte} {w : BW} (hv : (s.ct.entry b).valid = true)
    (hs : s.bw.snkFail = false) (h : writeBits s.bw (s.ct.entry b).code = .ok w) :
    ∃ r, encRule b s = .ok ({ s with bw := w }, r) := by
  unfold encRule
  simp [hv, hs, h]

/-- ENC of each byte of an input writes the codes one after another (R156, R164). -/
theorem Block.after_enc {bs : List Byte} {s : Block} (hf : s.flt.code = 0) (hc : s.ct.codeValid = true)
    (ho : s.bw.wClosed = false) (hs : s.bw.snkFail = false) (hv : ∀ b ∈ bs, (s.ct.entry b).valid = true) :
    ∃ w, writeBits s.bw (bs.flatMap fun b => (s.ct.entry b).code) = .ok w ∧
      s.after (bs.map .enc) = { s with bw := w } := by
  induction bs generalizing s with
  | nil => exact ⟨s.bw, rfl, rfl⟩
  | cons b bs ih =>
    obtain ⟨w1, h1⟩ := writeBits_next (vs := (s.ct.entry b).code) (.inr hs)
    obtain ⟨-, ho1, hs1⟩ := writeBits_frame h1
    obtain ⟨r, hr⟩ := encRule_of_valid (hv b List.mem_cons_self) hs h1
    have hrun : s.answer (.enc b) = ({ s with bw := w1 }, r) := by
      rw [Block.answer_run hf (by simp [precondition, hc, ho]), ruleRun, hr, Block.finish_ok]
    obtain ⟨w, h2, h3⟩ := ih (s := { s with bw := w1 }) hf hc (ho1.trans ho) (hs1.trans hs)
      fun d hd => hv d (List.mem_cons_of_mem _ hd)
    refine ⟨w, ?_, ?_⟩
    · rw [List.flatMap_cons, writeBits_append h1]
      exact h2
    · rw [List.map_cons, Block.after_cons, hrun, h3]

/-- The bytes of SINK once the writer is closed: a partial byte goes out padded (R129). -/
def BW.flushed (w : BW) : List Byte := w.sink ++ if w.wcnt = 0 then [] else [w.wbuf]

/-- WFLUSH on an open writer whose sink does not fail (R129). -/
theorem Block.answer_wflush {s : Block} (hf : s.flt.code = 0) (ho : s.bw.wClosed = false)
    (hs : s.bw.snkFail = false) :
    ∃ w : BW, (s.answer .wflush).1 = { s with bw := w } ∧ w.sink = s.bw.flushed ∧ w.wClosed = true := by
  rw [Block.answer_run hf (by simp [precondition, ho]), ruleRun, wflushRule, if_neg (by simp [hs]), BW.flushed]
  split
  · exact ⟨_, rfl, by simp, rfl⟩
  · exact ⟨_, rfl, rfl, rfl⟩

/-- A closed writer's bytes after those it started with hold the bits written, and padding (R129, R131). -/
theorem flushed_of_writeBits {w w' : BW} {vs : List Bool} (hw : w.Ok) (h0 : w.wcnt = 0) (h : writeBits w vs = .ok w') :
    ∃ (body : List Byte) (pad : List Bool), w'.flushed = w.sink ++ body ∧ body.flatMap byteBits = vs ++ pad := by
  obtain ⟨⟨out, hout⟩, -⟩ := writeBits_frame h
  have hbits : out.flatMap byteBits ++ (byteBits w'.wbuf).take w'.wcnt.toNat = vs := by
    have := (writeBits_bits hw h).1
    simpa [BW.bits, h0, hout] using this
  by_cases hc : w'.wcnt = 0
  · refine ⟨out, [], ?_, ?_⟩
    · rw [BW.flushed, if_pos hc, List.append_nil, hout]
    · simpa [hc] using hbits
  · refine ⟨out ++ [w'.wbuf], (byteBits w'.wbuf).drop w'.wcnt.toNat, ?_, ?_⟩
    · rw [BW.flushed, if_neg hc, hout, List.append_assoc]
    · rw [← hbits, List.flatMap_append, List.flatMap_singleton, List.append_assoc, List.take_append_drop]

/-- A block fresh from reset but for the table f, its tree, its codes and the writer w. -/
def Block.coded (f : FC) (w : BW) : Block :=
  { Block.reset with fc := f, tb := buildTree f .reset, ct := codesOf f, bw := w }

/-- BUILD, GENCODE and HDRSER after the count (R164): tree, codes, and the header in the sink. -/
theorem Block.after_prepare {f : FC} (hn : f.nsym ≠ 0) :
    ({ Block.reset with fc := f } : Block).after [.build, .gencode, .hdrser] =
      .coded f { BW.reset with sink := headerText f } := by
  rw [Block.after_cons, Block.answer_build rfl rfl (.inl rfl) hn, Block.after_cons, Block.answer_gencode rfl rfl rfl,
    Block.after_cons, Block.answer_hdrser rfl rfl, Block.after_nil, Block.coded]

/-- The encode procedure (R164): the table counts the input, and the file is the table's header, then the input's codes
and padding. -/
theorem Block.after_encodeProcedure {input : List Byte} (s : Block) (hne : input ≠ [])
    (hb : ∀ b, input.count b < 2 ^ 32) :
    ∃ (f : FC) (w : BW) (body : List Byte) (pad : List Bool), f.Tallies input ∧
      s.after (encodeProcedure input) = .coded f w ∧ w.wClosed = true ∧ w.sink = headerText f ++ body ∧
      body.flatMap byteBits = input.flatMap (codeOf f) ++ pad := by
  obtain ⟨f, hf, hcnt⟩ := Block.after_cnt (s := .reset) rfl rfl FC.Tallies.reset hb
  have hn := hf.nsym_ne_zero hne
  have hcoded := codesOf_coded hf.ok hn
  obtain ⟨w, hw, henc⟩ := Block.after_enc (bs := input) (s := .coded f { BW.reset with sink := headerText f })
    rfl rfl rfl rfl fun b hb => (hcoded.keys b ((hf.keys b).2 hb)).1
  obtain ⟨-, ho, hs⟩ := writeBits_frame hw
  obtain ⟨w', hflush, hsink, hclosed⟩ := Block.answer_wflush (s := .coded f w) rfl ho hs
  obtain ⟨body, pad, hfile, hbody⟩ := flushed_of_writeBits (.of_empty rfl) rfl hw
  refine ⟨f, w', body, pad, hf, ?_, hclosed, hsink.trans hfile, hbody⟩
  calc s.after (encodeProcedure input)
      = ((((Block.reset.after (input.map .cnt)).after [.build, .gencode, .hdrser]).after (input.map .enc)).after
          [.wflush]) := by
        simp only [encodeProcedure, Block.after_append, Block.after_cons, Block.after_nil, Block.answer_reset]
    _ = ((Block.coded f { BW.reset with sink := headerText f }).after (input.map .enc)).after [.wflush] := by
        rw [hcnt, ← Block.after_prepare hn]
    _ = .coded f w' := by
        rw [henc]
        exact hflush

/-! ## Splitting the file -/

/-- The header text has its only line terminator at its end (R81, R161). -/
theorem lineTerm_not_mem_pairs (f : FC) : ∀ c ∈ pairsText f.table.toList 0 true, (c != Config.lineTerm) = true := by
  intro c hc
  rw [bne_iff_ne]
  rintro rfl
  exact lineTerm_not_mem_pairsText _ _ _ hc

/-- The file split at its first line terminator gives the header back (R64, R215). -/
theorem headerPart_file (f : FC) (body : List Byte) : headerPart (headerText f ++ body) = headerText f := by
  rw [headerPart, headerText, List.append_assoc, List.takeWhile_append_of_pos (lineTerm_not_mem_pairs f)]
  simp

/-- The file split at its first line terminator gives the body back (R64, R215). -/
theorem bodyPart_file (f : FC) (body : List Byte) : bodyPart (headerText f ++ body) = body := by
  rw [bodyPart, headerText, List.append_assoc, List.dropWhile_append_of_pos (lineTerm_not_mem_pairs f)]
  simp

/-! ## Reading the file -/

/-- HDRB of each byte of a table's header, fresh from reset, gives the table back (R162). -/
theorem Block.after_hdrb_headerText {f : FC} (hf : f.Ok) :
    ∃ h : HC, h.hstate = .done ∧
      Block.reset.after ((headerText f).map .hdrb) = { Block.reset with fc := f, hc := h } := by
  obtain ⟨g, h, hp, hd, he, hnsym, htotal, -⟩ := parse_headerText hf
  obtain rfl : g = f := by
    have htable := FC.table_ext he
    cases f; cases g
    simp_all
  obtain ⟨t, hrun, ht⟩ := issue_hdrb decode_encode (s := .reset) [] rfl rfl hp
  refine ⟨h, hd, ?_⟩
  rw [List.append_nil, issue_eq, issue_nil] at hrun
  have hblock := congrArg State.toBlock (Host.Outcome.next.inj hrun)
  rw [ht] at hblock
  exact hblock

/-- PUSH of each byte (R137). -/
theorem Block.after_push {bs : List Byte} {s : Block} (hf : s.flt.code = 0) (he : s.br.srcEod = false) :
    s.after (bs.map .push) = { s with br := { s.br with src := s.br.src ++ bs.map .byte } } := by
  induction bs generalizing s with
  | nil => simp
  | cons b bs ih =>
    have hrun : (s.answer (.push b)).1 = { s with br := { s.br with src := s.br.src ++ [.byte b] } } := by
      rw [Block.answer_run hf (by simp [precondition, he])]
      rfl
    rw [List.map_cons, Block.after_cons, hrun, ih (by exact hf) (by exact he)]
    simp

/-- EOD (R140). -/
theorem Block.answer_eod {s : Block} (hf : s.flt.code = 0) (he : s.br.srcEod = false) :
    (s.answer .eod).1 = { s with br := { s.br with srcEod := true } } := by
  rw [Block.answer_run hf (by simp [precondition, he])]
  rfl

/-- DSTART on a tree, no walk started (R146). -/
theorem Block.answer_dstart {s : Block} (hf : s.flt.code = 0) (hv : s.tb.treeValid = true)
    (hi : s.tw.wstate = .idle) : (s.answer .dstart).1 = { s with tw := startWalk s } := by
  rw [Block.answer_run hf (by simp [precondition, hv, hi])]
  rfl

/-- DEC at the root with the code of b ahead emits b (R150). -/
theorem Block.answer_dec {s : Block} {f : FC} {c : CT} {b : Byte} {rest : List Bool} (hf : s.flt.code = 0)
    (hw : s.tw.wstate = .walk) (hr : s.tw.cur = s.tb.root) (hB : s.tb.Built f) (hc : c.Coded f s.tb)
    (hb : (f.entry b).pres = true) (ha : s.br.ahead = (c.entry b).code ++ rest) :
    ∃ r : BR, r.ahead = rest ∧ (s.answer .dec).1 = { s with br := r, tw := emitByte s.tw s.tb.root b } := by
  obtain ⟨-, -, hfol⟩ := hc.keys b hb
  obtain ⟨hk, hsym⟩ := hB.leaf_kind hb
  obtain ⟨r, h1, -, h2⟩ := decRun_path _ hw (hr ▸ hB.root_internal) (hr ▸ hfol) hk ha
  refine ⟨r, h1, ?_⟩
  rw [Block.answer_run hf (precondition_dec.2 (by simp [hw])), ruleRun, h2, hsym]

/-- DEC for each byte of what is left to emit, with the codes ahead, emits the bytes and ends the walk (R150, R153). -/
theorem Block.after_dec {f : FC} {c : CT} {bs : List Byte} {s : Block} {rest : List Bool} (hf : s.flt.code = 0)
    (hw : s.tw.wstate = .walk) (hr : s.tw.cur = s.tb.root) (hB : s.tb.Built f) (hc : c.Coded f s.tb)
    (hkeys : ∀ b ∈ bs, (f.entry b).pres = true) (hne : bs ≠ [])
    (hleft : s.tw.emitted.toNat + bs.length = s.tw.expected.toNat)
    (ha : s.br.ahead = bs.flatMap (fun b => (c.entry b).code) ++ rest) :
    ∃ r : BR, s.after (List.replicate bs.length .dec) = { s with
      br := r, tw := { s.tw with dout := s.tw.dout ++ bs, emitted := s.tw.expected, wstate := .done } } := by
  induction bs generalizing s with
  | nil => exact absurd rfl hne
  | cons b bs ih =>
    rw [List.length_cons] at hleft
    rw [List.flatMap_cons, List.append_assoc] at ha
    obtain ⟨r, hrest, hrun⟩ := Block.answer_dec hf hw hr hB hc (hkeys b List.mem_cons_self) ha
    have hemit : (s.tw.emitted + 1).toNat = s.tw.emitted.toNat + 1 := by
      have := s.tw.expected.isLt
      have : (s.tw.emitted + 1).toNat = (s.tw.emitted.toNat + 1) % 2 ^ 40 := rfl
      omega
    have hdone : s.tw.emitted + 1 = s.tw.expected ↔ bs = [] := by
      rw [← BitVec.toNat_inj, hemit, ← List.length_eq_zero_iff]
      omega
    rw [List.length_cons, List.replicate_succ, Block.after_cons, hrun]
    by_cases hbs : bs = []
    · subst hbs
      refine ⟨r, ?_⟩
      rw [emitByte, if_pos (hdone.2 rfl), hdone.2 rfl]
      simp [hr]
    · obtain ⟨r', h⟩ := ih (s := { s with br := r, tw := emitByte s.tw s.tb.root b }) hf
        (by rw [emitByte, if_neg (mt hdone.1 hbs)]; exact hw) rfl hB hc
        (fun d hd => hkeys d (List.mem_cons_of_mem _ hd)) hbs (by simp only [emitByte, hemit]; omega) hrest
      refine ⟨r', ?_⟩
      rw [h]
      simp [emitByte, hr]

/-- DEC after the walk has ended answers DONE and changes nothing (R150, R152). -/
theorem Block.answer_dec_done {s : Block} (hf : s.flt.code = 0) (hw : s.tw.wstate = .done) :
    s.answer .dec = (s, doneReply (walkValue s.tw.cur false)) := by
  have hstep : dstepRule s = .ok (s, doneReply (walkValue s.tw.cur false)) := by rw [dstepRule, if_pos hw]
  rw [Block.answer_run hf (precondition_dec.2 (by simp [hw])), ruleRun, decRun_loud, hstep, Block.finish_ok]
  intro t r h
  rw [hstep] at h
  cases h
  rfl

/-- A block at the start of a walk over the tree of f, fresh from reset but for that, the parser h and the
pushed bytes. -/
def Block.loaded (f : FC) (h : HC) (body : List Byte) : Block :=
  { Block.reset with
    fc := f, hc := h, tb := buildTree f .reset
    br := { BR.reset with src := body.map .byte, srcEod := true }
    tw := { TW.reset with cur := (buildTree f .reset).root, expected := f.total, wstate := .walk } }

/-- BUILD, DSTART, the pushes and EOD after the header (R165). -/
theorem Block.after_load {f : FC} {h : HC} (hn : f.nsym ≠ 0) (ht : f.total ≠ 0) (hd : h.hstate = .done)
    (body : List Byte) : ({ Block.reset with fc := f, hc := h } : Block).after
      ([.build, .dstart] ++ body.map .push ++ [.eod]) = .loaded f h body := by
  have hstart : startWalk { Block.reset with fc := f, hc := h, tb := buildTree f .reset } =
      { TW.reset with cur := (buildTree f .reset).root, expected := f.total, wstate := .walk } := by
    simpa [startWalk, Block.reset, TW.reset] using ht
  simp only [Block.after_append, Block.after_cons, Block.after_nil]
  rw [Block.answer_build rfl rfl (.inr hd) hn, Block.answer_dstart rfl rfl rfl, hstart, Block.after_push rfl rfl,
    Block.answer_eod rfl rfl]
  rfl

/-- The bits ahead of a loaded block are the pushed bytes' (R141). -/
theorem Block.loaded_ahead (f : FC) (h : HC) (body : List Byte) :
    (Block.loaded f h body).br.ahead = body.flatMap byteBits := by
  rw [ahead_of_empty rfl, ← tokenBits_bytes]
  rfl

/-- The block when the walk over the tree of f has emitted the input, fresh from reset but for that, the parser h and
the reader r. -/
def Block.decoded (f : FC) (h : HC) (r : BR) (input : List Byte) : Block :=
  { Block.reset with
    fc := f, hc := h, tb := buildTree f .reset, br := r
    tw := { TW.reset with
      cur := (buildTree f .reset).root, emitted := f.total, expected := f.total, wstate := .done, dout := input } }

/-- The decode procedure (R165) with one DEC for each byte, on a file that encodes the input. -/
theorem Block.after_decodeProcedure {input body : List Byte} {f : FC} {pad : List Bool} (s : Block)
    (hne : input ≠ []) (hf : f.Tallies input)
    (hbody : body.flatMap byteBits = input.flatMap (codeOf f) ++ pad) :
    ∃ (h : HC) (r : BR), s.after (decodeProcedure (headerText f) body input.length) = .decoded f h r input := by
  have hn := hf.nsym_ne_zero hne
  obtain ⟨h, hd, hhdr⟩ := Block.after_hdrb_headerText hf.ok
  obtain ⟨r, hr⟩ := Block.after_dec (s := .loaded f h body) rfl rfl rfl (buildTree_built hf.ok hn)
    (codesOf_coded hf.ok hn) (fun b => (hf.keys b).2) hne ((Nat.zero_add _).trans hf.total.symm)
    ((Block.loaded_ahead f h body).trans hbody)
  refine ⟨h, r, ?_⟩
  calc s.after (decodeProcedure (headerText f) body input.length)
      = ((Block.reset.after ((headerText f).map .hdrb)).after ([.build, .dstart] ++ body.map .push ++ [.eod])).after
          (List.replicate input.length .dec) := by
        simp only [decodeProcedure, Block.after_append, Block.after_cons, Block.after_nil, Block.answer_reset]
    _ = (Block.loaded f h body).after (List.replicate input.length .dec) := by
        rw [hhdr, Block.after_load hn (hf.total_ne_zero hne) hd]
    _ = _ := hr

/-- One more DEC in the decode procedure comes last (R165). -/
theorem decodeProcedure_succ (header body : List Byte) (n : Nat) :
    decodeProcedure header body (n + 1) = decodeProcedure header body n ++ [.dec] := by
  simp only [decodeProcedure, List.replicate_succ', List.append_assoc]

/-- Settles O57: the file is header, codes and padding (`Block.after_encodeProcedure`); read back, the header gives the
same table, so the same tree, and each DEC takes one code (`Block.after_decodeProcedure`); one DEC more answers DONE. -/
theorem decodeInvertsEncodeProcedure : Obligations.DecodeInvertsEncodeProcedure := by
  intro input s hne hb
  obtain ⟨f, w, body, pad, hf, henc, hclosed, hsink, hbody⟩ := Block.after_encodeProcedure s.toBlock hne hb
  refine ⟨_, issue_eq .., ⟨by rw [henc]; exact hclosed, by rw [henc]; rfl⟩, _, issue_eq .., ?_⟩
  have hfile : (s.toBlock.after (encodeProcedure input)).bw.sink = headerText f ++ body := by rw [henc]; exact hsink
  obtain ⟨h, r, hdec⟩ := Block.after_decodeProcedure (s.toBlock.after (encodeProcedure input)) hne hf hbody
  dsimp only
  rw [hfile, headerPart_file, bodyPart_file, decodeProcedure_succ, Block.after_append, Block.replies_append, hdec,
    Block.after_cons, Block.after_nil, Block.replies, Block.answer_dec_done rfl rfl]
  refine ⟨rfl, ⟨rfl, rfl, rfl⟩, (doneReply (walkValue (Block.decoded f h r input).tw.cur false)).word, ?_,
    Reply.word_status _⟩
  rw [Block.replies, ← List.append_assoc, List.getLast?_concat]

end Sys2Proof.Machine
end

section
/-! SUPPORT. The frequency counter as commands (40_frequency_counter.md): its read-backs (R94 to R96), the effects and
faults of CNT and LOADF (R91 to R93), the table frozen by BUILD (R90, R217), and the histogram of an input (R97). -/

namespace Sys2Proof.Machine

/-! ## The table frozen by BUILD -/

/-- Each of the three commands that can change the table requires TREE_VALID to be 0 (R188). -/
theorem Moved.fc_of_treeValid {i : Instr} {s t : Block} (h : Moved i s t) (hv : s.tb.treeValid = true)
    (hi : i ≠ .reset) : t.fc = s.fc := by
  have forbidden {P : Prop} (h0 : s.tb.treeValid = false) : P := by simp [hv] at h0
  by_contra hne
  rcases (h.changesOwnUnits hi).fc hne with ⟨b, rfl⟩ | ⟨b, n, rfl⟩ | ⟨c, rfl⟩
  · cases h with
    | same => exact hne rfl
    | cnt h0 _ => exact forbidden h0
  · cases h with
    | same => exact hne rfl
    | loadf h0 _ => exact forbidden h0
  · cases h with
    | same => exact hne rfl
    | hdrb h0 _ _ => exact forbidden h0

/-- Settles O18: a fault recorded over a command's change leaves the table as the change left it. -/
theorem tableIsFrozenByBuild : Obligations.TableIsFrozenByBuild := by
  intro i s t h hv hi
  obtain ⟨u, r, hm, rfl | ⟨-, k, info, rfl⟩⟩ := exec_moved h <;> exact hm.fc_of_treeValid hv hi

/-! ## The histogram of an input -/

/-- NSYM's keys, counted over the byte values (R20). -/
theorem FC.keyCount_eq_countP_range (f : FC) :
    f.keyCount = (List.range 256).countP fun k => (f.entry (BitVec.ofNat 8 k)).pres := by
  have htable : f.table.toList = (List.range 256).map fun k => f.entry (BitVec.ofNat 8 k) := by
    refine List.ext_getElem (by simp) fun k hk _ => ?_
    have hk' : k % 256 = k := Nat.mod_eq_of_lt (by simpa using hk)
    simp [FC.entry, hk']
  rw [FC.keyCount, htable, List.countP_map]
  rfl

/-- The keys of an input's table are its distinct bytes (R97). -/
theorem FC.Tallies.nsym {f : FC} {input : List Byte} (h : f.Tallies input) :
    f.nsym.toNat = input.dedup.length := by
  have hperm : ((List.range 256).filter fun k => (f.entry (BitVec.ofNat 8 k)).pres).Perm
      (input.dedup.map BitVec.toNat) := by
    rw [List.perm_ext_iff_of_nodup (List.nodup_range.filter _)
      (input.nodup_dedup.map fun _ _ => BitVec.eq_of_toNat_eq)]
    intro k
    simp only [List.mem_filter, List.mem_range, List.mem_map, List.mem_dedup, h.keys]
    constructor
    · rintro ⟨hk, hmem⟩
      exact ⟨_, hmem, Nat.mod_eq_of_lt hk⟩
    · rintro ⟨b, hmem, rfl⟩
      exact ⟨b.isLt, by simpa using hmem⟩
  rw [h.ok.nsym, f.keyCount_eq_countP_range, List.countP_eq_length_filter, hperm.length_eq, List.length_map]

/-- Settles O28: counting from the empty table at reset ends in a table that tallies the input (`Block.after_cnt`). -/
theorem countingGivesTheHistogram : Obligations.CountingGivesTheHistogram := by
  intro input hb
  obtain ⟨f, hf, hafter⟩ := Block.after_cnt (s := .reset) (pre := []) (bs := input) rfl rfl .reset hb
  refine ⟨_, issue_eq .., ?_⟩
  dsimp only [State.reset]
  rw [hafter]
  exact ⟨rfl, fun b => ⟨hf.freq b, hf.keys b⟩, hf.nsym, hf.total⟩

/-! ## The read-backs -/

/-- A bit as AUX (R73). -/
theorem zext8_eq_ite (v : Bool) : zext8 v = if v then 1 else 0 := by cases v <;> rfl

/-- Settles O23: the three commands are among the twelve of R174 and require no control state. -/
theorem frequencyReadsAnswer : Obligations.FrequencyReadsAnswer := by
  refine ⟨fun _ => rfl, rfl, rfl, fun s => ⟨fun b => ?_, ?_, ?_⟩⟩
  · rw [exec_of_checks (.inr rfl) rfl, ruleRun, zext8_eq_ite]
    rfl
  · exact exec_of_checks (.inr rfl) rfl
  · exact exec_of_checks (.inr rfl) rfl

/-! ## CNT and LOADF -/

/-- The response word of OK, AUX 0, VALUE 0 (R73, R74). -/
theorem okReply_zero_word : (okReply 0 0).word = 0x0000000000000000 := by decide

/-- The response word of ProtocolError (R73, R188). -/
theorem protocolReply_word : (faultReply FaultKind.protocol.code 0).word = 0x8700000000000000 := by decide

/-- ProtocolError, F_INFO 0, is all that a command forbidden by the control state does (R188). -/
theorem exec_forbidden {i : Instr} {s : State} (hf : s.flt.code = 0) (hp : precondition s.toBlock i = false) :
    exec i s = .next { s with flt := ⟨7, i.opcode, 0⟩, rsps := s.rsps ++ [0x8700000000000000] } := by
  rw [exec_protocol (Block.faulted_eq_false.2 hf) hp, State.respond, Block.raise_reply, protocolReply_word]
  rfl

/-- A fault with F_INFO a byte value is all that a command does whose rule raises it (R180, R186). -/
theorem exec_raises_byte {i : Instr} {s : State} {k : FaultKind} {b : Byte} (hf : s.flt.code = 0)
    (hp : precondition s.toBlock i = true)
    (hr : ruleRun i s.toBlock = s.toBlock.raise i.opcode ⟨k, zext32 b⟩) :
    exec i s = .next { s with
      flt := ⟨k.code, i.opcode, b.setWidth 32⟩
      rsps := s.rsps ++ [(Reply.mk (0x80 + k.code) 0 (b.setWidth 40)).word] } := by
  rw [exec_run hf hp, hr, ← zext40_zext32]
  rfl

/-- CNT on a count at its top (R92, R185). -/
theorem cntRule_of_max {s : Block} {b : Byte} (h : (s.fc.entry b).freq = 0xFFFFFFFF) :
    cntRule b s = .error ⟨.countOverflow, zext32 b⟩ := by
  unfold cntRule
  exact if_pos h

/-- LOADF of a new key (R93). -/
theorem loadfRule_of_absent {s : Block} {b : Byte} (h : (s.fc.entry b).pres = false) (n : CountWord) :
    loadfRule b n s = .ok ({ s with fc := enterPair s.fc b n }, okReply 0 0) := by
  rw [loadfRule, commit_of_absent h]

/-- LOADF of a byte value that is a key (R93, R182). -/
theorem loadfRule_of_present {s : Block} {b : Byte} (h : (s.fc.entry b).pres = true) (n : CountWord) :
    loadfRule b n s = .error ⟨.malformedHeader, zext32 b⟩ := by
  rw [loadfRule, commit_of_present h]

/-- Settles O26: below the largest count the table is `countByte`'s; at it, and after BUILD, only the fault registers
change. -/
theorem cntCountsOneByte : Obligations.CntCountsOneByte := by
  refine fun b => ⟨rfl, fun s hf =>
    ⟨fun hv hc => ⟨countByte s.fc b, ?_, ?_, ?_, rfl, rfl⟩, fun hv hc => ?_, fun hv => ?_⟩⟩
  · rw [exec_run hf (by simp [precondition, hv]), ruleRun, cntRule_of_ne_max hc, entry_countByte, if_pos rfl]
    rfl
  · rw [entry_countByte, if_pos rfl]
  · intro c hne
    rw [entry_countByte, if_neg hne]
  · refine exec_raises_byte (k := .countOverflow) hf (by simp [precondition, hv]) ?_
    rw [ruleRun, cntRule_of_max hc]
    rfl
  · exact exec_forbidden hf (by simp [precondition, hv])

/-- Settles O27: for an absent key the table is `enterPair`'s; for a key, and after BUILD, only the fault registers
change. -/
theorem loadfEntersOnePair : Obligations.LoadfEntersOnePair := by
  refine fun b n => ⟨rfl, fun s hf =>
    ⟨fun hv hb => ⟨enterPair s.fc b n, ?_, ?_, ?_, rfl, rfl⟩, fun hv hb => ?_, fun hv => ?_⟩⟩
  · rw [exec_run hf (by simp [precondition, hv]), ruleRun, loadfRule_of_absent hb, Block.finish_ok,
      State.respond, okReply_zero_word]
  · rw [entry_enterPair, if_pos rfl]
  · intro c hne
    rw [entry_enterPair, if_neg hne]
  · refine exec_raises_byte (k := .malformedHeader) hf (by simp [precondition, hv]) ?_
    rw [ruleRun, loadfRule_of_present hb]
    rfl
  · exact exec_forbidden hf (by simp [precondition, hv])

end Sys2Proof.Machine
end

section
/-! SUPPORT. The tree builder as commands (41_tree_builder.md): ExtractMin and one merge, slot by slot (R101 to R103), the
one-symbol tree (R105), BUILD's fault and what BUILD depends on (R106, R107), and the read-backs (R108 to R110). -/

namespace Sys2Proof.Machine

/-! ## The queue -/

/-- Settles O42: `TB.extractMin_spec`, with the queue it leaves read slot by slot (`TB.node_setActive`). -/
theorem extractMinTakesTheLeastKey : Obligations.ExtractMinTakesTheLeastKey := by
  refine fun t => ⟨TB.extractMin_none, fun h => ?_⟩
  obtain ⟨x, hx, ha, hleast, -⟩ := TB.extractMin_spec h
  have hnode := t.node_setActive (TB.ne_dummy_of_active ha) false
  refine ⟨x, _, hx, ha, hleast, ?_, fun j hj => ?_⟩
  · rw [hnode, if_pos rfl]
  · rw [hnode, if_neg hj]

/-- Settles O44: `mergeOnce_spec`, with the arena it leaves read slot by slot (`node_mergeOnce`); the nodes taken are
active, so the premise keeps them off the new node's slot. -/
theorem mergeJoinsTheTwoLeastNodes : Obligations.MergeJoinsTheTwoLeastNodes := by
  intro k t hk hbelow hsize
  obtain ⟨x, y, hxy, hx, hy, hleast, hnext, hmerge, -⟩ := mergeOnce_spec k hsize
  have hnode := node_mergeOnce (t := t) (n := ⟨.internal, 0, (t.node x).freq + (t.node y).freq, x, y, true⟩) hk
    (TB.ne_dummy_of_active hx) (TB.ne_dummy_of_active hy)
  have hne : ∀ i, (t.node i).active = true → i ≠ intIdx k := fun i hi => BitVec.ne_of_lt (hbelow i hi)
  rw [hmerge]
  refine ⟨x, y, hxy, hx, hy, hleast y hy hxy.symm, hnext, ?_, ?_, ?_, fun j hjx hjy hjk => ?_⟩
  · rw [hnode, if_pos rfl]
  · rw [hnode, if_neg (hne x hx), if_pos (.inl rfl)]
  · rw [hnode, if_neg (hne y hy), if_pos (.inr rfl)]
  · rw [hnode, if_neg hjk, if_neg (by simp [hjx, hjy])]

/-! ## The one-symbol tree -/

/-- The registers and the two stored nodes of the tree of the one key b (R105). -/
theorem buildTree_of_oneKey {f : FC} {b : Byte} (hf : f.Ok) (h1 : f.nsym = 1) (hb : (f.entry b).pres = true) :
    (buildTree f .reset).root = 256 ∧ (buildTree f .reset).nint = 1 ∧
      (buildTree f .reset).node 256 = ⟨.internal, 0, (f.entry b).freq.setWidth 40, leafIdx b, 511, true⟩ ∧
      (buildTree f .reset).node (leafIdx b) = ⟨.leaf, b, (f.entry b).freq.setWidth 40, 511, 511, false⟩ := by
  obtain ⟨hm, hleaves⟩ := insertLeaves_reset hf
  have hleaf := hleaves b
  rw [if_pos hb] at hleaf
  have hsize : (insertLeaves f.table.toList 0 .reset).size = 1 := by
    rw [← Nat.add_zero (TB.size _), hm.count, ← hf.nsym, h1]
    rfl
  obtain ⟨c, u, hmerge, -, -, honly, hu⟩ := mergeSingle_spec hm hsize
  obtain rfl : b = c := honly b hb (by rw [hleaf]; rfl)
  have htree : buildTree f .reset = { u with root := 256, nint := 1, treeValid := true } := by
    simp only [buildTree, grow, if_pos h1, hmerge]
    rfl
  rw [htree]
  refine ⟨rfl, rfl, ?_, ?_⟩ <;> rw [TB.node_withTree, hu]
  · rw [if_pos (show 256 = intIdx 0 from rfl), hleaf]
    rfl
  · rw [if_neg (leafIdx_ne_intIdx b (by decide)), if_pos rfl, hleaf]
    rfl

/-- BUILD on a table with a key answers `buildTree` (R103). -/
theorem exec_build {s : State} (hf : s.flt.code = 0) (hv : s.tb.treeValid = false)
    (hh : s.hc.hstate = .line0 ∨ s.hc.hstate = .done) (hn : s.fc.nsym ≠ 0) :
    exec .build s = .next { s with
      tb := buildTree s.fc s.tb
      rsps := s.rsps ++
        [(okReply 0 (rootValue (buildTree s.fc s.tb).nint (buildTree s.fc s.tb).root)).word] } := by
  rw [exec_run hf (precondition_build.2 ⟨hv, hh⟩), ruleRun, buildRule_of_keys hn]
  rfl

/-- Settles O45: BUILD answers `buildTree`, which for one key is `buildTree_of_oneKey`. -/
theorem buildOneSymbolTree : Obligations.BuildOneSymbolTree := by
  intro s b hflt hf htb hh h1 hb
  obtain ⟨hroot, hnint, htop, hleaf⟩ := buildTree_of_oneKey hf h1 hb
  refine ⟨buildTree s.fc .reset, ?_, hroot, hnint, rfl, htop, hleaf⟩
  have hword : (okReply 0 (rootValue 1 256)).word = 0x0000000000010100 := by decide
  rw [exec_build hflt (by rw [htb]; rfl) hh (by rw [h1]; decide), htb, hroot, hnint, hword]

/-! ## BUILD's fault, and what BUILD depends on -/

/-- BUILD on the empty table (R106). -/
theorem buildRule_of_noKeys {s : Block} (h : s.fc.nsym = 0) : buildRule s = .error ⟨.emptyInput, 0⟩ := by
  rw [buildRule, if_pos h]

/-- Settles O46: the rule raises EmptyInputError, and `Block.raise` changes the fault registers only. -/
theorem buildOnTheEmptyTableFaults : Obligations.BuildOnTheEmptyTableFaults := by
  intro s hf hv hh hn
  have hword : (faultReply FaultKind.emptyInput.code 0).word = 0x8100000000000000 := by decide
  rw [exec_run hf (precondition_build.2 ⟨hv, hh⟩), ruleRun, buildRule_of_noKeys hn, Block.finish_error,
    State.respond, Block.raise_reply, hword]
  rfl

/-- A BUILD that leaves no fault recorded has made `buildTree`: a refusal and a fault both leave one. -/
theorem tb_of_build {s t : State} (h : exec .build s = .next t) (hf : t.flt.code = 0) :
    t.tb = buildTree s.fc s.tb := by
  rw [exec_eq] at h
  cases h
  rw [State.respond_toBlock] at hf ⊢
  obtain ⟨hfaulted, -, hans⟩ | ⟨-, -, hans⟩ | ⟨-, -, hans⟩ := s.answer_cases .build <;> rw [hans] at hf ⊢
  · exact absurd hf (Block.faulted_eq_true.1 hfaulted)
  · exact absurd hf (Block.faulted_eq_true.1 (s.toBlock.raise_faulted ..))
  · rw [ruleRun] at hf ⊢
    by_cases hn : s.fc.nsym = 0
    · rw [buildRule_of_noKeys hn] at hf
      exact absurd hf (Block.faulted_eq_true.1 (s.toBlock.raise_faulted ..))
    · rw [buildRule_of_keys hn]
      rfl

/-- Under R90's sums the entries fix NSYM and TOTAL, so they are the whole unit. -/
theorem FC.Ok.ext {f g : FC} (hf : f.Ok) (hg : g.Ok) (h : ∀ b, f.entry b = g.entry b) : f = g := by
  have htable := FC.table_ext h
  have hnsym : f.nsym = g.nsym :=
    BitVec.eq_of_toNat_eq (by rw [hf.nsym, hg.nsym, FC.keyCount, FC.keyCount, htable])
  have htotal : f.total = g.total :=
    BitVec.eq_of_toNat_eq (by rw [hf.total, hg.total, FC.freqSum, FC.freqSum, htable])
  cases f
  cases g
  simp_all

/-- Settles O47: before BUILD both builders are as at reset, and equal entries make equal tables. -/
theorem buildDependsOnTheTableOnly : Obligations.BuildDependsOnTheTableOnly := by
  intro s s' t t' hs hs' hentries hv hv' h h' hf hf'
  rw [tb_of_build h hf, tb_of_build h' hf', hs.tb.eq_reset hv, hs'.tb.eq_reset hv', hs.fc.ext hs'.fc hentries]

/-! ## The read-backs -/

section NodeValue
variable (n : Node)

@[simp] theorem nodeValue_right : (nodeValue n).extractLsb' 0 9 = n.right := by
  rw [nodeValue, zext40, BitVec.extractLsb'_setWidth_of_le (by decide),
    BitVec.extractLsb'_append_eq_of_add_le (by decide), BitVec.extractLsb'_eq_self]

@[simp] theorem nodeValue_left : (nodeValue n).extractLsb' 9 9 = n.left := by
  rw [nodeValue, zext40, BitVec.extractLsb'_setWidth_of_le (by decide),
    BitVec.extractLsb'_append_eq_of_le (by decide), BitVec.extractLsb'_append_eq_of_add_le (by decide)]
  exact BitVec.extractLsb'_eq_self

@[simp] theorem nodeValue_kind : (nodeValue n).extractLsb' 18 2 = n.kind.code := by
  rw [nodeValue, zext40, BitVec.extractLsb'_setWidth_of_le (by decide),
    BitVec.extractLsb'_append_eq_of_le (by decide), BitVec.extractLsb'_append_eq_of_le (by decide),
    BitVec.extractLsb'_append_eq_of_add_le (by decide)]
  exact BitVec.extractLsb'_eq_self

@[simp] theorem nodeValue_active : (nodeValue n).getLsbD 20 = n.active := by
  rw [nodeValue, zext40, BitVec.getLsbD_setWidth, BitVec.getLsbD_append, BitVec.getLsbD_append, BitVec.getLsbD_append]
  simp [bit1]

@[simp] theorem nodeValue_top : (nodeValue n).extractLsb' 21 19 = 0 := by
  rw [nodeValue, zext40, BitVec.extractLsb'_setWidth_of_le (by decide)]
  ext k hk
  simp

end NodeValue

/-- A node index widened into N is the index below the word's reserved bits (R71). -/
theorem word_of_nodeOperand (op : Byte) (i : NodeIdx) :
    (op ++ 0#8 ++ i.setWidth 32 : CmdWord) = op ++ 0#31 ++ i := by
  have hi : i.toNat % 2 ^ 32 = i.toNat := Nat.mod_eq_of_lt (by omega)
  apply BitVec.eq_of_toNat_eq
  rw [BitVec.toNat_append, BitVec.toNat_append, BitVec.toNat_setWidth, BitVec.toNat_append, BitVec.toNat_append, hi]
  simp [← Nat.shiftLeft_add]

/-- Settles O24: the three commands are among the twelve of R174 and require no control state. -/
theorem nodeReadsAnswer : Obligations.NodeReadsAnswer := by
  refine ⟨fun i => ⟨word_of_nodeOperand .., word_of_nodeOperand ..⟩, rfl, fun s => ?_⟩
  have hnode (i : NodeIdx) : exec (.rdnode i) s =
      .next (s.respond (s.toBlock, okReply (s.tb.node i).sym (nodeValue (s.tb.node i)))) :=
    exec_of_checks (.inr rfl) rfl
  have hfreq (i : NodeIdx) : exec (.rdnfrq i) s = .next (s.respond (s.toBlock, okReply 0 (s.tb.node i).freq)) :=
    exec_of_checks (.inr rfl) rfl
  have hdummy : s.tb.node 511 = dummyNode := TB.node_dummy _
  refine ⟨fun i => ⟨_, hnode i, nodeValue_right .., nodeValue_left .., ?_, nodeValue_active .., nodeValue_top ..⟩,
    hfreq, ⟨rootValue s.tb.nint s.tb.root, ?_, rootValue_root .., rootValue_nint .., rootValue_gap ..,
      rootValue_top ..⟩, ?_, ?_⟩
  · rw [nodeValue_kind]
    cases (s.tb.node i).kind <;> rfl
  · rw [exec_of_checks (.inr rfl) rfl, ruleRun, zext8_eq_ite]
    rfl
  · have hword : (okReply dummyNode.sym (nodeValue dummyNode)).word = 0x00000000000FFFFF := by decide
    rw [hnode, hdummy, State.respond, hword]
  · rw [hfreq, hdummy, State.respond, show dummyNode.freq = 0 from rfl, okReply_zero_word]

end Sys2Proof.Machine
end

section
/-! SUPPORT. The code table's read-backs as commands (42_code_table.md R118, R119). -/

namespace Sys2Proof.Machine

/-- A position widened into N is the position below the word's reserved bits (R71). -/
theorem word_of_posOperand (op b k : Byte) : (op ++ b ++ k.setWidth 32 : CmdWord) = op ++ b ++ 0#24 ++ k := by
  have hk : k.toNat % 2 ^ 32 = k.toNat := Nat.mod_eq_of_lt (by omega)
  apply BitVec.eq_of_toNat_eq
  simp only [BitVec.toNat_append, BitVec.toNat_setWidth, hk]
  simp [← Nat.shiftLeft_add]

/-- A bit as VALUE (R73). -/
theorem zext40_bit1_eq_ite (v : Bool) : zext40 (bit1 v) = if v then 1 else 0 := by cases v <;> rfl

/-- RDCBIT's response: AUX is the bit read from the code, VALUE says whether there is one (R119). -/
theorem rdcbitReply_eq (e : CodeEntry) (k : Byte) : rdcbitReply e k =
    ⟨0x00, if k.toNat < e.len.toNat ∧ e.bits.getLsbD k.toNat = true then 1 else 0,
      if e.valid = true ∧ k.toNat < e.len.toNat then 1 else 0⟩ := by
  simp [rdcbitReply, okReply, zext8_eq_ite, zext40_bit1_eq_ite, BitVec.lt_def]

/-- Settles O25: the two commands are among the twelve of R174 and require no control state. -/
theorem codeReadsAnswer : Obligations.CodeReadsAnswer := by
  refine ⟨fun _ => rfl, fun _ _ => word_of_posOperand .., fun s b => ⟨?_, fun k => ?_⟩⟩
  · rw [exec_of_checks (.inr rfl) rfl, ruleRun, zext8_eq_ite]
    rfl
  · rw [exec_of_checks (.inr rfl) rfl, ruleRun, rdcbitReply_eq]
    rfl

end Sys2Proof.Machine
end

section
/-! SUPPORT. The bit-stream writer as commands (43_bitstream_writer.md; R156 of 46_filecodec.md): ENC, WBIT and WFLUSH
with their responses and the sink's fault, and the commands by which the environment speaks (R130, R137, R138, R140). -/

namespace Sys2Proof.Machine

/-! ## ENC -/

/-- ENC of a byte that has a code, when no byte is put or the sink takes it (R156). -/
theorem encRule_of_writeBits {s : Block} {b : Byte} {w : BW} (hv : (s.ct.entry b).valid = true)
    (hs : putCount s.bw (s.ct.entry b).len = 0 ∨ s.bw.snkFail = false)
    (h : writeBits s.bw (s.ct.entry b).code = .ok w) :
    encRule b s = .ok ({ s with bw := w },
      okReply (s.ct.entry b).len (BitVec.ofNat 40 (putCount s.bw (s.ct.entry b).len))) := by
  have hsink : ¬ (putCount s.bw (s.ct.entry b).len ≠ 0 ∧ s.bw.snkFail = true) := by
    rintro ⟨hput, hfail⟩
    rcases hs with hs | hs
    · exact hput hs
    · rw [hfail] at hs; cases hs
  rw [encRule, if_neg (by simp [hv]), if_neg hsink, h]

/-- Settles O38: the code's bits are written one by one (`writeBits_bits`), and their number gives the bytes put and the
bits left (`writeBits_counts`). -/
theorem encWritesTheCode : Obligations.EncWritesTheCode := by
  intro b s hw hf hc ho hv len put hput
  have hlen : (s.ct.entry b).code.length = len := CodeEntry.code_length _
  obtain ⟨w, hwrite⟩ := writeBits_next (w := s.bw) (vs := (s.ct.entry b).code) (by rwa [hlen])
  obtain ⟨hbits, hpad⟩ := writeBits_bits hw hwrite
  obtain ⟨hsink, hcnt⟩ := writeBits_counts hw hwrite
  obtain ⟨-, hclosed, hfail⟩ := writeBits_frame hwrite
  rw [hlen] at hsink hcnt
  refine ⟨w, ?_, hpad, hbits, hsink, hcnt, hclosed, hfail⟩
  rw [exec_run hf (by simp [precondition, hc, ho]), ruleRun, encRule_of_writeBits hv hput hwrite]
  rfl

/-! ## The plain answer and the sink's fault -/

/-- A command whose rule answers OK, AUX 0, VALUE 0 from the block `t` (R73, R74). -/
theorem exec_ok_zero {i : Instr} {s : State} {t : Block} (hf : s.flt.code = 0)
    (hp : precondition s.toBlock i = true) (hr : ruleRun i s.toBlock = (t, okReply 0 0)) :
    exec i s = .next { s with toBlock := t, rsps := s.rsps ++ [0x0000000000000000] } := by
  rw [exec_run hf hp, hr, State.respond, okReply_zero_word]

/-- The response word of IOError(0) (R73, R126). -/
theorem sinkErrorReply_word : (faultReply FaultKind.io.code 0).word = 0x8300000000000000 := by decide

/-- IOError(0) is all that a command does whose rule meets a failing sink (R126, R186). -/
theorem exec_raises_sinkError {i : Instr} {s : State} (hf : s.flt.code = 0)
    (hp : precondition s.toBlock i = true) (hr : ruleRun i s.toBlock = s.toBlock.raise i.opcode sinkError) :
    exec i s = .next { s with flt := ⟨3, i.opcode, 0⟩, rsps := s.rsps ++ [0x8300000000000000] } := by
  rw [exec_run hf hp, hr, State.respond, Block.raise_reply, sinkError, sinkErrorReply_word]
  rfl

/-! ## WBIT -/

/-- A bit that does not fill the buffer joins those held (R127). -/
theorem writeBit_of_room {w : BW} (h : w.wcnt ≠ 7) (v : Bool) :
    writeBit w v = .ok { w with wbuf := addBit w v, wcnt := w.wcnt + 1 } := by
  rw [writeBit, if_neg h]

/-- The eighth bit puts the byte on a sink that takes it (R126, R127). -/
theorem writeBit_of_full {w : BW} (h : w.wcnt = 7) (hs : w.snkFail = false) (v : Bool) :
    writeBit w v = .ok { w with sink := w.sink ++ [addBit w v], wbuf := 0, wcnt := 0 } := by
  rw [writeBit, if_pos h, sinkPut, if_neg (by simp [hs])]

/-- The eighth bit is not taken when the sink fails (R126, R127). -/
theorem writeBit_of_failing {w : BW} (h : w.wcnt = 7) (hs : w.snkFail = true) (v : Bool) :
    writeBit w v = .error sinkError := by
  rw [writeBit, if_pos h, sinkPut, if_pos hs]

/-- WBIT with room in the buffer answers 0: SINK has not grown (R128). -/
theorem wbitRule_of_room {s : Block} (h : s.bw.wcnt ≠ 7) (v : Bool) :
    wbitRule v s =
      .ok ({ s with bw := { s.bw with wbuf := addBit s.bw v, wcnt := s.bw.wcnt + 1 } }, okReply 0 0) := by
  rw [wbitRule, writeBit_of_room h]
  simp

/-- WBIT that fills the buffer answers the byte it put (R128). -/
theorem wbitRule_of_full {s : Block} (h : s.bw.wcnt = 7) (hs : s.bw.snkFail = false) (v : Bool) :
    wbitRule v s =
      .ok ({ s with bw := { s.bw with sink := s.bw.sink ++ [addBit s.bw v], wbuf := 0, wcnt := 0 } },
        okReply 1 (zext40 (addBit s.bw v))) := by
  rw [wbitRule, writeBit_of_full h hs]
  simp

/-- Settles O34: the buffer with the bit added, kept or put, is `addBit`'s (`byteBits_addBit`). -/
theorem wbitWritesOneBit : Obligations.WbitWritesOneBit := by
  refine ⟨rfl, rfl, fun v s hw hf => ?_⟩
  have hbuf := byteBits_addBit hw v
  have hpre : s.bw.wClosed = false → precondition s.toBlock (.wbit v) = true := fun ho => by simp [precondition, ho]
  refine ⟨fun ho h7 => ⟨addBit s.bw v, ?_, hbuf⟩, fun ho h7 hs => ⟨addBit s.bw v, ?_, ?_⟩, fun ho h7 hs => ?_,
    fun ho => exec_forbidden hf (by simp [precondition, ho])⟩
  · refine exec_ok_zero hf (hpre ho) ?_
    rw [ruleRun, wbitRule_of_room h7, Block.finish_ok]
  · rw [exec_run hf (hpre ho), ruleRun, wbitRule_of_full h7 hs]
    rfl
  · simpa [h7] using hbuf
  · refine exec_raises_sinkError hf (hpre ho) ?_
    rw [ruleRun, wbitRule, writeBit_of_failing h7 hs]
    rfl

/-! ## WFLUSH -/

/-- Settles O35: the three branches of the rule, behind the control-state check. -/
theorem wflushPadsAndCloses : Obligations.WflushPadsAndCloses := by
  refine ⟨rfl, fun s hf => ?_⟩
  have hpre : s.bw.wClosed = false → precondition s.toBlock .wflush = true := fun ho => by simp [precondition, ho]
  refine ⟨fun ho hs h0 => ?_, fun ho hs h0 => ?_, fun ho hs => ?_,
    fun ho => exec_forbidden hf (by simp [precondition, ho])⟩
  · rw [exec_run hf (hpre ho), ruleRun, wflushRule, if_neg (by simp [hs]), if_neg h0]
    rfl
  · refine exec_ok_zero hf (hpre ho) ?_
    rw [ruleRun, wflushRule, if_neg (by simp [hs]), if_pos h0, Block.finish_ok]
  · refine exec_raises_sinkError hf (hpre ho) ?_
    rw [ruleRun, wflushRule, if_pos hs]
    rfl

/-! ## The environment's commands -/

/-- Settles O36: SNKFAIL requires no control state, the source's three an open source. -/
theorem environmentCommands : Obligations.EnvironmentCommands := by
  refine ⟨rfl, fun _ => rfl, rfl, rfl, fun s hf => ⟨exec_ok_zero hf rfl rfl, fun he => ?_, fun he i hi => ?_⟩⟩
  · have hopen : (!s.br.srcEod) = true := by simp [he]
    exact ⟨fun b => exec_ok_zero hf hopen rfl, exec_ok_zero hf hopen rfl, exec_ok_zero hf hopen rfl⟩
  · have hclosed : (!s.br.srcEod) = false := by simp [he]
    rcases hi with ⟨b, rfl⟩ | rfl | rfl <;> exact exec_forbidden hf hclosed

end Sys2Proof.Machine
end

section
/-! SUPPORT. The bit-stream reader as commands (44_bitstream_reader.md; R147 of 45_tree_walker.md): RBIT and the
walker's step on the bit ahead, and pushed bytes read back to the end of the stream (R141). -/

namespace Sys2Proof.Machine

/-! ## RBIT -/

/-- The response word of a bit read (R73, R139). -/
theorem bitReply_word (v : Bool) :
    (okReply (zext8 v) 0).word = if v then 0x0001000000000000 else 0x0000000000000000 := by cases v <;> decide

/-- The response word of EOS, VALUE 0 (R73, R74). -/
theorem eosReply_zero_word : (eosReply 0).word = 0x0100000000000000 := by decide

/-- The response word of BLOCKED, VALUE 0 (R73, R74). -/
theorem blockedReply_zero_word : (blockedReply 0).word = 0x0200000000000000 := by decide

/-- The response word of IOError(1) (R73, R136). -/
theorem sourceErrorReply_word : (faultReply FaultKind.io.code 1).word = 0x8300000000000001 := by decide

/-- IOError(1) is all that a command does whose rule meets an `Err` token (R136, R186). -/
theorem exec_raises_sourceError {i : Instr} {s : State} (hf : s.flt.code = 0)
    (hp : precondition s.toBlock i = true) (hr : ruleRun i s.toBlock = s.toBlock.raise i.opcode sourceError) :
    exec i s = .next { s with flt := ⟨3, i.opcode, 1⟩, rsps := s.rsps ++ [0x8300000000000001] } := by
  rw [exec_run hf hp, hr, State.respond, Block.raise_reply, sourceError, sourceErrorReply_word]
  rfl

/-- RBIT with a bit ahead answers it (R139). -/
theorem rbitRule_of_ahead {s : Block} {v : Bool} {vs : List Bool} (h : s.br.ahead = v :: vs) :
    ∃ r : BR, r.ahead = vs ∧ s.br.Yields v r ∧ rbitRule s = .ok ({ s with br := r }, okReply (zext8 v) 0) := by
  obtain ⟨r, hnext, hrest, hyields⟩ := nextBit_of_ahead h
  exact ⟨r, hrest, hyields, by rw [rbitRule, hnext]⟩

/-- RBIT with no bit and no token left (R139). -/
theorem rbitRule_of_empty {s : Block} (h0 : s.br.rcnt = 0) (hs : s.br.src = []) :
    rbitRule s = .ok (s, if s.br.srcEod then eosReply 0 else blockedReply 0) := by
  rw [rbitRule, nextBit_empty h0 hs]
  cases s.br.srcEod <;> rfl

/-- Settles O40: NextBit's four results, each by its own lemma. -/
theorem rbitReadsOneBit : Obligations.RbitReadsOneBit := by
  refine ⟨rfl, fun s hf => ⟨fun v vs ha => ?_, fun h0 hs he => ?_, fun h0 hs he => ?_, fun h0 hs => ?_⟩⟩
  · obtain ⟨r, -, hyields, hrule⟩ := rbitRule_of_ahead ha
    refine ⟨r, hyields, ?_⟩
    rw [exec_run hf rfl, ruleRun, hrule, zext8_eq_ite]
    rfl
  · rw [exec_run hf rfl, ruleRun, rbitRule_of_empty h0 hs, if_pos he, Block.finish_ok, State.respond,
      eosReply_zero_word]
  · rw [exec_run hf rfl, ruleRun, rbitRule_of_empty h0 hs, if_neg (by simp [he]), Block.finish_ok, State.respond,
      blockedReply_zero_word]
  · refine exec_raises_sourceError hf rfl ?_
    rw [ruleRun, rbitRule, nextBit_err h0 hs]
    rfl

/-! ## DSTEP -/

/-- The control state DSTEP requires (R188). -/
theorem precondition_dstep {s : Block} : precondition s .dstep = true ↔ s.tw.wstate ≠ .idle := by
  simp [precondition]

/-- Settles O50: the step takes the branch of the bit ahead (`dstepRule_of_ahead`), to an internal node or to a leaf. -/
theorem dstepTakesOneBranch : Obligations.DstepTakesOneBranch := by
  intro s v vs hf hw ha nxt
  obtain ⟨r, -, hyields, hrule⟩ := dstepRule_of_ahead hw ha
  have hpre : precondition s.toBlock .dstep = true := precondition_dstep.2 (by simp [hw])
  refine ⟨fun hk => ⟨r, hyields, ?_⟩, fun hk => ⟨r, hyields, ?_⟩⟩
  · rw [exec_run hf hpre, ruleRun, hrule, takeBranch_internal r hk]
    rfl
  · rw [exec_run hf hpre, ruleRun, hrule, takeBranch_leaf r hk, emitByte, hw]
    rfl

/-! ## Reading back what was pushed -/

/-- A reader with no bit ahead and no `Err` token has nothing left (R136). -/
theorem BR.empty_of_ahead_nil {r : BR} (ha : r.ahead = []) (hs : .err ∉ r.src) : r.rcnt = 0 ∧ r.src = [] := by
  have h0 : r.rcnt = 0 := by
    by_contra hne
    obtain ⟨v, r', -, hbits, -⟩ := yieldBit_ahead hne
    rw [ha] at hbits
    cases hbits
  refine ⟨h0, ?_⟩
  rw [ahead_of_empty h0] at ha
  cases hsrc : r.src with
  | nil => rfl
  | cons t ts =>
    rw [hsrc] at ha hs
    cases t with
    | err => exact absurd List.mem_cons_self hs
    | byte w => simpa [tokenBits] using congrArg List.length ha

/-- NextBit brings no `Err` token into SRC (R136). -/
theorem BR.Yields.err_notMem {r r' : BR} {v : Bool} (h : r.Yields v r') (hs : .err ∉ r.src) : .err ∉ r'.src := by
  by_cases h0 : r.rcnt = 0
  · obtain ⟨-, hsrc⟩ := h.fetched h0
    rw [hsrc] at hs
    exact fun hmem => hs (List.mem_cons_of_mem _ hmem)
  · obtain ⟨hsrc, -⟩ := h.held h0
    rwa [hsrc]

/-- A single command's response. -/
theorem Block.replies_singleton (s : Block) (i : Instr) : s.replies [i] = [(s.answer i).2.word] := rfl

/-- Reading a closed stream without `Err` to one bit past its end answers its bits and then EOS (R141). -/
theorem Block.replies_rbit {vs : List Bool} {s : Block} (hf : s.flt.code = 0) (he : s.br.srcEod = true)
    (hs : .err ∉ s.br.src) (ha : s.br.ahead = vs) : s.replies (List.replicate (vs.length + 1) .rbit) =
      vs.map (fun v => if v then 0x0001000000000000 else 0x0000000000000000) ++ [0x0100000000000000] := by
  induction vs generalizing s with
  | nil =>
    obtain ⟨h0, hsrc⟩ := BR.empty_of_ahead_nil ha hs
    have hrun : s.answer .rbit = (s, eosReply 0) := by
      rw [Block.answer_run hf rfl, ruleRun, rbitRule_of_empty h0 hsrc, if_pos he, Block.finish_ok]
    show s.replies [.rbit] = [_]
    rw [Block.replies_singleton, hrun, eosReply_zero_word]
  | cons v vs ih =>
    obtain ⟨r, hrest, hyields, hrule⟩ := rbitRule_of_ahead ha
    have hrun : s.answer .rbit = ({ s with br := r }, okReply (zext8 v) 0) := by
      rw [Block.answer_run hf rfl, ruleRun, hrule, Block.finish_ok]
    have htail := ih (s := { s with br := r }) hf (hyields.eod.trans he) (hyields.err_notMem hs) hrest
    rw [List.length_cons, List.replicate_succ, Block.replies, hrun, htail, bitReply_word, List.map_cons,
      List.cons_append]

/-- PUSH of each byte answers OK, 0 (R137). -/
theorem Block.replies_push {bs : List Byte} {s : Block} (hf : s.flt.code = 0) (he : s.br.srcEod = false) :
    s.replies (bs.map .push) = List.replicate bs.length 0x0000000000000000 := by
  induction bs generalizing s with
  | nil => rfl
  | cons b bs ih =>
    have hrun : s.answer (.push b) =
        ({ s with br := { s.br with src := s.br.src ++ [.byte b] } }, okReply 0 0) := by
      rw [Block.answer_run hf (by simp [precondition, he])]
      rfl
    have htail := ih (s := (s.answer (.push b)).1) (by rw [hrun]; exact hf) (by rw [hrun]; exact he)
    rw [List.map_cons, Block.replies, htail, hrun, okReply_zero_word, List.length_cons, List.replicate_succ]

/-- EOD answers OK, 0 (R140). -/
theorem Block.replies_eod {s : Block} (hf : s.flt.code = 0) (he : s.br.srcEod = false) :
    s.replies [.eod] = [0x0000000000000000] := by
  rw [Block.replies_singleton, Block.answer_run hf (by simp [precondition, he]), ruleRun, Block.finish_ok,
    okReply_zero_word]

/-- The reader on pushed bytes, closed (R137, R140). -/
def BR.pushed (bytes : List Byte) : BR := { BR.reset with src := bytes.map .byte, srcEod := true }

/-- PUSH of each byte and EOD from reset. -/
theorem Block.after_push_eod (bytes : List Byte) :
    Block.reset.after (bytes.map .push ++ [.eod]) = { Block.reset with br := .pushed bytes } := by
  rw [Block.after_append, Block.after_push rfl rfl, Block.after_cons, Block.answer_eod rfl rfl]
  rfl

/-- PUSH of each byte and EOD from reset answer OK, 0. -/
theorem Block.replies_push_eod (bytes : List Byte) :
    Block.reset.replies (bytes.map .push ++ [.eod]) = List.replicate (bytes.length + 1) 0x0000000000000000 := by
  rw [Block.replies_append, Block.replies_push rfl rfl, Block.after_push rfl rfl, Block.replies_eod rfl rfl,
    List.replicate_succ']

/-- The bits ahead of pushed bytes are theirs (R141). -/
theorem BR.ahead_pushed (bytes : List Byte) : (BR.pushed bytes).ahead = bytes.flatMap byteBits := by
  rw [ahead_of_empty rfl, BR.pushed, tokenBits_bytes]

/-- Settles O41: the bytes and EOD leave a closed reader with their bits ahead, and these are read to the end
(`Block.replies_rbit`). -/
theorem pushedBytesReadBackInOrder : Obligations.PushedBytesReadBackInOrder := by
  intro bytes
  have hlen : 8 * bytes.length = (bytes.flatMap byteBits).length := by simp [List.length_flatMap, Nat.mul_comm]
  have hread := Block.replies_rbit (s := { Block.reset with br := .pushed bytes }) rfl rfl (by simp [BR.pushed])
    (BR.ahead_pushed bytes)
  refine ⟨_, issue_eq .., ?_⟩
  show [] ++ Block.reset.replies _ = _
  rw [List.nil_append, Block.replies_append, Block.replies_push_eod, Block.after_push_eod, hlen, hread,
    List.append_assoc]

end Sys2Proof.Machine
end

section
/-! SUPPORT. The tree walker as commands (45_tree_walker.md): DSTART (R146), the steps of DSTEP that take no branch
(R147, R149, R151, R152), and DEC as DSTEP repeated (R150). -/

namespace Sys2Proof.Machine

/-! ## DSTART -/

/-- The control state DSTART requires (R188). -/
theorem precondition_dstart {s : Block} : precondition s .dstart = true ↔
    s.tb.treeValid = true ∧ s.tw.wstate = .idle := by
  simp [precondition]

/-- Settles O49: the walker is `startWalk`'s, behind the control-state check. -/
theorem dstartStartsTheWalk : Obligations.DstartStartsTheWalk := by
  refine ⟨rfl, fun s hf => ⟨fun hv hi => exec_run hf (precondition_dstart.2 ⟨hv, hi⟩), fun hbad => ?_⟩⟩
  refine exec_forbidden hf (Bool.eq_false_iff.2 fun hp => ?_)
  obtain ⟨hv, hi⟩ := precondition_dstart.1 hp
  rcases hbad with hbad | hbad
  · simp [hv] at hbad
  · exact hbad hi

/-! ## DSTEP without a branch -/

/-- A step of an ended walk (R152). -/
theorem dstepRule_of_done {s : Block} (hw : s.tw.wstate = .done) :
    dstepRule s = .ok (s, doneReply (walkValue s.tw.cur false)) := by
  rw [dstepRule, if_pos hw]

/-- A step with no bit and no token left waits for a token, or after EOD ends the walk short (R147, R151). -/
theorem dstepRule_of_empty {s : Block} (hw : s.tw.wstate = .walk) (h0 : s.br.rcnt = 0) (hs : s.br.src = []) :
    dstepRule s = .ok (if s.br.srcEod
      then ({ s with tw := endShort s.tw s.tb.root }, eosReply (walkValue s.tw.cur false))
      else (s, blockedReply (walkValue s.tw.cur false))) := by
  rw [dstepRule, if_neg (by simp [hw]), nextBit_empty h0 hs]
  cases s.br.srcEod <;> rfl

/-- A step at an `Err` token (R147). -/
theorem dstepRule_of_err {s : Block} (hw : s.tw.wstate = .walk) (h0 : s.br.rcnt = 0)
    (hs : s.br.src.head? = some .err) : dstepRule s = .error sourceError := by
  rw [dstepRule, if_neg (by simp [hw]), nextBit_err h0 hs]

/-- DSTEP runs its rule in an unfaulted block with a walk (R85, R188). -/
theorem exec_dstep {s : State} (hf : s.flt.code = 0) (hw : s.tw.wstate ≠ .idle) :
    exec .dstep s = .next (s.respond (s.finish 0x61 (dstepRule s.toBlock))) :=
  exec_run hf (precondition_dstep.2 hw)

/-- F_INFO of BadPath as VALUE is CUR (R75, R189). -/
theorem zext40_zext32_nodeIdx (i : NodeIdx) : zext40 (zext32 i) = i.setWidth 40 :=
  BitVec.setWidth_setWidth (by decide)

/-- MIDSYM is whether CUR is not the root (R151). -/
theorem endShort_eq (w : TW) (root : NodeIdx) : endShort w root =
    { w with short := true, midsym := decide (w.cur ≠ root), wstate := .done } := by
  rw [endShort, decide_not]
  rfl

/-- Settles O51: each way not to take a branch is an equation of the rule. -/
theorem dstepWithoutABranch : Obligations.DstepWithoutABranch := by
  refine fun s hf => ⟨fun hw => ?_, fun hw v vs ha hk => ?_, fun hw h0 hs he => ?_, fun hw h0 hs he => ?_,
    fun hw h0 hs => ?_⟩
  all_goals have hwalk : s.tw.wstate ≠ .idle := by rw [hw]; decide
  · rw [exec_dstep hf hwalk, dstepRule_of_done hw]
    rfl
  · obtain ⟨r, -, -, hrule⟩ := dstepRule_of_ahead hw ha
    rw [exec_dstep hf hwalk, hrule, takeBranch_dummy r hk, ← zext40_zext32_nodeIdx]
    rfl
  · rw [exec_dstep hf hwalk, dstepRule_of_empty hw h0 hs, if_neg (by simp [he])]
    rfl
  · rw [exec_dstep hf hwalk, dstepRule_of_empty hw h0 hs, if_pos he, endShort_eq]
    rfl
  · refine exec_raises_sourceError hf (precondition_dstep.2 hwalk) ?_
    rw [ruleRun, dstepRule_of_err hw h0 hs]
    rfl

/-! ## DEC -/

/-- DEC runs its loop in an unfaulted block with a walk (R85, R188). -/
theorem exec_dec {s : State} (hf : s.flt.code = 0) (hw : s.tw.wstate ≠ .idle) :
    exec .dec s = .next (s.respond (decRun s.toBlock)) :=
  exec_run hf (precondition_dec.2 hw)

/-- Only a silent response has the word of a silent descent: the word fixes STATUS and VALUE (R73, R150). -/
theorem Reply.silent_of_word {r : Reply} {cur : NodeIdx} (h : r.word = (okReply 0 (walkValue cur false)).word) :
    r.silent = true := by
  have hstatus : r.status = 0x00 := by rw [← r.word_status, h, Reply.word_status]; rfl
  have hvalue : r.value = walkValue cur false := by rw [← r.word_value, h, Reply.word_value]; rfl
  have hdescent : (okReply r.aux (walkValue cur false)).silent = true := okReply_silent ..
  rwa [← hvalue, okReply, ← hstatus] at hdescent

/-- A fault's response is not silent: its STATUS is 0x80 plus the code (R74). -/
theorem faultReply_silent (k : FaultKind) (info : CountWord) : (faultReply k.code info).silent = false := by
  cases k <;> rfl

/-- A walker step leaves the fault registers (R147). -/
theorem dstepRule_flt {s t : Block} {r : Reply} (h : dstepRule s = .ok (t, r)) : t.flt = s.flt := by
  rcases dstepRule_ok h with ⟨-, rfl, -⟩ | ⟨-, -, rfl, -⟩ | ⟨-, -, rfl, -⟩ | ⟨-, v, b, -, hb⟩
  · rfl
  · rfl
  · rfl
  · rcases takeBranch_ok hb with ⟨-, rfl, -⟩ | ⟨-, rfl, -⟩ <;> rfl

/-- DEC after a silent step is DEC from there: that step leaves the walk and the fault registers (R150). -/
theorem exec_dec_of_silent {s : State} {t : Block} {r : Reply} (hf : s.flt.code = 0) (hw : s.tw.wstate ≠ .idle)
    (h : dstepRule s.toBlock = .ok (t, r)) (hr : r.silent = true) :
    exec .dec s = exec .dec { s with toBlock := t } := by
  have hft : t.flt.code = 0 := by rw [dstepRule_flt h, hf]
  have hwt : t.tw.wstate ≠ .idle := by
    obtain ⟨-, v, b, -, rfl, -⟩ := dstepRule_silent h hr
    exact hw
  rw [exec_dec hf hw, decRun_silent h hr, exec_dec hft hwt]
  rfl

/-- A walker step ended under the OP of DEC differs from one ended under DSTEP's in F_CMD alone, and only when it
faults (R150, R186). -/
theorem finish_dstepRule_dec {s : Block} (hf : s.flt.code = 0) {t : Block} {r : Reply}
    (h : s.finish 0x61 (dstepRule s) = (t, r)) : s.finish 0x62 (dstepRule s) =
      ({ t with flt := { t.flt with cmd := if t.flt.code = 0 then t.flt.cmd else 0x62 } }, r) := by
  cases hrule : dstepRule s with
  | ok a =>
    rw [hrule, Block.finish_ok] at h
    subst h
    rw [Block.finish_ok, if_pos (by rw [dstepRule_flt hrule, hf])]
  | error f =>
    rw [hrule, Block.finish_error] at h
    cases h
    simp [Block.raise, FaultKind.code_ne_zero]

/-- Settles O52: the response tells a silent step (`Reply.silent_of_word`), from which DEC goes on (`decRun_silent`);
any other step is DEC's last (`decRun_loud`). -/
theorem decRepeatsDstep : Obligations.DecRepeatsDstep := by
  refine ⟨rfl, fun s hf => ⟨fun hw u hu => ?_, fun hi => exec_forbidden hf (by simp [precondition, hi])⟩⟩
  rw [exec_dstep hf hw] at hu
  cases hu
  refine ⟨fun cur hword => ?_, fun hword => ?_⟩
  · have hsilent := Reply.silent_of_word (List.singleton_inj.1 (List.append_cancel_left hword))
    cases hrule : dstepRule s.toBlock with
    | ok a =>
      rw [hrule] at hsilent
      exact exec_dec_of_silent hf hw hrule hsilent
    | error f =>
      rw [hrule, Block.finish_error, Block.raise_reply, faultReply_silent] at hsilent
      cases hsilent
  · have hloud : ∀ t r, dstepRule s.toBlock = .ok (t, r) → r.silent = false := by
      intro t r hrule
      by_contra hr
      obtain ⟨-, v, b, -, -, -, -, hreply⟩ := dstepRule_silent hrule (by simpa using hr)
      refine hword t.tw.cur ?_
      rw [hrule, Block.finish_ok, State.respond_rsps, hreply]
      rfl
    rw [exec_dec hf hw, decRun_loud hloud, finish_dstepRule_dec hf rfl]
    rfl

end Sys2Proof.Machine
end

section
/-! SUPPORT. The header and the encoder as commands (46_filecodec.md): the transitions of the header parser (R158,
R159), the canonical header line (R160, R161), its round trip (R162), and ENC's faults (R156, R191). -/

namespace Sys2Proof.Machine

/-! ## Round trip -/

/-- HDRSER is allowed while the writer is open and has taken nothing (R161, R188). -/
theorem precondition_hdrser {s : Block} : precondition s .hdrser = true ↔
    s.bw.wClosed = false ∧ s.bw.wcnt = 0 ∧ s.bw.sink = [] := by
  simp [precondition, and_assoc]

/-- HDRSER without a fault met a fresh writer and left the header text in SINK (R161). -/
theorem sink_of_hdrser {s t : State} (hf : s.flt.code = 0) (h : exec .hdrser s = .next t) (ht : t.flt.code = 0) :
    t.bw.sink = headerText s.fc := by
  cases hp : precondition s.toBlock .hdrser with
  | false =>
    rw [exec_forbidden hf hp] at h
    cases h
    cases ht
  | true =>
    obtain ⟨-, -, hempty⟩ := precondition_hdrser.1 hp
    rw [exec_run hf hp, ruleRun] at h
    cases h
    rcases Block.finish_cases (s := s.toBlock) (op := 0x19) (e := hdrserRule s.toBlock) with
      ⟨u, r, hrule, hfin⟩ | ⟨e, -, hfin⟩
    · obtain ⟨-, rfl⟩ := hdrserRule_ok hrule
      rw [hfin]
      simp [hempty]
    · rw [hfin] at ht
      exact absurd ht (FaultKind.code_ne_zero _)

/-- Settles O33: SINK holds the header text (`sink_of_hdrser`), and a fresh block that reads it ends with the table it
was written from (`Block.after_hdrb_headerText`). -/
theorem headerRoundTrip : Obligations.HeaderRoundTrip := by
  intro a t hok hf _ hexec ht
  obtain ⟨h, hdone, hafter⟩ := Block.after_hdrb_headerText hok
  refine ⟨_, issue_eq .., ?_⟩
  rw [sink_of_hdrser hf hexec ht]
  dsimp only [State.reset]
  rw [hafter]
  exact ⟨hdone, rfl, fun _ => rfl, rfl, rfl⟩

/-! ## The parser's transitions -/

section Transitions
variable {c : Byte} {f : FC} {h : HC}

/-- A digit at the start of the line or of a pair begins the byte value (R158). -/
theorem parseByte_firstDigit (hs : h.hstate = .line0 ∨ h.hstate = .pair) (hd : isDigit c = true) :
    parseByte c f h = .ok (f, { h with hb := BitVec.ofNat 8 (digitVal c), hstate := .bdig }) := by
  rcases hs with hs | hs <;> simp only [parseByte, hs, if_pos hd]

/-- The terminator alone is the empty header (R157, R158). -/
theorem parseByte_emptyLine (hs : h.hstate = .line0) :
    parseByte Config.lineTerm f h = .ok (f, { h with hstate := .done }) := by
  simp only [parseByte, hs]
  rfl

/-- A digit that keeps the byte value in range extends it (R158). -/
theorem parseByte_keyDigit (hs : h.hstate = .bdig) (hd : isDigit c = true)
    (hle : h.hb.toNat * 10 + digitVal c ≤ 255) :
    parseByte c f h = .ok (f, { h with hb := BitVec.ofNat 8 (h.hb.toNat * 10 + digitVal c) }) := by
  simp only [parseByte, hs, if_pos hd, Config.byteMax, if_pos hle]

/-- The colon ends the byte value (R158). -/
theorem parseByte_colon (hs : h.hstate = .bdig) :
    parseByte Config.colon f h = .ok (f, { h with hn := 0, hstate := .cstart }) := by
  simp only [parseByte, hs]
  rfl

/-- A digit after the colon begins the count (R158). -/
theorem parseByte_firstCountDigit (hs : h.hstate = .cstart) (hd : isDigit c = true) :
    parseByte c f h = .ok (f, { h with hn := BitVec.ofNat 32 (digitVal c), hstate := .cdig }) := by
  simp only [parseByte, hs, if_pos hd]

/-- A digit that keeps the count in range extends it (R158). -/
theorem parseByte_countDigit (hs : h.hstate = .cdig) (hd : isDigit c = true)
    (hle : h.hn.toNat * 10 + digitVal c ≤ 4294967295) :
    parseByte c f h = .ok (f, { h with hn := BitVec.ofNat 32 (h.hn.toNat * 10 + digitVal c) }) := by
  simp only [parseByte, hs, if_pos hd, Config.countMax, if_pos hle]

/-- A comma or the terminator ends a pair, which is entered (R158). -/
theorem parseByte_endOfPair (hs : h.hstate = .cdig) (hc : c = 0x2C ∨ c = 0x0A) :
    parseByte c f h = commitPair f h (if c = 0x2C then .pair else .done) := by
  rcases hc with rfl | rfl <;> (simp only [parseByte, hs]; rfl)

/-- After a comma and after a colon only a digit is text (R159). -/
theorem parseByte_digitExpected (hs : h.hstate = .pair ∨ h.hstate = .cstart) (hd : ¬ isDigit c = true) :
    parseByte c f h = .error (badText c) := by
  rcases hs with hs | hs <;> simp only [parseByte, hs, if_neg hd]

/-- At the start of the line only a digit or the terminator is text (R159). -/
theorem parseByte_badStart (hs : h.hstate = .line0) (hd : ¬ isDigit c = true) (ht : c ≠ 0x0A) :
    parseByte c f h = .error (badText c) := by
  simp only [parseByte, hs, if_neg hd, Config.lineTerm, if_neg ht]

/-- Inside a byte value only a digit or the colon is text (R159). -/
theorem parseByte_badInKey (hs : h.hstate = .bdig) (hd : ¬ isDigit c = true) (hc : c ≠ 0x3A) :
    parseByte c f h = .error (badText c) := by
  simp only [parseByte, hs, if_neg hd, Config.colon, if_neg hc]

/-- A byte value above 255 is rejected (R157). -/
theorem parseByte_keyTooLarge (hs : h.hstate = .bdig) (hd : isDigit c = true)
    (hlt : 255 < h.hb.toNat * 10 + digitVal c) : parseByte c f h = .error (badText c) := by
  simp only [parseByte, hs, if_pos hd, Config.byteMax, if_neg (Nat.not_le.2 hlt)]

/-- Inside a count only a digit, the comma or the terminator is text (R159). -/
theorem parseByte_badInCount (hs : h.hstate = .cdig) (hd : ¬ isDigit c = true) (hc : c ≠ 0x2C) (ht : c ≠ 0x0A) :
    parseByte c f h = .error (badText c) := by
  simp only [parseByte, hs, if_neg hd, Config.comma, if_neg hc, Config.lineTerm, if_neg ht]

/-- A count above 2^32 - 1 is rejected (R157). -/
theorem parseByte_countTooLarge (hs : h.hstate = .cdig) (hd : isDigit c = true)
    (hlt : 4294967295 < h.hn.toNat * 10 + digitVal c) : parseByte c f h = .error (badText c) := by
  simp only [parseByte, hs, if_pos hd, Config.countMax, if_neg (Nat.not_le.2 hlt)]

/-- A completed pair with a new key is entered (R91, R158). -/
theorem commitPair_of_absent (ha : (f.entry h.hb).pres = false) (next : HState) :
    commitPair f h next = .ok (enterPair f h.hb h.hn, { h with hstate := next }) := by
  rw [commitPair, commit_of_absent ha]

/-- A completed pair with a repeated key is rejected (R91, R158). -/
theorem commitPair_of_present (hp : (f.entry h.hb).pres = true) (next : HState) :
    commitPair f h next = .error ⟨.malformedHeader, zext32 h.hb⟩ := by
  rw [commitPair, commit_of_present hp]

/-- A complete header takes no further text byte (R158). -/
theorem hstate_ne_done_of_parseByte {p : FC × HC} (hp : parseByte c f h = .ok p) : h.hstate ≠ .done := by
  intro hs
  simp only [parseByte, hs] at hp
  cases hp

end Transitions

/-! ## HDRB -/

/-- HDRB is allowed before BUILD while the header is not complete (R158, R188). -/
theorem precondition_hdrb {s : Block} {c : Byte} (hv : s.tb.treeValid = false) (hs : s.hc.hstate ≠ .done) :
    precondition s (.hdrb c) = true := by simp [precondition, hv, hs]

/-- HDRB of a byte the parser accepts: the table and the parser change, and AUX says whether the header is complete
(R158). -/
theorem exec_hdrb_accepts {s : State} {c aux : Byte} {f : FC} {h : HC} (hf : s.flt.code = 0)
    (hv : s.tb.treeValid = false) (hp : parseByte c s.fc s.hc = .ok (f, h))
    (haux : aux = zext8 (h.hstate == .done)) :
    exec (.hdrb c) s = .next { s with
      fc := f, hc := h, rsps := s.rsps ++ [(Reply.mk 0x00 aux 0).word] } := by
  rw [exec_run hf (precondition_hdrb hv (hstate_ne_done_of_parseByte hp)), ruleRun, hdrbRule, hp, haux]
  rfl

/-- HDRB of a byte the parser rejects: MalformedHeaderError with its F_INFO, and nothing else (R158). -/
theorem exec_hdrb_rejects {s : State} {c info : Byte} (hf : s.flt.code = 0) (hv : s.tb.treeValid = false)
    (hs : s.hc.hstate ≠ .done) (hp : parseByte c s.fc s.hc = .error ⟨.malformedHeader, zext32 info⟩) :
    exec (.hdrb c) s = .next { s with
      flt := ⟨2, 0x18, info.setWidth 32⟩, rsps := s.rsps ++ [(Reply.mk 0x82 0 (info.setWidth 40)).word] } := by
  refine exec_raises_byte (k := .malformedHeader) hf (precondition_hdrb hv hs) ?_
  rw [ruleRun, hdrbRule, hp]
  rfl

/-- Settles O30: the parser's accepting transitions (`parseByte_…`), one for each cell of R159's table, and the pair
entered by `enterPair`. -/
theorem headerParserAccepts : Obligations.HeaderParserAccepts := by
  intro s c hf hv d digit goesTo
  refine ⟨fun hs hd => ?_, fun hs hc => ?_, fun hs hd hle => ?_, fun hs hc => ?_, fun hs hd => ?_, fun hs hd hle => ?_,
    fun hs hc ha => ⟨enterPair s.fc s.hc.hb s.hc.hn, ?_, ?_, fun b hne => ?_, rfl, rfl⟩⟩
  · exact exec_hdrb_accepts hf hv (parseByte_firstDigit hs (isDigit_iff.2 hd)) rfl
  · subst hc
    exact exec_hdrb_accepts hf hv (parseByte_emptyLine hs) rfl
  · exact exec_hdrb_accepts hf hv (parseByte_keyDigit hs (isDigit_iff.2 hd) hle) (by rw [hs]; rfl)
  · subst hc
    exact exec_hdrb_accepts hf hv (parseByte_colon hs) rfl
  · exact exec_hdrb_accepts hf hv (parseByte_firstCountDigit hs (isDigit_iff.2 hd)) rfl
  · exact exec_hdrb_accepts hf hv (parseByte_countDigit hs (isDigit_iff.2 hd) hle) (by rw [hs]; rfl)
  · refine exec_hdrb_accepts hf hv ((parseByte_endOfPair hs hc).trans (commitPair_of_absent ha _)) ?_
    split <;> rfl
  · rw [entry_enterPair, if_pos rfl]
  · rw [entry_enterPair, if_neg hne]

/-- Settles O31: the parser's rejecting transitions, one for each `-` of R159's table, and the repeated key. -/
theorem headerParserRejects : Obligations.HeaderParserRejects := by
  intro s c hf hv d digit malformed
  have nondigit (hd : ¬ digit) : ¬ isDigit c = true := mt isDigit_iff.1 hd
  refine ⟨fun hs hd ht => ?_, fun hs hd => ?_, fun hs hd hc => ?_, fun hs hd hlt => ?_, fun hs hd hc ht => ?_,
    fun hs hd hlt => ?_, fun hs hc hp => ?_⟩
  · exact exec_hdrb_rejects hf hv (by simp [hs]) (parseByte_badStart hs (nondigit hd) ht)
  · have hp := parseByte_digitExpected (f := s.fc) hs (nondigit hd)
    rcases hs with hs | hs <;> exact exec_hdrb_rejects hf hv (by simp [hs]) hp
  · exact exec_hdrb_rejects hf hv (by simp [hs]) (parseByte_badInKey hs (nondigit hd) hc)
  · exact exec_hdrb_rejects hf hv (by simp [hs]) (parseByte_keyTooLarge hs (isDigit_iff.2 hd) hlt)
  · exact exec_hdrb_rejects hf hv (by simp [hs]) (parseByte_badInCount hs (nondigit hd) hc ht)
  · exact exec_hdrb_rejects hf hv (by simp [hs]) (parseByte_countTooLarge hs (isDigit_iff.2 hd) hlt)
  · exact exec_hdrb_rejects hf hv (by simp [hs]) ((parseByte_endOfPair hs hc).trans (commitPair_of_present hp _))

/-! ## The header line -/

/-- `Dec` of a number of at most 32 bits is its base-ten numeral (R160). -/
theorem decText_eq_toDigits {v : Nat} (h : v < 2 ^ 32) :
    decText v = (Nat.toDigits 10 v).map fun ch => BitVec.ofNat 8 ch.toNat :=
  decDigits_eq_toDigits (by omega)

/-- The texts of the keys among the byte values `ks` of a table with the entries `g` (R161). -/
def keyTexts (g : Nat → FreqEntry) (ks : List Nat) : List (List Byte) :=
  (ks.filter fun k => (g k).pres).map fun k => pairText k (g k).freq

theorem keyTexts_cons_of_pres {g : Nat → FreqEntry} {k : Nat} (h : (g k).pres = true) (ks : List Nat) :
    keyTexts g (k :: ks) = pairText k (g k).freq :: keyTexts g ks := by
  rw [keyTexts, List.filter_cons_of_pos (p := fun k => (g k).pres) h, List.map_cons, keyTexts]

theorem keyTexts_cons_of_absent {g : Nat → FreqEntry} {k : Nat} (h : ¬ (g k).pres = true) (ks : List Nat) :
    keyTexts g (k :: ks) = keyTexts g ks := by
  rw [keyTexts, List.filter_cons_of_neg (p := fun k => (g k).pres) h, keyTexts]

/-- After a first text, each pair stands behind a comma (R161). -/
theorem append_pairsText (g : Nat → FreqEntry) (x : List Byte) (n b : Nat) :
    x ++ pairsText ((List.range' b n).map g) b false =
      List.intercalate [Config.comma] (x :: keyTexts g (List.range' b n)) := by
  induction n generalizing x b with
  | zero => simp [pairsText, keyTexts]
  | succ n ih =>
    rw [List.range'_succ, List.map_cons, pairsText]
    split
    · next hp =>
      rw [keyTexts_cons_of_pres hp, List.intercalate_cons_cons, ← ih]
      simp
    · next hp => rw [keyTexts_cons_of_absent hp, ih]

/-- The pairs of a table are the keys' texts with commas between (R161). -/
theorem pairsText_eq_intercalate (g : Nat → FreqEntry) (n b : Nat) :
    pairsText ((List.range' b n).map g) b true =
      List.intercalate [Config.comma] (keyTexts g (List.range' b n)) := by
  induction n generalizing b with
  | zero => rfl
  | succ n ih =>
    rw [List.range'_succ, List.map_cons, pairsText]
    split
    · next hp => rw [keyTexts_cons_of_pres hp, ← append_pairsText, if_pos rfl, List.nil_append]
    · next hp => rw [keyTexts_cons_of_absent hp, ih]

/-- The entries of a table, read by byte value. -/
theorem FC.toList_table (f : FC) : f.table.toList = (List.range 256).map fun k => f.entry (BitVec.ofNat 8 k) := by
  refine List.ext_getElem (by simp) fun k hk _ => ?_
  have hk' : k % 256 = k := Nat.mod_eq_of_lt (by simpa using hk)
  simp [FC.entry, hk']

/-- The header line is the keys' texts with commas between, and the terminator (R161). -/
theorem headerText_eq_intercalate (f : FC) : headerText f =
    List.intercalate [Config.comma] (keyTexts (fun k => f.entry (BitVec.ofNat 8 k)) (List.range 256)) ++
      [Config.lineTerm] := by
  rw [headerText, f.toList_table, List.range_eq_range', pairsText_eq_intercalate]

/-- The text of a key and its count is their base-ten numerals with a colon between (R160, R161). -/
theorem pairText_eq_toDigits {b : Nat} (hb : b < 256) (n : CountWord) : pairText b n =
    (Nat.toDigits 10 b).map (fun ch => BitVec.ofNat 8 ch.toNat) ++ [0x3A] ++
      (Nat.toDigits 10 n.toNat).map fun ch => BitVec.ofNat 8 ch.toNat := by
  rw [pairText, decText_eq_toDigits (by omega), decText_eq_toDigits n.isLt, List.append_assoc]
  rfl

/-- Settles O32: on a fresh writer HDRSER writes the header text, which is the line the rule describes
(`headerText_eq_intercalate`, `pairText_eq_toDigits`). -/
theorem hdrserWritesTheHeaderLine : Obligations.HdrserWritesTheHeaderLine := by
  refine ⟨rfl, ?_⟩
  intro s hf dec keys text fresh
  have htext : headerText s.fc = text := by
    rw [headerText_eq_intercalate, keyTexts]
    congr 2
    refine List.map_congr_left fun b hb => pairText_eq_toDigits ?_ _
    exact List.mem_range.1 (List.mem_of_mem_filter hb)
  refine ⟨fun hfresh hs => ?_, fun hfresh hs => ?_, fun hused => ?_⟩
  · have hempty : s.bw.sink = [] := by
      obtain ⟨-, -, hempty⟩ := hfresh
      exact hempty
    rw [exec_run hf (precondition_hdrser.2 hfresh), ruleRun, hdrserRule, if_neg (by simp [hs]), hempty, htext]
    rfl
  · refine exec_raises_sinkError hf (precondition_hdrser.2 hfresh) ?_
    rw [ruleRun, hdrserRule, if_pos hs]
    rfl
  · exact exec_forbidden hf (Bool.eq_false_iff.2 (mt precondition_hdrser.1 hused))

/-! ## ENC's faults -/

/-- Settles O39: ENC looks for the code first, then for room at the sink, both before it writes a bit. -/
theorem encFaults : Obligations.EncFaults := by
  intro b s hf hc ho
  have hpre : precondition s.toBlock (.enc b) = true := by simp [precondition, hc, ho]
  refine ⟨fun hv => ?_, fun hv hput hs => ?_⟩
  · refine exec_raises_byte (k := .encoding) hf hpre ?_
    rw [ruleRun, encRule, if_pos (by simp [hv])]
    rfl
  · refine exec_raises_sinkError hf hpre ?_
    rw [ruleRun, encRule, if_neg (by simp [hv]), if_pos ⟨hput, hs⟩]
    rfl

end Sys2Proof.Machine
end

section
/-! SUPPORT. The control commands (47_control.md R170 to R173), and the faults of all commands (60_exceptions.md):
a faulted block's twelve commands (R190), ProtocolError by control state (R188), and faults that change nothing but the
fault registers (R186, R192). -/

namespace Sys2Proof.Machine

/-! ## NOP, RDFAULT, RESET -/

/-- Settles O19: both commands are among the twelve of R174 and require no control state. -/
theorem controlReadsAnswer : Obligations.ControlReadsAnswer := by
  refine ⟨rfl, rfl, fun s => ⟨?_, exec_of_checks (.inr rfl) rfl⟩⟩
  rw [exec_of_checks (.inr rfl) rfl, ruleRun, Block.finish_ok, State.respond, okReply_zero_word]

/-- Settles O21: RESET is among the twelve of R174 and requires no control state. -/
theorem resetRestoresTheResetState : Obligations.ResetRestoresTheResetState := by
  refine ⟨rfl, fun s => ?_⟩
  rw [exec_of_checks (.inr rfl) rfl, ruleRun, resetRule, Block.finish_ok, State.respond, okReply_zero_word]

/-! ## STATUS

The view is its fields appended, the eight flags last (R44): reading one field takes off those below it. -/

section AppendedBit
variable {n : Nat} (x : BitVec n) (v : Bool)

theorem getLsbD_append_bit1_zero : (x ++ bit1 v).getLsbD 0 = v := by
  rw [BitVec.getLsbD_append, bit1]
  simp

theorem getLsbD_append_bit1_succ (k : Nat) : (x ++ bit1 v).getLsbD (k + 1) = x.getLsbD k := by
  rw [BitVec.getLsbD_append]
  simp

theorem extractLsb'_append_bit1_succ (k w : Nat) : (x ++ bit1 v).extractLsb' (k + 1) w = x.extractLsb' k w :=
  BitVec.extractLsb'_append_eq_of_le (Nat.le_add_left ..)

end AppendedBit

section StatusView
variable (s : Block)

/-- Bits 0 to 7 of the view (R44). -/
theorem Block.statusView_flags : s.statusView.getLsbD 0 = s.tb.treeValid ∧ s.statusView.getLsbD 1 = s.ct.codeValid ∧
    s.statusView.getLsbD 2 = s.bw.wClosed ∧ s.statusView.getLsbD 3 = s.br.srcEod ∧
    s.statusView.getLsbD 4 = s.bw.snkFail ∧ s.statusView.getLsbD 5 = s.tw.short ∧
    s.statusView.getLsbD 6 = s.tw.midsym ∧ s.statusView.getLsbD 7 = s.faulted := by
  simp only [statusView, getLsbD_append_bit1_succ, getLsbD_append_bit1_zero, and_self]

theorem Block.statusView_wstate : s.statusView.extractLsb' 8 2 = s.tw.wstate.code := by
  simp only [statusView, extractLsb'_append_bit1_succ]
  rw [BitVec.extractLsb'_append_eq_of_add_le (by decide)]
  exact BitVec.extractLsb'_eq_self

theorem Block.statusView_hstate : s.statusView.extractLsb' 10 3 = s.hc.hstate.code := by
  simp only [statusView, extractLsb'_append_bit1_succ]
  repeat rw [BitVec.extractLsb'_append_eq_of_le (by decide)]
  rw [BitVec.extractLsb'_append_eq_of_add_le (by decide)]
  exact BitVec.extractLsb'_eq_self

theorem Block.statusView_wcnt : s.statusView.extractLsb' 13 3 = s.bw.wcnt := by
  simp only [statusView, extractLsb'_append_bit1_succ]
  repeat rw [BitVec.extractLsb'_append_eq_of_le (by decide)]
  rw [BitVec.extractLsb'_append_eq_of_add_le (by decide)]
  exact BitVec.extractLsb'_eq_self

theorem Block.statusView_rcnt : s.statusView.extractLsb' 16 4 = BitVec.ofNat 4 s.br.rcnt.val := by
  simp only [statusView, extractLsb'_append_bit1_succ]
  repeat rw [BitVec.extractLsb'_append_eq_of_le (by decide)]
  rw [BitVec.extractLsb'_append_eq_of_add_le (by decide)]
  exact BitVec.extractLsb'_eq_self

theorem Block.statusView_top : s.statusView.extractLsb' 20 20 = 0 := by
  simp only [statusView, extractLsb'_append_bit1_succ]
  repeat rw [BitVec.extractLsb'_append_eq_of_le (by decide)]
  exact BitVec.extractLsb'_eq_self

end StatusView

/-- Settles O20: STATUS is among the twelve of R174 and answers `Block.statusView`, read field by field. -/
theorem statusViewFields : Obligations.StatusViewFields := by
  refine ⟨rfl, fun s => ?_⟩
  obtain ⟨htree, hcode, hclosed, heod, hfail, hshort, hmidsym, hfaulted⟩ := s.statusView_flags
  refine ⟨s.statusView, exec_of_checks (.inr rfl) rfl, htree, hcode, hclosed, heod, hfail, hshort, hmidsym, ?_, ?_, ?_,
    s.statusView_wcnt, ?_, s.statusView_top⟩
  · rw [hfaulted, Block.faulted, decide_not]
    rfl
  · rw [Block.statusView_wstate]
    cases s.tw.wstate <;> rfl
  · rw [Block.statusView_hstate]
    cases s.hc.hstate <;> rfl
  · rw [Block.statusView_rcnt, BitVec.toNat_ofNat]
    omega

/-! ## A faulted block -/

/-- The OPs of the twelve commands of R174. -/
theorem whenFaulted_iff (i : Instr) : whenFaulted i = true ↔
    i.opcode ∈ [0x00#8, 0x01#8, 0x02#8, 0x03#8, 0x12#8, 0x13#8, 0x14#8, 0x21#8, 0x22#8, 0x23#8, 0x31#8, 0x32#8] := by
  cases i <;> simp [whenFaulted, Instr.opcode]

/-- The twelve commands require no control state and answer OK (R174). -/
theorem ruleRun_of_whenFaulted {i : Instr} (hw : whenFaulted i = true) (s : Block) :
    precondition s i = true ∧ (ruleRun i s).2.status = 0x00 := by
  cases i with
  | nop | reset | status | rdfault | rdf | rdnsym | rdtot | rdnode | rdnfrq | rdroot | rdclen | rdcbit =>
    exact ⟨rfl, rfl⟩
  | _ => cases hw

/-- Settles O11: an illegal word and a command that is not one of the twelve are refused; one of the twelve runs its
rule. -/
theorem faultedBlockRefuses : Obligations.FaultedBlockRefuses := by
  intro s w rest hc hcmds twelve accepted
  have hf : s.faulted = true := Block.faulted_eq_true.2 hc
  have accepted_of_decode {i : Instr} (hd : decode w = .ok i) : accepted ↔ whenFaulted i = true := by
    rw [whenFaulted_iff, ← fieldOp_encode, encode_of_decode hd]
    exact and_iff_left ((decode_accepts_iff w).1 ⟨i, hd⟩)
  refine ⟨fun hna => ?_, fun ha => ?_⟩
  · cases hl : (rawOf w).legal with
    | false =>
      rw [step_eq_answerWord hcmds, Block.answerWord_of_illegal hl, Block.illegal_of_faulted hf]
      rfl
    | true =>
      obtain ⟨i, hd⟩ := (decode_accepts_iff w).2 hl
      rw [step_cons hcmds, runWord_of_decode hd]
      exact exec_refused hf (Bool.eq_false_iff.2 (mt (accepted_of_decode hd).2 hna))
  · have ⟨_, hl⟩ := ha
    obtain ⟨i, hd⟩ := (decode_accepts_iff w).2 hl
    have hw : whenFaulted i = true := (accepted_of_decode hd).1 ha
    obtain ⟨hp, hok⟩ := ruleRun_of_whenFaulted hw s.toBlock
    have hstep : step s = .next (({ s with cmds := rest } : State).respond (ruleRun i s.toBlock)) := by
      rw [step_cons hcmds, runWord_of_decode hd]
      exact exec_of_checks (.inr hw) hp
    exact ⟨i, _, _, hd, hstep, List.getLast?_concat, hok⟩

/-! ## The faults a command's own rule raises -/

/-- A completed pair is rejected only for a repeated key (R91, R158). -/
theorem commitPair_error {f : FC} {h : HC} {next : HState} {e : Raised} (hp : commitPair f h next = .error e) :
    e.kind = .malformedHeader := by
  unfold commitPair at hp
  split at hp
  · cases hp
  · next hc => cases hp; rw [(commit_error hc).2]

/-- The header parser's one fault (R158, R182). -/
theorem parseByte_error {c : Byte} {f : FC} {h : HC} {e : Raised} (hp : parseByte c f h = .error e) :
    e.kind = .malformedHeader := by
  unfold parseByte at hp
  repeat' split at hp
  all_goals first | exact commitPair_error hp | (cases hp <;> rfl)

/-- The writer's one fault: the sink (R126, R127). -/
theorem writeBit_error {w : BW} {v : Bool} {e : Raised} (h : writeBit w v = .error e) : e = sinkError := by
  by_cases h7 : w.wcnt = 7
  · cases hs : w.snkFail with
    | true => rw [writeBit_of_failing h7 hs] at h; cases h; rfl
    | false => rw [writeBit_of_full h7 hs] at h; cases h
  · rw [writeBit_of_room h7] at h; cases h

theorem writeBits_error {w : BW} {vs : List Bool} {e : Raised} (h : writeBits w vs = .error e) : e = sinkError := by
  induction vs generalizing w with
  | nil => cases h
  | cons v vs ih =>
    unfold writeBits at h
    split at h
    · exact ih h
    · next hv => cases h; exact writeBit_error hv

/-- A rule's own end: no fault is recorded, or it raises one that is not ProtocolError, which is the control-state
check's (R188, R191). -/
def Effect.OwnFault : Effect → Prop
  | .ok a => a.1.flt.code = 0
  | .error f => f.kind ≠ .protocol

@[simp] theorem Effect.ownFault_ok (a : Answer) : Effect.OwnFault (.ok a) ↔ a.1.flt.code = 0 := .rfl
@[simp] theorem Effect.ownFault_error (f : Raised) : Effect.OwnFault (.error f) ↔ f.kind ≠ .protocol := .rfl

section Rules
variable {s : Block} (hs : s.flt.code = 0)
include hs

theorem cntRule_ownFault (b : Byte) : (cntRule b s).OwnFault := by unfold cntRule; split <;> simp [hs]
theorem hdrserRule_ownFault : (hdrserRule s).OwnFault := by unfold hdrserRule; split <;> simp [hs, sinkError]
theorem buildRule_ownFault : (buildRule s).OwnFault := by unfold buildRule; split <;> simp [hs]
theorem rbitRule_ownFault : (rbitRule s).OwnFault := by unfold rbitRule; split <;> simp [hs, sourceError]

theorem loadfRule_ownFault (b : Byte) (n : CountWord) : (loadfRule b n s).OwnFault := by
  unfold loadfRule
  split
  · exact hs
  · next hc => simp [(commit_error hc).2]

theorem hdrbRule_ownFault (c : Byte) : (hdrbRule c s).OwnFault := by
  unfold hdrbRule
  split
  · exact hs
  · next hp => simp [parseByte_error hp]

theorem wbitRule_ownFault (v : Bool) : (wbitRule v s).OwnFault := by
  unfold wbitRule
  split
  · next hw => simp [writeBit_error hw, sinkError]
  · exact hs

theorem wflushRule_ownFault : (wflushRule s).OwnFault := by
  unfold wflushRule
  split
  · simp [sinkError]
  · split <;> exact hs

theorem encRule_ownFault (b : Byte) : (encRule b s).OwnFault := by
  unfold encRule
  dsimp only
  split
  · simp
  · split
    · simp [sinkError]
    · split
      · exact hs
      · next hw => simp [writeBits_error hw, sinkError]

theorem dstepRule_ownFault : (dstepRule s).OwnFault := by
  cases hrule : dstepRule s with
  | ok a => exact (congrArg FaultRegs.code (dstepRule_flt hrule)).trans hs
  | error f =>
    unfold dstepRule at hrule
    split at hrule
    · cases hrule
    · split at hrule
      · cases hrule
      · cases hrule; simp [sourceError]
      · cases hrule
      · simp [(takeBranch_error hrule).2]

/-- A command whose checks have passed ends as its own rule does, from the block it found or, for DEC, from the block
after the silent descents (R12, R150, R186). -/
theorem ruleRun_eq_finish (i : Instr) : ∃ (p : Block) (e : Effect), e.OwnFault ∧ (i ≠ .dec → p = s) ∧
    ruleRun i s = p.finish i.opcode e := by
  cases i with
  | cnt b => exact ⟨s, _, cntRule_ownFault hs b, fun _ => rfl, rfl⟩
  | loadf b n => exact ⟨s, _, loadfRule_ownFault hs b n, fun _ => rfl, rfl⟩
  | hdrb c => exact ⟨s, _, hdrbRule_ownFault hs c, fun _ => rfl, rfl⟩
  | hdrser => exact ⟨s, _, hdrserRule_ownFault hs, fun _ => rfl, rfl⟩
  | build => exact ⟨s, _, buildRule_ownFault hs, fun _ => rfl, rfl⟩
  | wbit v => exact ⟨s, _, wbitRule_ownFault hs v, fun _ => rfl, rfl⟩
  | wflush => exact ⟨s, _, wflushRule_ownFault hs, fun _ => rfl, rfl⟩
  | enc b => exact ⟨s, _, encRule_ownFault hs b, fun _ => rfl, rfl⟩
  | rbit => exact ⟨s, _, rbitRule_ownFault hs, fun _ => rfl, rfl⟩
  | dstep => exact ⟨s, _, dstepRule_ownFault hs, fun _ => rfl, rfl⟩
  | dec =>
    have hp : (descend (bitsLeft s.br) s).flt.code = 0 := by
      obtain ⟨b, c, e, -⟩ := descend_frame (bitsLeft s.br) s
      rw [e]
      exact hs
    exact ⟨_, _, dstepRule_ownFault hp, fun h => absurd rfl h, rfl⟩
  | reset => exact ⟨s, resetRule, rfl, fun _ => rfl, rfl⟩
  | _ => exact ⟨s, _, (Effect.ownFault_ok _).2 hs, fun _ => rfl, rfl⟩

end Rules

/-! ## ProtocolError -/

/-- Only ProtocolError has code 7 (R180). -/
theorem FaultKind.code_eq_seven {k : FaultKind} : k.code = 7 ↔ k = .protocol := by
  cases k <;> decide

/-- A rule's own end records no ProtocolError (R188). -/
theorem Effect.OwnFault.finish_code {e : Effect} (h : e.OwnFault) (p : Block) (op : Byte) :
    (p.finish op e).1.flt.code ≠ 7 := by
  cases e with
  | ok a => rw [Block.finish_ok, h]; decide
  | error f => exact mt FaultKind.code_eq_seven.1 h

/-- Settles O13: the forbidden control states are those in which the precondition fails; where it holds the command ends
as its own rule does (`ruleRun_eq_finish`). -/
theorem protocolErrorTable : Obligations.ProtocolErrorTable := by
  intro i s hf forbidden
  have hforbidden : forbidden ↔ precondition s.toBlock i = false := by
    cases i with
    | hdrb | hdrser | build | gencode | enc | dstart => simp [forbidden, precondition, imp_iff_not_or, or_assoc]
    | _ => simp [forbidden, precondition]
  rw [hforbidden]
  refine ⟨exec_forbidden hf, fun hp => ⟨_, exec_run hf (by simpa using hp), ?_⟩⟩
  obtain ⟨p, e, hown, -, hrun⟩ := ruleRun_eq_finish hf i
  rw [State.respond_toBlock, hrun]
  exact hown.finish_code p i.opcode

/-! ## Precise faults -/

/-- A command other than DEC leaves an unfaulted block unfaulted or does nothing but raise a fault (R186, R192). -/
theorem Block.answer_of_unfaulted {s : Block} {i : Instr} (hs : s.flt.code = 0) (hi : i ≠ .dec) :
    (s.answer i).1.flt.code = 0 ∨ ∃ f, s.answer i = s.raise i.opcode f := by
  rcases s.answer_cases i with ⟨hf, -, -⟩ | ⟨-, -, h⟩ | ⟨-, -, h⟩
  · exact absurd hs (Block.faulted_eq_true.1 hf)
  · exact .inr ⟨_, h⟩
  · obtain ⟨p, e, hown, hp, hrun⟩ := ruleRun_eq_finish hs i
    rw [h, hrun, hp hi]
    cases e with
    | ok a => exact .inl hown
    | error f => exact .inr ⟨f, rfl⟩

/-- Settles O14: the command has raised a fault from the block it found (`Block.answer_of_unfaulted`). -/
theorem faultsArePrecise : Obligations.FaultsArePrecise := by
  intro i s t hi hs h ht
  rw [exec_eq] at h
  cases h
  obtain hcode | ⟨f, hraise⟩ := Block.answer_of_unfaulted hs hi
  · exact absurd hcode ht
  · rw [hraise]
    rfl

end Sys2Proof.Machine
end
